-- ==== Sys2Proof/Word.lean ====
section
/-! DEFINITION. The two widths of the wire protocol (00_scope.md R13): every field of a frame is 32 bits, every command,
response and link transfer is one byte. -/

namespace Sys2Proof

/-- One byte of the link, of a buffer or of the flash array (R13). -/
abbrev Byte := BitVec 8

/-- A 32-bit frame field, address, region index or count (R13, 10_state.md R22, R23, R28 to R30). -/
abbrev Word := BitVec 32

end Sys2Proof
end

