-- ==== Sys2Proof/Config.lean ====
section
/-! DEFINITION. The implementation parameters of 00_scope.md R11, and the model's free values: constants with no body,
whose value no proof can see. -/

namespace Sys2Proof

/-- Byte order of every 32-bit frame field (20_memory.md R41). -/
inductive FieldOrder where
  | little
  | big
  deriving DecidableEq, Repr

/-- The parameters of R11. They are fixed for a run (70_reset_and_hazards.md R148(b)). `appStart` and `tIb` are named
by R11 and read by no rule of either block. -/
structure Config where
  /-- `GUARD`, the magic a header must carry. -/
  guard : Word
  /-- `FIELD_ORDER`. -/
  fieldOrder : FieldOrder
  /-- `FLASH_BASE`, the lowest address of the flash array. -/
  flashBase : Nat
  /-- `FLASH_LEN`, its size in bytes. -/
  flashLen : Nat
  /-- `FLASH_LIMIT`, the exclusive bound of an unlock window's end. -/
  flashLimit : Nat
  /-- `PAGE_SIZE`. -/
  pageSize : Nat
  /-- `EB_SIZE`, the erase block and staged block size. -/
  ebSize : Nat
  /-- `REGION_SIZE`, the bytes one lock bit protects. -/
  regionSize : Nat
  /-- `BOOT_SIZE`, the reserved bootloader size (read by S_CHECK, 42_flash_sequencer.md R109). -/
  bootSize : Nat
  /-- `APP_START`. -/
  appStart : Nat
  /-- `T_IB`, the inter-byte period; the model has no time (R157). -/
  tIb : Nat
  deriving DecidableEq, Repr

namespace Config

/-- The test configuration of 95_test_vectors.md section 0. Its numbers are the spec's test values, not the hardware's
(DESIGN CHOICE: log 1). -/
def test : Config where
  guard := 0x11223344
  fieldOrder := .little
  flashBase := 0
  flashLen := 0x100
  flashLimit := 0x100
  pageSize := 8
  ebSize := 16
  regionSize := 32
  bootSize := 0x20
  appStart := 0x20
  tIb := 0

/-- The hardware CRC engine: an uninterpreted total function of a byte sequence (R11, 41_frame_commands.md R97; log 10). -/
opaque hwCrc : List Byte → Word

/-- A payload byte that the current frame did not write, read at a step: free (41_frame_commands.md R101; log 5). -/
opaque freePayloadByte : (clock index : Nat) → Byte

/-- What a flash operation leaves in a targeted byte when it fails, when its target is locked, or when the page was not
freshly erased: free (20_memory.md R48, R50, R51; log 6). -/
opaque freeFlashByte : (clock address : Nat) → Byte

/-- What a read sees in a byte that an operation in flight targets: free (20_memory.md R47; log 7). -/
opaque inFlightByte : (clock address : Nat) → Byte

/-- What a read sees at an address outside the flash array: the spec states no value (log 8). -/
opaque unmappedByte : (address : Nat) → Byte

/-- Whether a protected region is still protected after its unlock failed: free (20_memory.md R48, 60_exceptions.md
R140; log 9). -/
opaque freeLockBit : (clock region : Nat) → Bool

end Config
end Sys2Proof
end

