-- ==== Sys2Proof/Machine/Geometry.lean ====
section
/-! DEFINITION. What the parameters of 00_scope.md R11 determine: sizes, regions, alignment (R14), the unlock window
(41_frame_commands.md R94) and the constraints of R12. -/

namespace Sys2Proof

/-- `align_down` of R14. -/
def alignDown (a m : Nat) : Nat := a - a % m

namespace Config

/-- `HEADER_LEN` (R11). -/
def headerLen : Nat := 9

/-- `MAX_PAYLOAD` (R11, 90_conflicts.md C2). -/
def maxPayload (c : Config) : Nat := 4 + c.ebSize

/-- The address lies in the flash array (20_memory.md R55). -/
def inArray (c : Config) (a : Nat) : Bool := decide (c.flashBase ≤ a ∧ a < c.flashBase + c.flashLen)

/-- The write-protection region of an address (20_memory.md R56). -/
def regionOf (c : Config) (a : Nat) : Nat := (a - c.flashBase) / c.regionSize

/-- How many regions the array has, a last partial one counted (20_memory.md R56). -/
def regionCount (c : Config) : Nat := (c.flashLen + c.regionSize - 1) / c.regionSize

/-- `EB_SIZE div PAGE_SIZE` (42_flash_sequencer.md R112). -/
def pagesPerBlock (c : Config) : Nat := c.ebSize / c.pageSize

/-- `unlockAlign`, the default for this hardware: both rounded down, unbounded sum (41_frame_commands.md R94, R103;
log 17). -/
def unlockAlign (c : Config) (addr size : Word) : Nat × Nat :=
  (alignDown addr.toNat c.ebSize, alignDown addr.toNat c.ebSize + alignDown size.toNat c.ebSize)

/-- The constraints (1) to (4) of R12, in order. -/
def valid (c : Config) : Bool :=
  decide ((1 ≤ c.pageSize ∧ 1 ≤ c.ebSize ∧ c.ebSize % c.pageSize = 0) ∧
    (1 ≤ c.regionSize ∧ (c.regionSize % c.ebSize = 0 ∨ c.ebSize % c.regionSize = 0)) ∧
    (c.flashLimit % c.ebSize = 0 ∧ c.flashLimit + c.ebSize ≤ 2 ^ 32 ∧ c.flashBase % c.ebSize = 0 ∧
      c.flashBase + c.flashLen ≤ 2 ^ 32) ∧
    c.maxPayload ≤ 2 ^ 32 - 1)

end Config
end Sys2Proof
end

