-- ==== Sys2Proof/Syntax.lean ====
section
/-! DEFINITION. The operation set of spec/opcode_table.json, one constructor per row, and the selection codes of
30_encoding.md from which an operation is read. -/

namespace Sys2Proof

/-- One constructor per row of the opcode table. Operands are the fields the row's encoding carries. -/
inductive Instr where
  /-- FRAME_HEADER: a complete 9-byte header (30_encoding.md R64). -/
  | frameHeader (guard size : Word) (cmd : Byte)
  /-- UNLOCK (41_frame_commands.md R95). -/
  | unlock (addr size : Word)
  /-- DATA, with the declared payload size the contract tests (R96). -/
  | data (fSize addr : Word) (block : List Byte)
  /-- VERIFY (R97). -/
  | verify (crc : Word)
  /-- RESET (R98). -/
  | reset
  /-- BKSWAP_RESET (R99). -/
  | bkswapReset
  /-- Any command byte outside 0xA0 to 0xA4 (R100). -/
  | unknownCmd (cmd : Byte)
  /-- RSP_OK, 0x50 (30_encoding.md R66). -/
  | rspOk
  /-- RSP_ERROR, 0x51. -/
  | rspError
  /-- RSP_INVALID, 0x52. -/
  | rspInvalid
  /-- RSP_CRC_OK, 0x53. -/
  | rspCrcOk
  /-- RSP_CRC_FAIL, 0x54. -/
  | rspCrcFail
  /-- FR_IDLE (40_frame_receiver.md R78). -/
  | frIdle
  /-- FR_TMO (R79). -/
  | frTmo
  /-- FR_DROP (R80). -/
  | frDrop
  /-- FR_HDR_BYTE, header bytes 0 to 7 (R81). -/
  | frHdrByteAcc
  /-- FR_HDR_BYTE, ninth byte, guard mismatch (R82). -/
  | frHdrByteMismatch
  /-- FR_HDR_BYTE, ninth byte, guard match (R83). -/
  | frHdrByteMatch
  /-- FR_BODY_BYTE (R84). -/
  | frBodyByte
  /-- S_POLL (42_flash_sequencer.md R107). -/
  | sPoll
  /-- S_DISPATCH (R108). -/
  | sDispatch
  /-- S_CHECK (R109). -/
  | sCheck
  /-- S_UNLOCK (R110). -/
  | sUnlock
  /-- S_ERASE (R111). -/
  | sErase
  /-- S_PAGE (R112). -/
  | sPage
  /-- S_FINAL (R113). -/
  | sFinal
  /-- S_TXWAIT (R116). -/
  | sTxwait
  deriving DecidableEq, Repr

/-- The seven Frame Receiver operations a poll selects among (40_frame_receiver.md R76). -/
inductive FrOp where
  | idle
  | tmo
  | drop
  | hdrAcc
  | hdrMismatch
  | hdrMatch
  | body
  deriving DecidableEq, Repr

/-- The instruction a Frame Receiver operation is. -/
def FrOp.instr : FrOp → Instr
  | .idle => .frIdle
  | .tmo => .frTmo
  | .drop => .frDrop
  | .hdrAcc => .frHdrByteAcc
  | .hdrMismatch => .frHdrByteMismatch
  | .hdrMatch => .frHdrByteMatch
  | .body => .frBodyByte

/-- What a poll selects its operation by: the poll condition vector of 30_encoding.md R71, the conditions that tell the
three FR_HDR_BYTE rows apart (R81 to R83), and the choice left open when a byte and a timeout are both visible (R85). -/
structure PollWord where
  /-- `PCV = {rx_ready, tmo_flag, frame_complete, rx_state}`, bit 3 to bit 0. -/
  pcv : BitVec 4
  /-- The waiting byte would be the header's ninth. -/
  ninth : Bool
  /-- The collected guard equals `GUARD`. -/
  guardOk : Bool
  /-- Take the timeout first if both are visible. -/
  tmoFirst : Bool
  deriving DecidableEq, Repr

/-- An encoded operation, in the format its row of the opcode table names. -/
inductive Code where
  /-- Format frame_header: the header bytes. -/
  | header (bytes : List Byte)
  /-- Format frame_cmd: a whole frame, header and payload. -/
  | frame (bytes : List Byte)
  /-- Format response: the single response byte. -/
  | response (byte : Byte)
  /-- Format fr_pcv. -/
  | poll (word : PollWord)
  /-- Format fps_seq_state. -/
  | seq (code : BitVec 3)
  deriving DecidableEq, Repr

end Sys2Proof
end

