-- ==== Sys2Proof/WellFormed.lean ====
section
/-! DEFINITION. Which instructions have an encoding of their own: the checks on operands that 30_encoding.md and
41_frame_commands.md put on a row. -/

namespace Sys2Proof

/-- The command byte is one of the five assigned ones (30_encoding.md R67). -/
def assignedCmd (c : Byte) : Bool := decide (0xA0 ≤ c ∧ c ≤ 0xA4)

/-- Well-formed under a configuration: a header carries `GUARD` (R64), a DATA frame carries exactly one block and declares it
(R65, R96), an unknown command is none of the assigned ones (R70). An UNLOCK's eight payload bytes must fit the payload
buffer, or its last ones are never stored (10_state.md R24, 41_frame_commands.md R101; log 29). The other rows put no condition on
their operands. -/
def Instr.wf (cfg : Config) : Instr → Bool
  | .frameHeader guard _ _ => decide (guard = cfg.guard)
  | .unlock _ _ => decide (8 ≤ cfg.maxPayload)
  | .data fSize _ block => decide (block.length = cfg.ebSize ∧ fSize.toNat = 4 + cfg.ebSize)
  | .unknownCmd cmd => !assignedCmd cmd
  | .verify _ => true
  | .reset => true
  | .bkswapReset => true
  | .rspOk => true
  | .rspError => true
  | .rspInvalid => true
  | .rspCrcOk => true
  | .rspCrcFail => true
  | .frIdle => true
  | .frTmo => true
  | .frDrop => true
  | .frHdrByteAcc => true
  | .frHdrByteMismatch => true
  | .frHdrByteMatch => true
  | .frBodyByte => true
  | .sPoll => true
  | .sDispatch => true
  | .sCheck => true
  | .sUnlock => true
  | .sErase => true
  | .sPage => true
  | .sFinal => true
  | .sTxwait => true

end Sys2Proof
end

