-- ==== Sys2Proof/Decode.lean ====
section
/-! DEFINITION. Reading an operation from its selection code and writing the code of an operation: 30_encoding.md and
00_scope.md R14. Decoding is total and rejects by name. -/

namespace Sys2Proof

/-! Fields -/

/-- `asm32` of R14 on four bytes in arrival order: `le32` or `be32` as FIELD_ORDER says. -/
def asm32 (order : FieldOrder) (b0 b1 b2 b3 : Byte) : Word :=
  match order with
  | .little => BitVec.ofNat 32 (b0.toNat + 2 ^ 8 * b1.toNat + 2 ^ 16 * b2.toNat + 2 ^ 24 * b3.toNat)
  | .big => BitVec.ofNat 32 (2 ^ 24 * b0.toNat + 2 ^ 16 * b1.toNat + 2 ^ 8 * b2.toNat + b3.toNat)

/-- `asm32(s, i)` of R14, on a sequence given by its bytes. -/
def asm32At (order : FieldOrder) (s : Nat → Byte) (i : Nat) : Word :=
  asm32 order (s i) (s (i + 1)) (s (i + 2)) (s (i + 3))

/-- Byte `k` of a value, byte 0 the least significant. -/
def byteOf (v : Word) (k : Nat) : Byte := BitVec.ofNat 8 (v.toNat / 2 ^ (8 * k))

/-- `ser32` of R14. -/
def ser32 (order : FieldOrder) (v : Word) : List Byte :=
  match order with
  | .little => [byteOf v 0, byteOf v 1, byteOf v 2, byteOf v 3]
  | .big => [byteOf v 3, byteOf v 2, byteOf v 1, byteOf v 0]

/-! Rows of the opcode table -/

/-- The `match` and `mask` of a Frame Receiver row over the poll condition vector (R71). -/
def FrOp.row : FrOp → BitVec 4 × BitVec 4
  | .idle => (0b0000, 0b1100)
  | .tmo => (0b0100, 0b0100)
  | .drop => (0b1010, 0b1010)
  | .hdrAcc => (0b1000, 0b1011)
  | .hdrMismatch => (0b1000, 0b1011)
  | .hdrMatch => (0b1000, 0b1011)
  | .body => (0b1001, 0b1011)

/-- The additional condition of a row: which of the three header-byte rows it is (40_frame_receiver.md R81 to R83). -/
def FrOp.side (op : FrOp) (w : PollWord) : Bool :=
  match op with
  | .idle => true
  | .tmo => true
  | .drop => true
  | .hdrAcc => !w.ninth
  | .hdrMismatch => w.ninth && !w.guardOk
  | .hdrMatch => w.ninth && w.guardOk
  | .body => true

/-- The operation is one the poll may take: its row matches and its additional condition holds (R71, R76). -/
def PollWord.admits (w : PollWord) (op : FrOp) : Bool :=
  decide (w.pcv &&& op.row.2 = op.row.1) && op.side w

/-- The vector of R71 from its four bits. -/
def pcvOf (rxReady tmoFlag frameComplete inBody : Bool) : BitVec 4 :=
  BitVec.ofNat 4 (8 * rxReady.toNat + 4 * tmoFlag.toNat + 2 * frameComplete.toNat + inBody.toNat)

/-- The command codes of R67. -/
def cmdUnlock : Byte := 0xA0
def cmdData : Byte := 0xA1
def cmdVerify : Byte := 0xA2
def cmdReset : Byte := 0xA3
def cmdBkswapReset : Byte := 0xA4

/-- The response codes of R66. -/
def rspOk : Byte := 0x50
def rspError : Byte := 0x51
def rspInvalid : Byte := 0x52
def rspCrcOk : Byte := 0x53
def rspCrcFail : Byte := 0x54

/-! Decoding -/

/-- Why bytes are not an operation. -/
inductive Reject where
  /-- A header is 9 bytes (R64). -/
  | headerLength
  /-- The guard field is not `GUARD` (R70). -/
  | badGuard
  /-- Fewer payload bytes than the size field declares (R63). -/
  | truncated
  /-- More bytes than the frame has (R63). -/
  | trailing
  /-- Not one of the five response codes (R66, R70). -/
  | noResponse
  deriving DecidableEq, Repr

/-- The operation a poll performs (R71, R76). Where a byte and a timeout are both visible, the open choice decides
(40_frame_receiver.md R85). Every vector matches a row, so the default is never taken. -/
def decodePoll (w : PollWord) : FrOp :=
  let byteRows : List FrOp := [.drop, .hdrAcc, .hdrMismatch, .hdrMatch, .body]
  ((if w.tmoFirst then .tmo :: byteRows else byteRows ++ [.tmo]).find? w.admits).getD .idle

/-- The operation of a sequencer state code; all eight codes are assigned (R72). -/
def decodeSeq (c : BitVec 3) : Instr :=
  if c = 0 then .sPoll
  else if c = 1 then .sDispatch
  else if c = 2 then .sCheck
  else if c = 3 then .sUnlock
  else if c = 4 then .sErase
  else if c = 5 then .sPage
  else if c = 6 then .sFinal
  else .sTxwait

/-- The contract a frame selects, with its operands (R67, R68): `pay i` is payload byte `i` as the dispatcher reads it. -/
def decodeCmd (cfg : Config) (cmd : Byte) (fSize : Word) (pay : Nat → Byte) : Instr :=
  if cmd = cmdUnlock then .unlock (asm32At cfg.fieldOrder pay 0) (asm32At cfg.fieldOrder pay 4)
  else if cmd = cmdData then
    .data fSize (asm32At cfg.fieldOrder pay 0) ((List.range cfg.ebSize).map fun i => pay (4 + i))
  else if cmd = cmdVerify then .verify (asm32At cfg.fieldOrder pay 0)
  else if cmd = cmdReset then .reset
  else if cmd = cmdBkswapReset then .bkswapReset
  else .unknownCmd cmd

/-- Payload byte `i` as the dispatcher reads it: what the current frame stored, else a draw (41_frame_commands.md R101).
A frame stores its first `min(f_size, MAX_PAYLOAD)` payload bytes (40_frame_receiver.md R91). -/
def payloadByte (cfg : Config) (fSize : Word) (buf : List Byte) (draw : Nat → Byte) (i : Nat) : Byte :=
  if i < min fSize.toNat cfg.maxPayload then buf[i]?.getD (draw i) else draw i

/-- The bytes of a sequence by index, 0 past its end. -/
def bytesAt (bs : List Byte) (i : Nat) : Byte := bs[i]?.getD 0

/-- A header (R64). -/
def decodeHeader (cfg : Config) (bs : List Byte) : Except Reject Instr :=
  if bs.length ≠ Config.headerLen then .error .headerLength
  else if asm32At cfg.fieldOrder (bytesAt bs) 0 ≠ cfg.guard then .error .badGuard
  else .ok (.frameHeader (asm32At cfg.fieldOrder (bytesAt bs) 0) (asm32At cfg.fieldOrder (bytesAt bs) 4) (bytesAt bs 8))

/-- A whole frame (R63, R64, R67, R68). -/
def decodeFrame (cfg : Config) (draw : Nat → Byte) (bs : List Byte) : Except Reject Instr :=
  if bs.length < Config.headerLen then .error .headerLength
  else if asm32At cfg.fieldOrder (bytesAt bs) 0 ≠ cfg.guard then .error .badGuard
  else
    let size := asm32At cfg.fieldOrder (bytesAt bs) 4
    if bs.length < Config.headerLen + size.toNat then .error .truncated
    else if Config.headerLen + size.toNat < bs.length then .error .trailing
    else .ok (decodeCmd cfg (bytesAt bs 8) size (payloadByte cfg size (bs.drop Config.headerLen) draw))

/-- A response byte (R66). -/
def decodeResponse (b : Byte) : Except Reject Instr :=
  if b = rspOk then .ok .rspOk
  else if b = rspError then .ok .rspError
  else if b = rspInvalid then .ok .rspInvalid
  else if b = rspCrcOk then .ok .rspCrcOk
  else if b = rspCrcFail then .ok .rspCrcFail
  else .error .noResponse

/-- The decoder, total on every code of every format. -/
def decode (cfg : Config) (draw : Nat → Byte) : Code → Except Reject Instr
  | .header bs => decodeHeader cfg bs
  | .frame bs => decodeFrame cfg draw bs
  | .response b => decodeResponse b
  | .poll w => .ok (decodePoll w).instr
  | .seq c => .ok (decodeSeq c)

/-! Encoding -/

/-- `HDR(g, s, c)` of R73. -/
def headerBytes (order : FieldOrder) (guard size : Word) (cmd : Byte) : List Byte :=
  ser32 order guard ++ ser32 order size ++ [cmd]

/-- `FRAME(c, p)` of R73. -/
def frameBytes (cfg : Config) (cmd : Byte) (payload : List Byte) : List Byte :=
  headerBytes cfg.fieldOrder cfg.guard (BitVec.ofNat 32 payload.length) cmd ++ payload

/-- The canonical poll word of a Frame Receiver operation: its row's `match` with its additional condition. -/
def encodePoll (op : FrOp) : PollWord where
  pcv := op.row.1
  ninth := decide (op = .hdrMismatch ∨ op = .hdrMatch)
  guardOk := decide (op = .hdrMatch)
  tmoFirst := false

/-- The code of an instruction: frames of R65 and R73, responses of R66, rows of R71 and R72. -/
def encode (cfg : Config) : Instr → Code
  | .frameHeader guard size cmd => .header (headerBytes cfg.fieldOrder guard size cmd)
  | .unlock addr size => .frame (frameBytes cfg cmdUnlock (ser32 cfg.fieldOrder addr ++ ser32 cfg.fieldOrder size))
  | .data _ addr block => .frame (frameBytes cfg cmdData (ser32 cfg.fieldOrder addr ++ block))
  | .verify crc => .frame (frameBytes cfg cmdVerify (ser32 cfg.fieldOrder crc))
  | .reset => .frame (frameBytes cfg cmdReset [])
  | .bkswapReset => .frame (frameBytes cfg cmdBkswapReset [])
  | .unknownCmd cmd => .frame (frameBytes cfg cmd [])
  | .rspOk => .response Sys2Proof.rspOk
  | .rspError => .response Sys2Proof.rspError
  | .rspInvalid => .response Sys2Proof.rspInvalid
  | .rspCrcOk => .response Sys2Proof.rspCrcOk
  | .rspCrcFail => .response Sys2Proof.rspCrcFail
  | .frIdle => .poll (encodePoll .idle)
  | .frTmo => .poll (encodePoll .tmo)
  | .frDrop => .poll (encodePoll .drop)
  | .frHdrByteAcc => .poll (encodePoll .hdrAcc)
  | .frHdrByteMismatch => .poll (encodePoll .hdrMismatch)
  | .frHdrByteMatch => .poll (encodePoll .hdrMatch)
  | .frBodyByte => .poll (encodePoll .body)
  | .sPoll => .seq 0
  | .sDispatch => .seq 1
  | .sCheck => .seq 2
  | .sUnlock => .seq 3
  | .sErase => .seq 4
  | .sPage => .seq 5
  | .sFinal => .seq 6
  | .sTxwait => .seq 7

/-! The host's table words -/

/-- The bytes of a table word, byte 0 the least significant. -/
def tableBytes (n w : Nat) : List Byte := (List.range n).map fun k => BitVec.ofNat 8 (w / 2 ^ (8 * k))

/-- The payload size R65 expects of a command. -/
def expectedSize (cfg : Config) (cmd : Byte) : Word :=
  if cmd = cmdUnlock then 8
  else if cmd = cmdData then BitVec.ofNat 32 (4 + cfg.ebSize)
  else if cmd = cmdVerify then 4
  else 0

/-- The instruction the decoder reads from a word of the opcode table. The table's five formats share words
(FR_IDLE and S_POLL are both 0, FR_TMO and S_ERASE both 4, the three FR_HDR_BYTE rows all 0b1000): log 22 says how they
are told apart here. A word of 32 bits or more is a header; a command's operands are bytes of zeros. -/
def decodeTableWord (nbits w : Nat) : Option Instr :=
  let b : Byte := BitVec.ofNat 8 w
  if 32 ≤ nbits then (decode Config.test (fun _ => 0) (.header (tableBytes Config.headerLen w))).toOption
  else if b.toNat < 8 then (decode Config.test (fun _ => 0) (.seq (BitVec.ofNat 3 w))).toOption
  else if b.toNat < 16 then
    (decode Config.test (fun _ => 0) (.poll ⟨BitVec.ofNat 4 w, false, false, false⟩)).toOption
  else
    match decodeResponse b with
    | .ok i => some i
    | .error _ => some (decodeCmd Config.test b (expectedSize Config.test b) fun _ => 0)

end Sys2Proof
end

