-- ==== Sys2Proof/Machine/State.lean ====
section
/-! DEFINITION. The state of the two blocks, of the session they share and of the collaborators they read (10_state.md),
as plain data; the reasons a step can stop; the state at launch (70_reset_and_hazards.md R145). -/

namespace Sys2Proof.Machine

/-- A model fault: the closed list of 60_exceptions.md R128. -/
inductive Fault where
  /-- Raised by DATA (41_frame_commands.md R96) when an accepted block meets a pending one; safe: no run of this FPS
  reaches it (R102). -/
  | stagedOverwrite
  /-- Raised by S_CHECK (42_flash_sequencer.md R109) for a block not wholly inside the flash array; safe: the source gives
  such an erase no meaning. -/
  | outsideFlash
  /-- Raised by S_CHECK (R109) for a block that starts inside the bootloader's own flash; safe: the source gives erasing
  the running code no meaning. -/
  | selfOverwrite
  deriving DecidableEq, Repr

/-- Why a step has no meaning. -/
inductive Refusal where
  /-- Raised by `exec` for an instruction with no meaning yet; safe. No arm uses it. -/
  | notModelled (mnemonic : String)
  /-- Raised by `step` for parameters that break 00_scope.md R12 (60_exceptions.md R130); safe. -/
  | badConfiguration
  /-- Raised by a Frame Receiver operation executed where its own condition does not hold (R76, R136); safe: the spec
  gives it no effect there, and a poll never selects it there (log 16). -/
  | notEnabled
  deriving DecidableEq, Repr

/-- `rx_state` (10_state.md R20): AwaitingHeader is 0, AwaitingBody is 1. -/
inductive RxState where
  | awaitingHeader
  | awaitingBody
  deriving DecidableEq, Repr

/-- `seq_state` (R27), in code order. -/
inductive SeqState where
  | poll
  | dispatch
  | check
  | unlock
  | erase
  | page
  | final
  | txwait
  deriving DecidableEq, Repr

/-- `tx_action` (R28): 0 is a system reset, 1 a bank swap and restart. -/
inductive TxAction where
  | systemReset
  | bankSwap
  deriving DecidableEq, Repr

/-- How a run ended (70_reset_and_hazards.md R149 (a), (b)). -/
inductive EndKind where
  | systemReset
  | bankSwapRestart
  deriving DecidableEq, Repr

/-- An operation issued to the flash controller, with the widths of 60_exceptions.md R139. -/
inductive FlashOp where
  /-- `FlashUnlock(r)`. -/
  | unlock (region : Word)
  /-- `FlashErase(a)`. -/
  | erase (addr : Word)
  /-- `FlashPageWrite(a, d)`. -/
  | pageWrite (addr : Word) (data : List Byte)
  deriving DecidableEq, Repr

/-- One move of one agent (00_scope.md R17, 60_exceptions.md R140; log 2). -/
inductive Move where
  /-- One FPS step. `tmoFirst` settles the race of 40_frame_receiver.md R85 for this step. -/
  | controller (tmoFirst : Bool)
  /-- The host sends a byte. -/
  | hostByte (b : Byte)
  /-- The timer period elapses (R137). -/
  | timerExpire
  /-- The flash controller completes its operation, and leaves this status word (R47, R51). -/
  | flashDone (success : Bool) (status : Nat)
  /-- The transmitter sends its oldest byte (R52). -/
  | linkSent
  /-- After a reset, the Boot Decision Engine stays in update mode and starts the main loop (R144), with these lock bits
  and this timer flag (R145). -/
  | launch (locked : List Bool) (tmo : Bool)
  deriving DecidableEq, Repr

/-- The flash array's listed bytes, address strictly rising; an unlisted address reads as the erased byte (log 12). -/
abbrev Memory := List Host.Cell

/-- Frame Receiver state (10_state.md section 2). -/
structure Receiver where
  /-- `rx_state`. -/
  rxState : RxState
  /-- `hdr_buf[0..9)`. -/
  hdrBuf : Vector Byte 9
  /-- `f_size`. -/
  fSize : Word
  /-- `f_cmd`. -/
  fCmd : Byte
  /-- `cursor`. -/
  cursor : Word
  /-- `pay_buf[0..MAX_PAYLOAD)`. -/
  payBuf : List Byte
  /-- `frame_complete`. -/
  frameComplete : Bool
  deriving DecidableEq, Repr

/-- Flash Programmer Sequencer state (10_state.md section 3). -/
structure Sequencer where
  /-- `seq_state`. -/
  seqState : SeqState
  /-- `prog_addr`. -/
  progAddr : Word
  /-- `rgn`. -/
  rgn : Word
  /-- `rgn_last`. -/
  rgnLast : Word
  /-- `pg`. -/
  pg : Word
  /-- `tx_action`. -/
  txAction : TxAction
  deriving DecidableEq, Repr

/-- Session state shared with the dispatcher (10_state.md section 4). -/
structure Session where
  /-- `win_begin`. -/
  winBegin : Word
  /-- `win_end`. -/
  winEnd : Word
  /-- `staged_addr`. -/
  stagedAddr : Word
  /-- `staged_data[0..EB_SIZE)`. -/
  stagedData : List Byte
  /-- `staged_ready`. -/
  stagedReady : Bool
  deriving DecidableEq, Repr

/-- The byte link (10_state.md R31). `tx_q` is `txDone ++ txPend` (log 19). -/
structure Link where
  /-- `rx_q`, oldest first. -/
  rxQ : List Byte
  /-- The part of `tx_q` that was transmitted. -/
  txDone : List Byte
  /-- The part of `tx_q` still to be transmitted. -/
  txPend : List Byte
  deriving DecidableEq, Repr

/-- The flash controller (10_state.md R33). -/
structure FlashCtl where
  /-- The bytes of `flash[]`. -/
  cells : Memory
  /-- The addresses erased with no write since (20_memory.md R50; log 20), strictly rising. -/
  erased : List Nat
  /-- `locked[r]`, by region index. -/
  locked : List Bool
  /-- `bank`. It selects nothing in the array the model holds (20_memory.md R55; log 30). -/
  bank : Bool
  /-- The operation in flight; `fl_busy` says whether there is one (20_memory.md R47). -/
  inFlight : Option FlashOp
  /-- `fl_status`, which neither block reads and no reset keeps (60_exceptions.md R143; log 18). -/
  status : Nat
  deriving DecidableEq, Repr

/-- The whole machine. `sched`, `pollTmoFirst` and `clock` are the model's own fields (logs 2, 4, 5). -/
structure State where
  /-- The parameters, fixed for the run (log 1). -/
  cfg : Config
  /-- The Frame Receiver. -/
  rx : Receiver
  /-- The Flash Programmer Sequencer. -/
  fps : Sequencer
  /-- The session. -/
  ses : Session
  /-- The byte link. -/
  link : Link
  /-- `tmo_flag` (R32). -/
  tmoFlag : Bool
  /-- The flash controller. -/
  fl : FlashCtl
  /-- How the run ended, if it has (R149, R158(c)). -/
  ended : Option EndKind
  /-- The agents' moves to come, oldest first; with none, the controller moves. -/
  sched : List Move
  /-- Which event the next poll takes when a byte and a timeout are both visible (R85). -/
  pollTmoFirst : Bool
  /-- How many steps were taken: the free values are applied to it. -/
  clock : Nat
  deriving DecidableEq, Repr

/-- The launch state of 70_reset_and_hazards.md R145 under a configuration. Registers the spec gives no value hold zero
(log 11); `locked`, `tmo_flag`, `bank`, the flash content and `rx_q` are as logs 12, 13 and 14 say. -/
def State.launchOf (cfg : Config) : State where
  cfg := cfg
  rx :=
    { rxState := .awaitingHeader
      hdrBuf := Vector.replicate 9 0
      fSize := 0
      fCmd := 0
      cursor := 0
      payBuf := List.replicate cfg.maxPayload 0
      frameComplete := false }
  fps := { seqState := .poll, progAddr := 0, rgn := 0, rgnLast := 0, pg := 0, txAction := .systemReset }
  ses :=
    { winBegin := 0
      winEnd := 0
      stagedAddr := 0
      stagedData := List.replicate cfg.ebSize 0
      stagedReady := false }
  link := { rxQ := [], txDone := [], txPend := [] }
  tmoFlag := false
  fl :=
    { cells := []
      erased := []
      locked := List.replicate cfg.regionCount true
      bank := false
      inFlight := none
      status := 0 }
  ended := none
  sched := []
  pollTmoFirst := false
  clock := 0

/-- The machine right after reset, under the test configuration (log 1). -/
def State.reset : State := State.launchOf Config.test

end Sys2Proof.Machine
end

