-- ==== Sys2Proof/Machine/Flags.lean ====
section
/-! DEFINITION. The single-bit flags of 10_state.md R35 that are computed from other state, the codes of the control states,
and the poll condition vector of 30_encoding.md R71. The machine has no arithmetic condition codes (R35). -/

namespace Sys2Proof.Machine

/-- `rx_ready`: the receive stream is not empty (R31). -/
def State.rxReady (s : State) : Bool := !s.link.rxQ.isEmpty

/-- `tx_complete`: every byte written has been transmitted (R31). -/
def State.txComplete (s : State) : Bool := s.link.txPend.isEmpty

/-- `tx_q`: everything written since launch, in order (R31). -/
def State.txQ (s : State) : List Byte := s.link.txDone ++ s.link.txPend

/-- `fl_busy`: an operation is in flight (R33). -/
def State.flBusy (s : State) : Bool := s.fl.inFlight.isSome

/-- The code of `seq_state` (R27). -/
def SeqState.code : SeqState → BitVec 3
  | .poll => 0
  | .dispatch => 1
  | .check => 2
  | .unlock => 3
  | .erase => 4
  | .page => 5
  | .final => 6
  | .txwait => 7

/-- The code of `rx_state` (R20), as a bit: 1 is AwaitingBody. -/
def RxState.bit : RxState → Bool
  | .awaitingHeader => false
  | .awaitingBody => true

/-- The collected guard equals `GUARD` (20_memory.md R42). Bytes 0 to 3 are in `hdr_buf` before the ninth byte arrives. -/
def State.guardOk (s : State) : Bool :=
  decide (asm32 s.cfg.fieldOrder s.rx.hdrBuf[0] s.rx.hdrBuf[1] s.rx.hdrBuf[2] s.rx.hdrBuf[3] = s.cfg.guard)

/-- The poll condition vector (R71). -/
def State.pcv (s : State) : BitVec 4 := pcvOf s.rxReady s.tmoFlag s.rx.frameComplete s.rx.rxState.bit

/-- What a poll selects its operation by. -/
def State.pollWord (s : State) : PollWord where
  pcv := s.pcv
  ninth := decide (8 ≤ s.rx.cursor.toNat)
  guardOk := s.guardOk
  tmoFirst := s.pollTmoFirst

/-- The condition of a Frame Receiver operation, the Operands line of its rule (40_frame_receiver.md R78 to R84). -/
def State.frEnabled (s : State) : FrOp → Bool
  | .idle => !s.rxReady && !s.tmoFlag
  | .tmo => s.tmoFlag
  | .drop => s.rxReady && s.rx.frameComplete
  | .hdrAcc =>
    s.rxReady && !s.rx.frameComplete && decide (s.rx.rxState = .awaitingHeader) && decide (s.rx.cursor.toNat ≤ 7)
  | .hdrMismatch =>
    s.rxReady && !s.rx.frameComplete && decide (s.rx.rxState = .awaitingHeader) && decide (s.rx.cursor.toNat = 8) &&
      !s.guardOk
  | .hdrMatch =>
    s.rxReady && !s.rx.frameComplete && decide (s.rx.rxState = .awaitingHeader) && decide (s.rx.cursor.toNat = 8) &&
      s.guardOk
  | .body => s.rxReady && !s.rx.frameComplete && decide (s.rx.rxState = .awaitingBody)

end Sys2Proof.Machine
end

