-- ==== Sys2Proof/Machine/Memory.lean ====
section
/-! DEFINITION. The flash array's bytes as a canonical list of cells, and the canonical list of erased addresses. -/

namespace Sys2Proof.Machine

/-- The erased byte (20_memory.md R49); also what an unlisted address reads as (log 12). -/
def erasedByte : Byte := 0xFF

/-- One byte. -/
def Memory.read : Memory → Nat → Byte
  | [], _ => erasedByte
  | (k, v) :: m, a => if k = a then v else Memory.read m a

/-- Store one byte, keeping the addresses rising and no cell that holds the erased byte. -/
def Memory.write : Memory → Nat → Byte → Memory
  | [], a, b => if b = erasedByte then [] else [(a, b)]
  | (k, v) :: m, a, b =>
    if a < k then (if b = erasedByte then (k, v) :: m else (a, b) :: (k, v) :: m)
    else if a = k then (if b = erasedByte then m else (a, b) :: m)
    else (k, v) :: Memory.write m a b

/-- Store the bytes at `a`, `a + 1`, ...; an address outside the flash array has no cell (log 24). -/
def Memory.store (cfg : Config) : Memory → Nat → List Byte → Memory
  | m, _, [] => m
  | m, a, b :: bs => Memory.store cfg (if cfg.inArray a then m.write a b else m) (a + 1) bs

/-- The canonical form: addresses strictly rising, no cell holding the erased byte. -/
def Memory.wf (m : Memory) : Bool :=
  decide (m.Pairwise fun x y => x.1 < y.1) && m.all fun c => decide (c.2 ≠ erasedByte)

/-- Add an address to a strictly rising list. -/
def insertAddr : List Nat → Nat → List Nat
  | [], a => [a]
  | k :: ks, a => if a < k then a :: k :: ks else if a = k then k :: ks else k :: insertAddr ks a

/-- Add the addresses `a` to `a + n - 1`. -/
def insertRange (s : List Nat) (a : Nat) : Nat → List Nat
  | 0 => s
  | n + 1 => insertAddr (insertRange s a n) (a + n)

/-- Remove the addresses `a` to `a + n - 1`. -/
def removeRange (s : List Nat) (a n : Nat) : List Nat :=
  s.filter fun x => !decide (a ≤ x ∧ x < a + n)

/-- Every address from `a` to `a + n - 1` is in the list. -/
def containsRange (s : List Nat) (a n : Nat) : Bool :=
  (List.range n).all fun i => decide (a + i ∈ s)

end Sys2Proof.Machine
end

