-- ==== Sys2Proof/Machine/Operands.lean ====
section
/-! DEFINITION. Every operand form: the fields of the collected header, the fields of a dispatched frame's payload
(30_encoding.md R68), a byte and a range of the flash array as `MemRead` sees it, the page a page write takes. -/

namespace Sys2Proof.Machine

/-! The header buffer (R64) -/

/-- `asm32(hdr_buf, 0)`. -/
def State.hdrGuard (s : State) : Word :=
  asm32 s.cfg.fieldOrder s.rx.hdrBuf[0] s.rx.hdrBuf[1] s.rx.hdrBuf[2] s.rx.hdrBuf[3]

/-- `asm32(hdr_buf, 4)`. -/
def State.hdrSize (s : State) : Word :=
  asm32 s.cfg.fieldOrder s.rx.hdrBuf[4] s.rx.hdrBuf[5] s.rx.hdrBuf[6] s.rx.hdrBuf[7]

/-- `hdr_buf[8]`. -/
def State.hdrCmd (s : State) : Byte := s.rx.hdrBuf[8]

/-! The payload buffer -/

/-- Payload byte `i` as the dispatcher reads it (41_frame_commands.md R101). -/
def State.payByte (s : State) (i : Nat) : Byte :=
  payloadByte s.cfg s.rx.fSize s.rx.payBuf (Config.freePayloadByte s.clock) i

/-- `asm32(pay_buf, i)`. -/
def State.payWord (s : State) (i : Nat) : Word := asm32At s.cfg.fieldOrder s.payByte i

/-- `pay_buf[4 .. 4 + EB_SIZE)`. -/
def State.payBlock (s : State) : List Byte := (List.range s.cfg.ebSize).map fun i => s.payByte (4 + i)

/-- The command row the latched frame selects, with its operands (R67, R68). -/
def State.command (s : State) : Instr := decodeCmd s.cfg s.rx.fCmd s.rx.fSize s.payByte

/-! The flash array -/

/-- The bytes an operation targets: first address and length (20_memory.md R54). -/
def FlashOp.target (cfg : Config) : FlashOp → Nat × Nat
  | .unlock _ => (0, 0)
  | .erase a => (a.toNat, cfg.ebSize)
  | .pageWrite a d => (a.toNat, d.length)

/-- The operation in flight targets the address (R47). -/
def State.inFlightAt (s : State) (a : Nat) : Bool :=
  match s.fl.inFlight with
  | none => false
  | some op => decide ((op.target s.cfg).1 ≤ a ∧ a < (op.target s.cfg).1 + (op.target s.cfg).2)

/-- One byte of the array as a read sees it: free while an operation targets it (R47; log 7), unstated outside the array
(log 8). An address reads the same byte whichever bank is active (R55; log 30). -/
def State.flashByte (s : State) (a : Nat) : Byte :=
  if s.cfg.inArray a then
    (if s.inFlightAt a then Config.inFlightByte s.clock a else s.fl.cells.read a)
  else Config.unmappedByte a

/-- `MemRead(a, n)` (00_scope.md R15). -/
def State.memRead (s : State) (a n : Nat) : List Byte := (List.range n).map fun i => s.flashByte (a + i)

/-- The contents of the unlock window (41_frame_commands.md R97). -/
def State.windowBytes (s : State) : List Byte :=
  s.memRead s.ses.winBegin.toNat (s.ses.winEnd.toNat - s.ses.winBegin.toNat)

/-! The page a page write takes (42_flash_sequencer.md R112) -/

/-- `prog_addr + pg * PAGE_SIZE`. -/
def State.pageAddr (s : State) : Word :=
  BitVec.ofNat 32 (s.fps.progAddr.toNat + s.fps.pg.toNat * s.cfg.pageSize)

/-- `staged_data[pg * PAGE_SIZE .. (pg + 1) * PAGE_SIZE)`. -/
def State.pageData (s : State) : List Byte :=
  (s.ses.stagedData.drop (s.fps.pg.toNat * s.cfg.pageSize)).take s.cfg.pageSize

end Sys2Proof.Machine
end

