-- ==== Sys2Proof/Machine/Ops.lean ====
section
/-! DEFINITION. The named operations of 00_scope.md R15 over the state: link, timer, flash controller, end of run and launch.
The blocks have no exception entry or return to share (60_exceptions.md R124, R133, R134). -/

namespace Sys2Proof.Machine

/-- What every meaning answers. -/
abbrev Result := Host.Outcome State Fault Refusal

/-- Apply an update to the next state; a fault or refusal stays as it is. -/
def andThen (r : Result) (f : State → State) : Result :=
  match r with
  | .next s => .next (f s)
  | .fault e => .fault e
  | .refused e => .refused e

/-! Link and timer -/

/-- `LinkWrite(b)` (20_memory.md R52). -/
def linkWrite (b : Byte) (s : State) : State := { s with link.txPend := s.link.txPend ++ [b] }

/-- `LinkRead()` (20_memory.md R53): the oldest byte and the state without it. Enabled only when a byte is ready (R15). -/
def linkRead (s : State) : Option (Byte × State) :=
  match s.link.rxQ with
  | [] => none
  | b :: q => some (b, { s with link.rxQ := q })

/-- `TimerRestart()` (60_exceptions.md R137). -/
def timerRestart (s : State) : State := { s with tmoFlag := false }

/-- Perform a Frame Receiver operation that takes a byte, where its condition holds. -/
def withByte (op : FrOp) (s : State) (f : Byte → State → State) : Result :=
  if s.frEnabled op then
    match linkRead s with
    | some (b, s') => .next (f b s')
    | none => .refused .notEnabled
  else .refused .notEnabled

/-- Store a header byte (40_frame_receiver.md R81 to R83). -/
def storeHeader (i : Nat) (b : Byte) (s : State) : State := { s with rx.hdrBuf := s.rx.hdrBuf.setIfInBounds i b }

/-! Responses -/

/-- Write a response and clear `frame_complete` as the last write (41_frame_commands.md R92, R93). -/
def respond (code : Byte) (s : State) : State := { linkWrite code s with rx.frameComplete := false }

/-! Flash controller -/

/-- Issue an operation: `fl_busy` becomes 1 (20_memory.md R47). -/
def flashIssue (op : FlashOp) (s : State) : State := { s with fl.inFlight := some op }

/-- The region of some targeted byte is protected (20_memory.md R48). -/
def targetLocked (cfg : Config) (locked : List Bool) (a n : Nat) : Bool :=
  (List.range n).any fun i => locked.getD (cfg.regionOf (a + i)) false

/-- Leave a free value in every targeted byte, none of them erased any more (R48, R50, R51; log 6). -/
def scramble (cfg : Config) (clock a n : Nat) (fl : FlashCtl) : FlashCtl :=
  { fl with
    cells := fl.cells.store cfg a ((List.range n).map fun i => Config.freeFlashByte clock (a + i))
    erased := removeRange fl.erased a n }

/-- The effect of `FlashUnlock(r)` (R48); a failed unlock may leave the region protected, if it was (log 9). -/
def applyUnlock (clock : Nat) (success : Bool) (r : Word) (fl : FlashCtl) : FlashCtl :=
  { fl with
    locked := fl.locked.set r.toNat
      (if success then false else fl.locked.getD r.toNat false && Config.freeLockBit clock r.toNat) }

/-- The effect of `FlashErase(a)` (R49). -/
def applyErase (cfg : Config) (clock : Nat) (success : Bool) (a : Word) (fl : FlashCtl) : FlashCtl :=
  if success && !targetLocked cfg fl.locked a.toNat cfg.ebSize then
    { fl with
      cells := fl.cells.store cfg a.toNat (List.replicate cfg.ebSize erasedByte)
      erased := insertRange fl.erased a.toNat cfg.ebSize }
  else scramble cfg clock a.toNat cfg.ebSize fl

/-- The effect of `FlashPageWrite(a, d)` (R50). -/
def applyPageWrite (cfg : Config) (clock : Nat) (success : Bool) (a : Word) (d : List Byte) (fl : FlashCtl) : FlashCtl :=
  if success && !targetLocked cfg fl.locked a.toNat d.length && containsRange fl.erased a.toNat d.length then
    { fl with cells := fl.cells.store cfg a.toNat d, erased := removeRange fl.erased a.toNat d.length }
  else scramble cfg clock a.toNat d.length fl

/-- The flash controller completes the operation in flight: its effect at once, `fl_busy` back to 0 (R47). With none in
flight it has no such move (log 3). -/
def flashComplete (success : Bool) (status : Nat) (s : State) : State :=
  match s.fl.inFlight with
  | none => s
  | some op =>
    let fl := match op with
      | .unlock r => applyUnlock s.clock success r s.fl
      | .erase a => applyErase s.cfg s.clock success a s.fl
      | .pageWrite a d => applyPageWrite s.cfg s.clock success a d s.fl
    { s with fl := { fl with inFlight := none, status := status } }

/-! End of run and launch -/

/-- `SystemReset()` and `BankSwapRestart()` (70_reset_and_hazards.md R149): every volatile element and every byte still in
the link is lost, the status word too (60_exceptions.md R143; log 18); flash survives, and the bank, which a swap flips and
which moves no byte of the array (log 30); what was transmitted and how the run ended stay visible. The lock bits and the
timer's flag stay until the launch gives them (log 15), and the erased marks as long as the flash they describe (log 20). -/
def endRun (kind : EndKind) (s : State) : State :=
  { State.launchOf s.cfg with
    link := { rxQ := [], txDone := s.link.txDone, txPend := [] }
    tmoFlag := s.tmoFlag
    fl := { s.fl with
      bank := match kind with
        | .systemReset => s.fl.bank
        | .bankSwapRestart => !s.fl.bank
      status := 0 }
    ended := some kind
    sched := s.sched
    pollTmoFirst := s.pollTmoFirst
    clock := s.clock }

/-- The main loop starts again after a reset (R144, R145): the launch state, with the flash content and bank kept (logs 20
and 30) and no status word (log 18), the bytes the host sent since the reset in `rx_q`, and the given lock bits (protected
where the list gives none) and timer flag (log 15). -/
def launch (locked : List Bool) (tmo : Bool) (s : State) : State :=
  { State.launchOf s.cfg with
    link := { rxQ := s.link.rxQ, txDone := [], txPend := [] }
    tmoFlag := tmo
    fl := { s.fl with
      locked := (List.range s.cfg.regionCount).map fun r => locked.getD r true
      status := 0 }
    sched := s.sched
    pollTmoFirst := s.pollTmoFirst
    clock := s.clock }

end Sys2Proof.Machine
end

