-- ==== Sys2Proof/Machine/Responses.lean ====
section
/-! DEFINITION. The response rows: writing the single response byte to the link (30_encoding.md R66; log 21). -/

namespace Sys2Proof.Machine

/-- RSP_OK. -/
def execRspOk (s : State) : Result := .next (linkWrite rspOk s)

/-- RSP_ERROR. -/
def execRspError (s : State) : Result := .next (linkWrite rspError s)

/-- RSP_INVALID. -/
def execRspInvalid (s : State) : Result := .next (linkWrite rspInvalid s)

/-- RSP_CRC_OK. -/
def execRspCrcOk (s : State) : Result := .next (linkWrite rspCrcOk s)

/-- RSP_CRC_FAIL. -/
def execRspCrcFail (s : State) : Result := .next (linkWrite rspCrcFail s)

end Sys2Proof.Machine
end

