-- ==== Sys2Proof/Machine/Commands.lean ====
section
/-! DEFINITION. The dispatcher contracts (41_frame_commands.md). -/

namespace Sys2Proof.Machine

/-- UNLOCK (R95): the window is set or cleared, never left as it was. -/
def execUnlock (addr size : Word) (s : State) : Result :=
  let w := s.cfg.unlockAlign addr size
  if w.1 < w.2 ∧ w.2 ≤ s.cfg.flashLimit then
    .next (respond rspOk { s with ses.winBegin := BitVec.ofNat 32 w.1, ses.winEnd := BitVec.ofNat 32 w.2 })
  else .next (respond rspError { s with ses.winBegin := 0, ses.winEnd := 0 })

/-- DATA (R96): the size is tested before the window. -/
def execData (fSize addr : Word) (block : List Byte) (s : State) : Result :=
  let a := alignDown addr.toNat s.cfg.ebSize
  if fSize.toNat ≠ 4 + s.cfg.ebSize then .next (respond rspError s)
  else if s.ses.winBegin.toNat ≤ a ∧ a < s.ses.winEnd.toNat then
    (if s.ses.stagedReady then .fault .stagedOverwrite
     else
      .next (respond rspOk
        { s with ses.stagedAddr := BitVec.ofNat 32 a, ses.stagedData := block, ses.stagedReady := true }))
  else .next (respond rspError s)

/-- VERIFY (R97): read only. -/
def execVerify (crc : Word) (s : State) : Result :=
  .next (respond (if Config.hwCrc s.windowBytes = crc then rspCrcOk else rspCrcFail) s)

/-- RESET (R98); S_DISPATCH enters S_TXWAIT (42_flash_sequencer.md R108). -/
def execReset (s : State) : Result := .next (respond rspOk { s with fps.txAction := .systemReset })

/-- BKSWAP_RESET (R99). -/
def execBkswapReset (s : State) : Result := .next (respond rspOk { s with fps.txAction := .bankSwap })

/-- Any other command (R100). -/
def execUnknownCmd (_cmd : Byte) (s : State) : Result := .next (respond rspInvalid s)

/-- `Dispatch` (R92): the contract the latched command byte selects, its operands read from the payload buffer (R68). -/
def dispatch (s : State) : Result :=
  if s.rx.fCmd = cmdUnlock then execUnlock (s.payWord 0) (s.payWord 4) s
  else if s.rx.fCmd = cmdData then execData s.rx.fSize (s.payWord 0) s.payBlock s
  else if s.rx.fCmd = cmdVerify then execVerify (s.payWord 0) s
  else if s.rx.fCmd = cmdReset then execReset s
  else if s.rx.fCmd = cmdBkswapReset then execBkswapReset s
  else execUnknownCmd s.rx.fCmd s

end Sys2Proof.Machine
end

