-- ==== Sys2Proof/Machine/Header.lean ====
section
/-! DEFINITION. FRAME_HEADER: what a complete header does to the receiver (30_encoding.md R64, R70; 40_frame_receiver.md
R82, R83). -/

namespace Sys2Proof.Machine

/-- A matching guard latches size and command and enters the body, or completes a frame with no payload (R83). Any other
guard is answered with ERROR and the cursor starts again (R82). -/
def headerEffect (guard size : Word) (cmd : Byte) (s : State) : State :=
  if guard = s.cfg.guard then
    { s with
      rx.fSize := size
      rx.fCmd := cmd
      rx.cursor := 0
      rx.frameComplete := if size = 0 then true else s.rx.frameComplete
      rx.rxState := if size = 0 then s.rx.rxState else .awaitingBody }
  else linkWrite rspError { s with rx.cursor := 0 }

/-- FRAME_HEADER (log 21). -/
def execFrameHeader (guard size : Word) (cmd : Byte) (s : State) : Result := .next (headerEffect guard size cmd s)

end Sys2Proof.Machine
end

