-- ==== Sys2Proof/Machine/Receiver.lean ====
section
/-! DEFINITION. The Frame Receiver operations and the poll (40_frame_receiver.md). -/

namespace Sys2Proof.Machine

/-- FR_IDLE: nothing is written (R78). -/
def execFrIdle (s : State) : Result := if s.frEnabled .idle then .next s else .refused .notEnabled

/-- FR_TMO: back to header mode; `frame_complete` is not written (R79). -/
def execFrTmo (s : State) : Result :=
  if s.frEnabled .tmo then
    .next (timerRestart { s with rx.rxState := .awaitingHeader, rx.cursor := 0 })
  else .refused .notEnabled

/-- FR_DROP: the byte is consumed and discarded; the timer is not restarted (R80). -/
def execFrDrop (s : State) : Result := withByte .drop s fun _ t => t

/-- FR_HDR_BYTE, accumulate (R81). -/
def execFrHdrByteAcc (s : State) : Result :=
  withByte .hdrAcc s fun b t =>
    let u := storeHeader t.rx.cursor.toNat b (timerRestart t)
    { u with rx.cursor := u.rx.cursor + 1 }

/-- The ninth header byte is stored and the header takes effect (R82, R83). -/
def ninthByte (b : Byte) (t : State) : State :=
  let u := storeHeader 8 b (timerRestart t)
  headerEffect u.hdrGuard u.hdrSize u.hdrCmd u

/-- FR_HDR_BYTE, ninth byte, guard mismatch (R82). -/
def execFrHdrByteMismatch (s : State) : Result := withByte .hdrMismatch s ninthByte

/-- FR_HDR_BYTE, ninth byte, guard match (R83). -/
def execFrHdrByteMatch (s : State) : Result := withByte .hdrMatch s ninthByte

/-- FR_BODY_BYTE: stored while it fits, always counted; the last byte completes the frame (R84). -/
def execFrBodyByte (s : State) : Result :=
  withByte .body s fun b t =>
    let u := timerRestart t
    let v : State :=
      { u with
        rx.payBuf := if u.rx.cursor.toNat < u.cfg.maxPayload then u.rx.payBuf.set u.rx.cursor.toNat b else u.rx.payBuf
        rx.cursor := u.rx.cursor + 1 }
    if v.rx.cursor = v.rx.fSize then
      { v with rx.frameComplete := true, rx.rxState := .awaitingHeader, rx.cursor := 0 }
    else v

/-- Perform the selected operation. -/
def runFr (op : FrOp) (s : State) : Result :=
  match op with
  | .idle => execFrIdle s
  | .tmo => execFrTmo s
  | .drop => execFrDrop s
  | .hdrAcc => execFrHdrByteAcc s
  | .hdrMismatch => execFrHdrByteMismatch s
  | .hdrMatch => execFrHdrByteMatch s
  | .body => execFrBodyByte s

/-- `FR_poll()` (R76). -/
def frPoll (s : State) : Result := runFr (decodePoll s.pollWord) s

end Sys2Proof.Machine
end

