-- ==== Sys2Proof/Machine/Sequencer.lean ====
section
/-! DEFINITION. The Flash Programmer Sequencer states (42_flash_sequencer.md). -/

namespace Sys2Proof.Machine

/-- Enter a sequencer state. -/
def goto (q : SeqState) (s : State) : State := { s with fps.seqState := q }

/-- S_POLL (R107). -/
def execSPoll (s : State) : Result := andThen (frPoll s) (goto .dispatch)

/-- S_DISPATCH (R108). -/
def execSDispatch (s : State) : Result :=
  if s.rx.frameComplete then
    andThen (dispatch s)
      (goto (if s.rx.fCmd = cmdReset ∨ s.rx.fCmd = cmdBkswapReset then .txwait else .check))
  else .next (goto .check s)

/-- S_CHECK (R109). -/
def execSCheck (s : State) : Result :=
  if s.ses.stagedReady then
    let a := s.ses.stagedAddr.toNat
    if a < s.cfg.flashBase ∨ s.cfg.flashBase + s.cfg.flashLen < a + s.cfg.ebSize then .fault .outsideFlash
    else if a < s.cfg.flashBase + s.cfg.bootSize then .fault .selfOverwrite
    else
      .next (goto .unlock
        { s with
          fps.progAddr := s.ses.stagedAddr
          fps.rgn := BitVec.ofNat 32 ((a - s.cfg.flashBase) / s.cfg.regionSize)
          fps.rgnLast := BitVec.ofNat 32 ((a + s.cfg.ebSize - 1 - s.cfg.flashBase) / s.cfg.regionSize) })
  else .next (goto .poll s)

/-- S_UNLOCK (R110). -/
def execSUnlock (s : State) : Result :=
  if s.flBusy then frPoll s
  else
    let t := flashIssue (.unlock s.fps.rgn) s
    if s.fps.rgn = s.fps.rgnLast then .next (goto .erase t)
    else .next { t with fps.rgn := t.fps.rgn + 1 }

/-- S_ERASE (R111). -/
def execSErase (s : State) : Result :=
  if s.flBusy then frPoll s
  else .next (goto .page (flashIssue (.erase s.fps.progAddr) { s with fps.pg := 0 }))

/-- S_PAGE (R112). -/
def execSPage (s : State) : Result :=
  if s.flBusy then frPoll s
  else
    let t := flashIssue (.pageWrite s.pageAddr s.pageData) s
    let u : State := { t with fps.pg := t.fps.pg + 1 }
    if u.fps.pg.toNat = u.cfg.pagesPerBlock then .next (goto .final u) else .next u

/-- S_FINAL (R113). -/
def execSFinal (s : State) : Result :=
  if s.flBusy then frPoll s else .next (goto .poll { s with ses.stagedReady := false })

/-- S_TXWAIT (R116): no poll while waiting. -/
def execSTxwait (s : State) : Result :=
  if s.txComplete then
    match s.fps.txAction with
    | .systemReset => .next (endRun .systemReset s)
    | .bankSwap => .next (endRun .bankSwapRestart s)
  else .next s

end Sys2Proof.Machine
end

