-- ==== Sys2Proof/Machine/Dispatch.lean ====
section
/-! DEFINITION. One arm per row of the opcode table. -/

namespace Sys2Proof.Machine

def exec (i : Instr) (s : State) : Host.Outcome State Fault Refusal :=
  match i with
  -- wire frames
  | .frameHeader guard size cmd => Sys2Proof.Machine.execFrameHeader guard size cmd s
  | .unlock addr size => Sys2Proof.Machine.execUnlock addr size s
  | .data fSize addr block => Sys2Proof.Machine.execData fSize addr block s
  | .verify crc => Sys2Proof.Machine.execVerify crc s
  | .reset => Sys2Proof.Machine.execReset s
  | .bkswapReset => Sys2Proof.Machine.execBkswapReset s
  | .unknownCmd cmd => Sys2Proof.Machine.execUnknownCmd cmd s
  -- responses
  | .rspOk => Sys2Proof.Machine.execRspOk s
  | .rspError => Sys2Proof.Machine.execRspError s
  | .rspInvalid => Sys2Proof.Machine.execRspInvalid s
  | .rspCrcOk => Sys2Proof.Machine.execRspCrcOk s
  | .rspCrcFail => Sys2Proof.Machine.execRspCrcFail s
  -- Frame Receiver operations
  | .frIdle => Sys2Proof.Machine.execFrIdle s
  | .frTmo => Sys2Proof.Machine.execFrTmo s
  | .frDrop => Sys2Proof.Machine.execFrDrop s
  | .frHdrByteAcc => Sys2Proof.Machine.execFrHdrByteAcc s
  | .frHdrByteMismatch => Sys2Proof.Machine.execFrHdrByteMismatch s
  | .frHdrByteMatch => Sys2Proof.Machine.execFrHdrByteMatch s
  | .frBodyByte => Sys2Proof.Machine.execFrBodyByte s
  -- sequencer states
  | .sPoll => Sys2Proof.Machine.execSPoll s
  | .sDispatch => Sys2Proof.Machine.execSDispatch s
  | .sCheck => Sys2Proof.Machine.execSCheck s
  | .sUnlock => Sys2Proof.Machine.execSUnlock s
  | .sErase => Sys2Proof.Machine.execSErase s
  | .sPage => Sys2Proof.Machine.execSPage s
  | .sFinal => Sys2Proof.Machine.execSFinal s
  | .sTxwait => Sys2Proof.Machine.execSTxwait s

end Sys2Proof.Machine
end

