-- ==== Sys2Proof/Machine/Agents.lean ====
section
/-! DEFINITION. The moves of the agents outside the controller (00_scope.md R17, 60_exceptions.md R140), and whose move is
next. -/

namespace Sys2Proof.Machine

/-- The move to make: the oldest scheduled one, else the controller's (log 2). -/
def State.nextMove (s : State) : Move :=
  match s.sched with
  | [] => .controller s.pollTmoFirst
  | m :: _ => m

/-- A step begins: the move leaves the schedule and the step count advances. -/
def State.begin (s : State) : State := { s with sched := s.sched.tail, clock := s.clock + 1 }

/-- The transmitter sends the oldest byte not yet transmitted, if there is one (20_memory.md R52; log 19). -/
def transmit (s : State) : State :=
  match s.link.txPend with
  | [] => s
  | b :: q => { s with link.txDone := s.link.txDone ++ [b], link.txPend := q }

/-- An agent's move. One that is not enabled changes nothing (log 3): completing with no operation in flight, transmitting
with nothing written, launching while a run goes on or the flash controller is busy (70_reset_and_hazards.md R147). The
controller's own move is `controllerMove` of Step.lean. -/
def agentMove (m : Move) (s : State) : State :=
  match m with
  | .controller _ => s
  | .hostByte b => { s with link.rxQ := s.link.rxQ ++ [b] }
  | .timerExpire => { s with tmoFlag := true }
  | .flashDone success status => flashComplete success status s
  | .linkSent => transmit s
  | .launch locked tmo => if s.ended.isSome && !s.flBusy then launch locked tmo s else s

end Sys2Proof.Machine
end

