-- ==== Sys2Proof/Machine/Fetch.lean ====
section
/-! DEFINITION. What selects an instruction, and the states that select a given one next. The blocks fetch no program
(10_state.md R34): the control state selects the sequencer operation, the poll condition vector the receiver operation, the
latched command the contract (log 23). -/

namespace Sys2Proof.Machine

/-- The sequencer operation of the control state (30_encoding.md R72). -/
def State.seqInstr (s : State) : Instr := decodeSeq s.fps.seqState.code

/-- The controller is to move, in this sequencer state. -/
def State.at (q : SeqState) (s : State) : State :=
  { s with fps.seqState := q, ended := none, sched := [] }

/-- A completed frame awaits dispatch: its command, size and first payload bytes. -/
def State.withFrame (cmd : Byte) (size : Word) (payload : List Byte) (s : State) : State :=
  { s.at .dispatch with
    rx.rxState := .awaitingHeader
    rx.cursor := 0
    rx.fCmd := cmd
    rx.fSize := size
    rx.payBuf := (payload ++ s.rx.payBuf.drop payload.length).take s.cfg.maxPayload
    rx.frameComplete := true }

/-- The receiver is about to be polled under these conditions; a byte `b` is ready where `byte` is `some b`. -/
def State.withPoll (byte : Option Byte) (tmo frameComplete : Bool) (st : RxState) (cursor : Word) (s : State) : State :=
  { s.at .poll with
    link.rxQ := byte.toList
    tmoFlag := tmo
    rx.frameComplete := frameComplete
    rx.rxState := st
    rx.cursor := cursor }

/-- The receiver holds eight header bytes and the ninth is ready. -/
def State.withHeader (guard size : Word) (cmd : Byte) (s : State) : State :=
  let u := s.withPoll (some cmd) false false .awaitingHeader 8
  let bs := headerBytes s.cfg.fieldOrder guard size cmd
  { u with rx.hdrBuf := Vector.ofFn fun i : Fin 9 => bytesAt (bs.take 8 ++ [s.rx.hdrBuf[8]]) i }

/-- The state whose next step selects and runs the instruction. -/
def State.place (i : Instr) (s : State) : State :=
  let order := s.cfg.fieldOrder
  match i with
  | .frameHeader guard size cmd => s.withHeader guard size cmd
  | .unlock addr size => s.withFrame cmdUnlock 8 (ser32 order addr ++ ser32 order size)
  | .data fSize addr block => s.withFrame cmdData fSize (ser32 order addr ++ block)
  | .verify crc => s.withFrame cmdVerify 4 (ser32 order crc)
  | .reset => s.withFrame cmdReset 0 []
  | .bkswapReset => s.withFrame cmdBkswapReset 0 []
  | .unknownCmd cmd => s.withFrame cmd 0 []
  | .rspOk => s.withFrame cmdReset 0 []
  | .rspError => s.withFrame cmdUnlock 8 (ser32 order 0 ++ ser32 order 0)
  | .rspInvalid => s.withFrame 0 0 []
  | .rspCrcOk => s.withFrame cmdVerify 4 (ser32 order (Config.hwCrc s.windowBytes))
  | .rspCrcFail => s.withFrame cmdVerify 4 (ser32 order (Config.hwCrc s.windowBytes + 1))
  | .frIdle => s.withPoll none false s.rx.frameComplete s.rx.rxState s.rx.cursor
  | .frTmo => s.withPoll none true s.rx.frameComplete s.rx.rxState s.rx.cursor
  | .frDrop => s.withPoll (some 0) false true .awaitingHeader 0
  | .frHdrByteAcc => s.withPoll (some 0) false false .awaitingHeader 0
  | .frHdrByteMismatch => s.withHeader (s.cfg.guard + 1) 0 0
  | .frHdrByteMatch => s.withHeader s.cfg.guard 0 0
  | .frBodyByte => { s.withPoll (some 0) false false .awaitingBody 0 with rx.fSize := 1 }
  | .sPoll => s.at .poll
  | .sDispatch => s.at .dispatch
  | .sCheck => s.at .check
  | .sUnlock => s.at .unlock
  | .sErase => s.at .erase
  | .sPage => s.at .page
  | .sFinal => s.at .final
  | .sTxwait => s.at .txwait

end Sys2Proof.Machine
end

