-- ==== Sys2Proof/Machine/Step.lean ====
section
/-! DEFINITION. One step of the machine: one move of one agent (00_scope.md R16, R17). -/

namespace Sys2Proof.Machine

/-- The controller's move: one FPS step (42_flash_sequencer.md R105). After the end of a run it has none
(70_reset_and_hazards.md R149; log 15). -/
def controllerMove (s : State) : Host.Outcome State Fault Refusal :=
  match s.ended with
  | some _ => .next s
  | none => exec s.seqInstr s

/-- One step. A configuration that breaks R12 is refused for the whole run (60_exceptions.md R130). -/
def step (s : State) : Host.Outcome State Fault Refusal :=
  if s.cfg.valid then
    match s.nextMove with
    | .controller tmoFirst => controllerMove { s.begin with pollTmoFirst := tmoFirst }
    | .hostByte b => .next (agentMove (.hostByte b) s.begin)
    | .timerExpire => .next (agentMove .timerExpire s.begin)
    | .flashDone success status => .next (agentMove (.flashDone success status) s.begin)
    | .linkSent => .next (agentMove .linkSent s.begin)
    | .launch locked tmo => .next (agentMove (.launch locked tmo) s.begin)
  else .refused .badConfiguration

/-- The state whose next step selects and runs the table word's instruction (log 23); unchanged where the decoder reads
none. -/
def State.withFetchWord (s : State) (nbits w : Nat) : State :=
  match decodeTableWord nbits w with
  | some i => s.place i
  | none => s

end Sys2Proof.Machine
end

