-- ==== Sys2Proof/Safety.lean ====
section
/-! DEFINITION. What counts as a safe state, in the terms claims use: the invariants the spec states between steps, and the
progress of programming, the runs claims are about, and the fairness of infinite runs (60_exceptions.md R138). -/

namespace Sys2Proof.Machine

/-- The Frame Receiver's invariant: a pending frame waits in header mode with the cursor at 0 (10_state.md R26), and the cursor
stays within its phase (R23). -/
structure State.FrInv (s : State) : Prop where
  pending : s.rx.frameComplete = true → s.rx.rxState = .awaitingHeader ∧ s.rx.cursor = 0
  header : s.rx.rxState = .awaitingHeader → s.rx.cursor.toNat ≤ 8
  body : s.rx.rxState = .awaitingBody → s.rx.cursor.toNat < s.rx.fSize.toNat

/-- The unlock window's invariant (10_state.md R29). -/
structure State.WinInv (s : State) : Prop where
  shape : (s.ses.winBegin.toNat < s.ses.winEnd.toNat ∧ s.ses.winEnd.toNat ≤ s.cfg.flashLimit) ∨
    (s.ses.winBegin = 0 ∧ s.ses.winEnd = 0)
  beginAligned : s.ses.winBegin.toNat % s.cfg.ebSize = 0
  endAligned : s.ses.winEnd.toNat % s.cfg.ebSize = 0

/-- The buffers have the sizes of 10_state.md R24 and R30, and there is one lock bit per region (R33). -/
structure State.BufInv (s : State) : Prop where
  payBuf : s.rx.payBuf.length = s.cfg.maxPayload
  stagedData : s.ses.stagedData.length = s.cfg.ebSize
  locked : s.fl.locked.length = s.cfg.regionCount

/-- The flash array's representation is canonical: cells rising, none holding the erased byte, all of them in the array, erased
marks rising. -/
structure State.MemInv (s : State) : Prop where
  cells : s.fl.cells.wf = true
  inArray : ∀ c ∈ s.fl.cells, s.cfg.inArray c.1 = true
  erased : s.fl.erased.Pairwise (· < ·)

/-- The four programming states of 42_flash_sequencer.md R117. -/
def SeqState.programming : SeqState → Bool
  | .poll => false
  | .dispatch => false
  | .check => false
  | .unlock => true
  | .erase => true
  | .page => true
  | .final => true
  | .txwait => false

/-- The staged block lies in the flash array and not over the bootloader (R109). -/
def State.blockAllowed (s : State) : Prop :=
  s.cfg.flashBase + s.cfg.bootSize ≤ s.fps.progAddr.toNat ∧
    s.fps.progAddr.toNat + s.cfg.ebSize ≤ s.cfg.flashBase + s.cfg.flashLen

/-- The address lies in the block being programmed. -/
def State.inBlock (s : State) (a : Nat) : Prop :=
  s.fps.progAddr.toNat ≤ a ∧ a < s.fps.progAddr.toNat + s.cfg.ebSize

/-- The sequencer's invariant: a block is staged only from its dispatch to the end of its programming, so dispatch never
meets a pending block (R102, R117); the block being programmed is the staged one, aligned and allowed (R44, R109); the page
index stays below the page count until the last page is issued (R122); an operation is in flight only during programming
(R58), and targets the block. -/
structure State.SeqInv (s : State) : Prop where
  staged : s.ses.stagedReady = true → s.fps.seqState = .check ∨ s.fps.seqState.programming = true
  aligned : s.ses.stagedReady = true → s.ses.stagedAddr.toNat % s.cfg.ebSize = 0
  programming : s.fps.seqState.programming = true →
    s.ses.stagedReady = true ∧ s.fps.progAddr = s.ses.stagedAddr ∧ s.blockAllowed
  page : s.fps.seqState = .page → s.fps.pg.toNat < s.cfg.pagesPerBlock
  final : s.fps.seqState = .final → s.fps.pg.toNat = s.cfg.pagesPerBlock
  inFlight : ∀ op, s.fl.inFlight = some op → s.fps.seqState.programming = true ∧
    ∀ a, (op.target s.cfg).1 ≤ a → a < (op.target s.cfg).1 + (op.target s.cfg).2 → s.inBlock a

/-- All of them. -/
structure State.Inv (s : State) : Prop where
  fr : s.FrInv
  win : s.WinInv
  buf : s.BufInv
  mem : s.MemInv
  seq : s.SeqInv

/-! Progress of programming -/

/-- The region's lock bit is clear, or the unlock that clears it is in flight. -/
def State.regionOpened (s : State) (r : Nat) : Prop :=
  s.fl.locked.getD r false = false ∨ ∃ w : Word, s.fl.inFlight = some (.unlock w) ∧ w.toNat = r

/-- How far the staged block has come in the sequence of 42_flash_sequencer.md R118, while no operation has failed. Nothing is
said outside the programming states, so it holds again once they are left. -/
structure State.Progress (s : State) : Prop where
  /-- S_UNLOCK is between the block's first and last region (R114), and has opened those before `rgn`. -/
  unlocking : s.fps.seqState = .unlock →
    s.cfg.regionOf s.fps.progAddr.toNat ≤ s.fps.rgn.toNat ∧ s.fps.rgn.toNat ≤ s.fps.rgnLast.toNat ∧
    s.fps.rgnLast.toNat = s.cfg.regionOf (s.fps.progAddr.toNat + s.cfg.ebSize - 1) ∧
    ∀ r, s.cfg.regionOf s.fps.progAddr.toNat ≤ r → r < s.fps.rgn.toNat → s.regionOpened r
  /-- In S_ERASE every region of the block is opened. -/
  opened : s.fps.seqState = .erase → ∀ i < s.cfg.ebSize, s.regionOpened (s.cfg.regionOf (s.fps.progAddr.toNat + i))
  /-- From S_PAGE on every region of the block is unlocked. -/
  unlocked : s.fps.seqState = .page ∨ s.fps.seqState = .final →
    ∀ i < s.cfg.ebSize, s.fl.locked.getD (s.cfg.regionOf (s.fps.progAddr.toNat + i)) false = false
  /-- In S_PAGE the bytes of the pages from `pg` on are freshly erased, or the block's erase is in flight. -/
  erased : s.fps.seqState = .page → ∀ i, s.fps.pg.toNat * s.cfg.pageSize ≤ i → i < s.cfg.ebSize →
    s.fps.progAddr.toNat + i ∈ s.fl.erased ∨ s.fl.inFlight = some (.erase s.fps.progAddr)
  /-- From S_PAGE on the bytes of the pages below `pg` read as staged, but for a page in flight. -/
  programmed : s.fps.seqState = .page ∨ s.fps.seqState = .final →
    ∀ i < s.fps.pg.toNat * s.cfg.pageSize, s.inFlightAt (s.fps.progAddr.toNat + i) = false →
      some (s.flashByte (s.fps.progAddr.toNat + i)) = s.ses.stagedData[i]?
  /-- An unlock is in flight in S_UNLOCK and S_ERASE only. -/
  unlockInFlight : ∀ w, s.fl.inFlight = some (.unlock w) → s.fps.seqState = .unlock ∨ s.fps.seqState = .erase
  /-- An erase in flight is the block's, before its first page. -/
  eraseInFlight : ∀ w, s.fl.inFlight = some (.erase w) →
    s.fps.seqState = .page ∧ s.fps.pg = 0 ∧ w = s.fps.progAddr
  /-- A page write in flight is the last page issued, with its data, still freshly erased. -/
  writeInFlight : ∀ w d, s.fl.inFlight = some (.pageWrite w d) →
    (s.fps.seqState = .page ∨ s.fps.seqState = .final) ∧ ∃ p, s.fps.pg.toNat = p + 1 ∧
      w.toNat = s.fps.progAddr.toNat + p * s.cfg.pageSize ∧
      d = (s.ses.stagedData.drop (p * s.cfg.pageSize)).take s.cfg.pageSize ∧
      ∀ i < s.cfg.pageSize, w.toNat + i ∈ s.fl.erased

/-! Runs -/

/-- `n` polls of the Frame Receiver, one after the other (40_frame_receiver.md R76). -/
def pollRun : Nat → State → Result
  | 0, s => .next s
  | n + 1, s =>
    match frPoll s with
    | .next t => pollRun n t
    | .fault e => .fault e
    | .refused e => .refused e

/-- `n` steps of the machine. -/
def stepRun : Nat → State → Result
  | 0, s => .next s
  | n + 1, s =>
    match step s with
    | .next t => stepRun n t
    | .fault e => .fault e
    | .refused e => .refused e

/-- The schedule in which every flash operation succeeds and completes before the controller's next move, for `n` operations
(95_test_vectors.md S7). -/
def promptSchedule : Nat → List Move
  | 0 => []
  | n + 1 => .controller false :: .flashDone true 0 :: promptSchedule n

/-! Infinite runs, and the fairness the spec assumes of them (60_exceptions.md R138; log 26) -/

/-- The state with this move next. -/
def State.withMove (m : Move) (s : State) : State := { s with sched := [m] }

/-- An infinite run: the environment chooses each move (00_scope.md R17), and each step goes on. -/
def IsRun (moves : Nat → Move) (run : Nat → State) : Prop :=
  ∀ n, step ((run n).withMove (moves n)) = .next (run (n + 1))

/-- The controller moves again and again. -/
def ControllerRecurs (moves : Nat → Move) : Prop := ∀ n, ∃ m, n ≤ m ∧ ∃ f, moves m = .controller f

/-- R138(a): a run in which `fl_busy` stays 1 forever is excluded. -/
def FlashFair (run : Nat → State) : Prop := ∀ n, (run n).flBusy = true → ∃ m, n ≤ m ∧ (run m).flBusy = false

/-- The controller waits for the transmitter (42_flash_sequencer.md R116). -/
def State.txWaiting (s : State) : Bool := decide (s.fps.seqState = .txwait) && !s.txComplete

/-- R138(b): a run in which `tx_complete` stays 0 forever in S_TXWAIT is excluded. -/
def LinkFair (run : Nat → State) : Prop := ∀ n, (run n).txWaiting = true → ∃ m, n ≤ m ∧ (run m).txWaiting = false

end Sys2Proof.Machine
end

