-- ==== Sys2Proof/Certificates/Slice0/Obligations.lean ====
section
/-! DEFINITION. The statements for the provers. Each formalises the rules of spec/ its docstring cites; results are written as
whole next states, so that everything not named is unchanged. -/

open Sys2Proof Sys2Proof.Machine

/-! ## Encodings -/

/-- 30_encoding.md R64 to R68, R71 to R73: the code of every well-formed instruction decodes to it, for every operand, byte order
and configuration, whatever the draws are. -/
def Obligations.DecodeOfEncode : Prop :=
  ∀ (cfg : Config) (draw : Nat → Byte) (i : Instr), i.wf cfg = true → decode cfg draw (encode cfg i) = .ok i

/-- 30_encoding.md R74: the four example encodings under the test configuration, both ways. -/
def Obligations.ExampleFramesEncodeAndDecode : Prop :=
  ∀ (draw : Nat → Byte) (block : List Byte), block.length = 16 →
    let reset : Code := .frame [0x44, 0x33, 0x22, 0x11, 0, 0, 0, 0, 0xA3]
    let verify : Code := .frame [0x44, 0x33, 0x22, 0x11, 4, 0, 0, 0, 0xA2, 0xEF, 0xBE, 0xAD, 0xDE]
    let unlock : Code := .frame [0x44, 0x33, 0x22, 0x11, 8, 0, 0, 0, 0xA0, 0x20, 0, 0, 0, 0x10, 0, 0, 0]
    let data : Code := .frame ([0x44, 0x33, 0x22, 0x11, 0x14, 0, 0, 0, 0xA1, 0x20, 0, 0, 0] ++ block)
    (encode Config.test .reset = reset ∧ decode Config.test draw reset = .ok .reset) ∧
    (encode Config.test (.verify 0xDEADBEEF) = verify ∧ decode Config.test draw verify = .ok (.verify 0xDEADBEEF)) ∧
    (encode Config.test (.unlock 0x20 0x10) = unlock ∧ decode Config.test draw unlock = .ok (.unlock 0x20 0x10)) ∧
    (encode Config.test (.data 20 0x20 block) = data ∧ decode Config.test draw data = .ok (.data 20 0x20 block))

/-- 30_encoding.md R71, 40_frame_receiver.md R76 and R85: a poll takes an operation whose row matches, and each matching operation is
taken under some choice. Of a state of the receiver's invariant: the operations its poll can take, the race choice being open, are
exactly those that R76 admits there, so where a byte and a timeout are both visible both are. (That `pollTmoFirst` holds the choice is
log 4.) -/
def Obligations.PollTakesAnyAdmittedRow : Prop :=
  (∀ w : PollWord, w.admits (decodePoll w) = true) ∧
  (∀ (w : PollWord) (op : FrOp), w.admits op = true → ∃ f, decodePoll { w with tmoFirst := f } = op) ∧
  ∀ s : State, s.FrInv →
    let mayTake := fun op => ∃ f, decodePoll { s with pollTmoFirst := f }.pollWord = op
    let headerByte := s.link.rxQ ≠ [] ∧ s.rx.frameComplete = false ∧ s.rx.rxState = .awaitingHeader
    let guard := asm32 s.cfg.fieldOrder s.rx.hdrBuf[0] s.rx.hdrBuf[1] s.rx.hdrBuf[2] s.rx.hdrBuf[3]
    (mayTake .idle ↔ s.link.rxQ = [] ∧ s.tmoFlag = false) ∧
    (mayTake .tmo ↔ s.tmoFlag = true) ∧
    (mayTake .drop ↔ s.link.rxQ ≠ [] ∧ s.rx.frameComplete = true) ∧
    (mayTake .hdrAcc ↔ headerByte ∧ s.rx.cursor.toNat ≤ 7) ∧
    (mayTake .hdrMismatch ↔ headerByte ∧ s.rx.cursor.toNat = 8 ∧ guard ≠ s.cfg.guard) ∧
    (mayTake .hdrMatch ↔ headerByte ∧ s.rx.cursor.toNat = 8 ∧ guard = s.cfg.guard) ∧
    (mayTake .body ↔ s.link.rxQ ≠ [] ∧ s.rx.frameComplete = false ∧ s.rx.rxState = .awaitingBody)

/-- 30_encoding.md R67: the command byte selects the contract by exact equality. -/
def Obligations.CommandByteSelectsContract : Prop :=
  ∀ (cfg : Config) (c : Byte) (z : Word) (pay : Nat → Byte),
    (c = 0xA0 → ∃ a n, decodeCmd cfg c z pay = .unlock a n) ∧
    (c = 0xA1 → ∃ a b, decodeCmd cfg c z pay = .data z a b) ∧
    (c = 0xA2 → ∃ v, decodeCmd cfg c z pay = .verify v) ∧
    (c = 0xA3 → decodeCmd cfg c z pay = .reset) ∧
    (c = 0xA4 → decodeCmd cfg c z pay = .bkswapReset) ∧
    (c ≠ 0xA0 → c ≠ 0xA1 → c ≠ 0xA2 → c ≠ 0xA3 → c ≠ 0xA4 → decodeCmd cfg c z pay = .unknownCmd c)

/-! ## What a step runs -/

/-- 30_encoding.md R72, 42_flash_sequencer.md R105: when the controller is to move in a run, a step is `exec` of the operation that
`seq_state` selects; the code and the operation of each of the eight states, none reserved. What the step does around `exec` is the
model's: the move leaves the schedule (log 2), settles the race choice (log 4), and the step count advances (log 5). -/
def Obligations.StepRunsSelectedInstruction : Prop :=
  (∀ (s : State) (f : Bool), s.cfg.valid = true → s.ended = none → s.nextMove = .controller f →
    step s = exec (decodeSeq s.fps.seqState.code)
      { s with sched := s.sched.tail, clock := s.clock + 1, pollTmoFirst := f }) ∧
  (SeqState.code .poll = 0 ∧ decodeSeq 0 = .sPoll) ∧ (SeqState.code .dispatch = 1 ∧ decodeSeq 1 = .sDispatch) ∧
  (SeqState.code .check = 2 ∧ decodeSeq 2 = .sCheck) ∧ (SeqState.code .unlock = 3 ∧ decodeSeq 3 = .sUnlock) ∧
  (SeqState.code .erase = 4 ∧ decodeSeq 4 = .sErase) ∧ (SeqState.code .page = 5 ∧ decodeSeq 5 = .sPage) ∧
  (SeqState.code .final = 6 ∧ decodeSeq 6 = .sFinal) ∧ (SeqState.code .txwait = 7 ∧ decodeSeq 7 = .sTxwait)

/-- 42_flash_sequencer.md R107: S_POLL performs the one selected receiver operation and enters S_DISPATCH. -/
def Obligations.PollRunsSelectedOperation : Prop :=
  ∀ (s t : State), exec (decodePoll s.pollWord).instr s = .next t →
    exec .sPoll s = .next { t with fps.seqState := .dispatch }

/-- 42_flash_sequencer.md R108: S_DISPATCH performs the selected contract on a completed frame and enters S_TXWAIT after the two
reset commands, else S_CHECK; with no completed frame it only enters S_CHECK. -/
def Obligations.DispatchRunsSelectedContract : Prop :=
  ∀ (s : State),
    (s.rx.frameComplete = false → exec .sDispatch s = .next { s with fps.seqState := .check }) ∧
    (s.rx.frameComplete = true →
      (∀ t, exec (decodeCmd s.cfg s.rx.fCmd s.rx.fSize s.payByte) s = .next t →
        exec .sDispatch s = .next
          { t with fps.seqState := if s.rx.fCmd = 0xA3 ∨ s.rx.fCmd = 0xA4 then .txwait else .check }) ∧
      ∀ e, exec (decodeCmd s.cfg s.rx.fCmd s.rx.fSize s.payByte) s = .fault e → exec .sDispatch s = .fault e)

/-- 60_exceptions.md R140, 20_memory.md R52, 10_state.md R31 and R32: the moves of the host, the timer and the transmitter. -/
def Obligations.AgentMovesTakeEffect : Prop :=
  ∀ (s : State), s.cfg.valid = true →
    (∀ b, s.nextMove = .hostByte b → step s = .next
      { s with sched := s.sched.tail, clock := s.clock + 1, link.rxQ := s.link.rxQ ++ [b] }) ∧
    (s.nextMove = .timerExpire → step s = .next
      { s with sched := s.sched.tail, clock := s.clock + 1, tmoFlag := true }) ∧
    (∀ b q, s.nextMove = .linkSent → s.link.txPend = b :: q → step s = .next
      { s with sched := s.sched.tail, clock := s.clock + 1, link.txDone := s.link.txDone ++ [b], link.txPend := q })

/-- 60_exceptions.md R130, 70_reset_and_hazards.md R148: a configuration that breaks 00_scope.md R12 is refused, and no step
changes the configuration, so it is refused for the whole run. (That the refusal is made at every step is the model's, log 17.) -/
def Obligations.InvalidConfigurationRefused : Prop :=
  (∀ s : State,
    ¬((1 ≤ s.cfg.pageSize ∧ 1 ≤ s.cfg.ebSize ∧ s.cfg.ebSize % s.cfg.pageSize = 0) ∧
      (1 ≤ s.cfg.regionSize ∧ (s.cfg.regionSize % s.cfg.ebSize = 0 ∨ s.cfg.ebSize % s.cfg.regionSize = 0)) ∧
      (s.cfg.flashLimit % s.cfg.ebSize = 0 ∧ s.cfg.flashLimit + s.cfg.ebSize ≤ 2 ^ 32 ∧
        s.cfg.flashBase % s.cfg.ebSize = 0 ∧ s.cfg.flashBase + s.cfg.flashLen ≤ 2 ^ 32) ∧
      4 + s.cfg.ebSize ≤ 2 ^ 32 - 1) →
    step s = .refused .badConfiguration) ∧
  ∀ s t : State, step s = .next t → t.cfg = s.cfg

/-! ## Frame Receiver -/

/-- 40_frame_receiver.md R78. -/
def Obligations.IdlePollChangesNothing : Prop :=
  ∀ (s : State), s.link.rxQ = [] → s.tmoFlag = false → exec .frIdle s = .next s

/-- 40_frame_receiver.md R79: `frame_complete`, the buffers and the latched fields are not written, however much of a frame was
collected. -/
def Obligations.TimeoutResynchronises : Prop :=
  ∀ (s : State), s.tmoFlag = true →
    exec .frTmo s = .next { s with rx.rxState := .awaitingHeader, rx.cursor := 0, tmoFlag := false }

/-- 40_frame_receiver.md R80: the byte is consumed and nothing else changes; the timer is not restarted. -/
def Obligations.PendingFrameDropsByte : Prop :=
  ∀ (s : State) (b : Byte) (q : List Byte), s.link.rxQ = b :: q → s.rx.frameComplete = true →
    exec .frDrop s = .next { s with link.rxQ := q }

/-- 40_frame_receiver.md R81. -/
def Obligations.HeaderByteAccumulates : Prop :=
  ∀ (s : State) (b : Byte) (q : List Byte), s.link.rxQ = b :: q → s.rx.frameComplete = false →
    s.rx.rxState = .awaitingHeader → s.rx.cursor.toNat ≤ 7 →
    exec .frHdrByteAcc s = .next
        { s with
          link.rxQ := q
          tmoFlag := false
          rx.hdrBuf := s.rx.hdrBuf.setIfInBounds s.rx.cursor.toNat b
          rx.cursor := s.rx.cursor + 1 } ∧
      1 ≤ (s.rx.cursor + 1).toNat ∧ (s.rx.cursor + 1).toNat ≤ 8 ∧
      (s.rx.hdrBuf.setIfInBounds s.rx.cursor.toNat b)[s.rx.cursor.toNat]? = some b

/-- 40_frame_receiver.md R82: ERROR is written, the cursor starts again, size and command are not latched. -/
def Obligations.NinthByteMismatchAnswersError : Prop :=
  ∀ (s : State) (b : Byte) (q : List Byte), s.link.rxQ = b :: q → s.rx.frameComplete = false →
    s.rx.rxState = .awaitingHeader → s.rx.cursor = 8 →
    let h := s.rx.hdrBuf.setIfInBounds 8 b
    asm32 s.cfg.fieldOrder h[0] h[1] h[2] h[3] ≠ s.cfg.guard →
    exec .frHdrByteMismatch s = .next
      { s with
        link.rxQ := q
        link.txPend := s.link.txPend ++ [0x51]
        tmoFlag := false
        rx.hdrBuf := h
        rx.cursor := 0 }

/-- 40_frame_receiver.md R83: size and command are latched; no payload completes the frame at once, else the body begins. -/
def Obligations.NinthByteMatchLatchesHeader : Prop :=
  ∀ (s : State) (b : Byte) (q : List Byte), s.link.rxQ = b :: q → s.rx.frameComplete = false →
    s.rx.rxState = .awaitingHeader → s.rx.cursor = 8 →
    let h := s.rx.hdrBuf.setIfInBounds 8 b
    let size := asm32 s.cfg.fieldOrder h[4] h[5] h[6] h[7]
    asm32 s.cfg.fieldOrder h[0] h[1] h[2] h[3] = s.cfg.guard →
    (size = 0 → exec .frHdrByteMatch s = .next
      { s with
        link.rxQ := q
        tmoFlag := false
        rx.hdrBuf := h
        rx.fSize := size
        rx.fCmd := b
        rx.cursor := 0
        rx.frameComplete := true }) ∧
    (size ≠ 0 → exec .frHdrByteMatch s = .next
      { s with
        link.rxQ := q
        tmoFlag := false
        rx.hdrBuf := h
        rx.fSize := size
        rx.fCmd := b
        rx.cursor := 0
        rx.rxState := .awaitingBody })

/-- 40_frame_receiver.md R84: stored while it fits the payload buffer, counted always; the last byte completes the frame. -/
def Obligations.BodyByteStoredAndCounted : Prop :=
  ∀ (s : State) (b : Byte) (q : List Byte), s.link.rxQ = b :: q → s.rx.frameComplete = false →
    s.rx.rxState = .awaitingBody → s.rx.cursor.toNat < s.rx.fSize.toNat →
    let buf := if s.rx.cursor.toNat < 4 + s.cfg.ebSize then s.rx.payBuf.set s.rx.cursor.toNat b else s.rx.payBuf
    (s.rx.cursor.toNat + 1 < s.rx.fSize.toNat → exec .frBodyByte s = .next
      { s with link.rxQ := q, tmoFlag := false, rx.payBuf := buf, rx.cursor := s.rx.cursor + 1 }) ∧
    (s.rx.cursor.toNat + 1 = s.rx.fSize.toNat → exec .frBodyByte s = .next
      { s with
        link.rxQ := q
        tmoFlag := false
        rx.payBuf := buf
        rx.cursor := 0
        rx.rxState := .awaitingHeader
        rx.frameComplete := true })

/-- 30_encoding.md R64 and R70: what a complete header does, by its guard and size. (That the row's meaning is this effect is the
model's, log 21.) -/
def Obligations.HeaderTakesEffect : Prop :=
  ∀ (s : State) (g z : Word) (c : Byte),
    (g ≠ s.cfg.guard → exec (.frameHeader g z c) s = .next
      { s with rx.cursor := 0, link.txPend := s.link.txPend ++ [0x51] }) ∧
    (g = s.cfg.guard → z = 0 → exec (.frameHeader g z c) s = .next
      { s with rx.cursor := 0, rx.fSize := z, rx.fCmd := c, rx.frameComplete := true }) ∧
    (g = s.cfg.guard → z ≠ 0 → exec (.frameHeader g z c) s = .next
      { s with rx.cursor := 0, rx.fSize := z, rx.fCmd := c, rx.rxState := .awaitingBody })

/-- The model's choice (log 16), from 40_frame_receiver.md R76 and 60_exceptions.md R136: each receiver operation answers a next
state exactly where its own condition holds, and is refused by name elsewhere. -/
def Obligations.ReceiverOperationNeedsItsCondition : Prop :=
  ∀ (op : FrOp) (s : State),
    (s.frEnabled op = true → ∃ t, exec op.instr s = .next t) ∧
    (s.frEnabled op = false → exec op.instr s = .refused .notEnabled)

/-- 40_frame_receiver.md R90: whatever operation runs, the receiver writes no window, staged block, flash or sequencer state; the one
thing it writes to the link is a single ERROR, and only on a guard mismatch. -/
def Obligations.ReceiverWritesOnlyItsOwnState : Prop :=
  ∀ (op : FrOp) (s t : State), exec op.instr s = .next t →
    t.cfg = s.cfg ∧ t.fps = s.fps ∧ t.ses = s.ses ∧ t.fl = s.fl ∧ t.ended = s.ended ∧ t.sched = s.sched ∧
    t.pollTmoFirst = s.pollTmoFirst ∧ t.clock = s.clock ∧ t.link.txDone = s.link.txDone ∧
    (∀ a, t.flashByte a = s.flashByte a) ∧
    (op = .hdrMismatch → t.link.txPend = s.link.txPend ++ [0x51]) ∧
    (op ≠ .hdrMismatch → t.link.txPend = s.link.txPend)

/-- 40_frame_receiver.md R89: while a frame waits, no receiver operation changes the frame. -/
def Obligations.PendingFrameIsNotTouched : Prop :=
  ∀ (op : FrOp) (s t : State), s.FrInv → s.rx.frameComplete = true → exec op.instr s = .next t → t.rx = s.rx

/-- 40_frame_receiver.md R91: a frame sent whole to an idle receiver, with no timeout, is received whole: after one poll a byte it
awaits dispatch with its command, its size and its first `MAX_PAYLOAD` payload bytes. -/
def Obligations.WholeFrameIsReceived : Prop :=
  ∀ (s : State) (c : Byte) (p rest : List Byte),
    s.rx.rxState = .awaitingHeader → s.rx.cursor = 0 → s.rx.frameComplete = false → s.tmoFlag = false →
    s.rx.payBuf.length = s.cfg.maxPayload → p.length < 2 ^ 32 →
    s.link.rxQ = frameBytes s.cfg c p ++ rest →
    ∃ t, pollRun (9 + p.length) s = .next t ∧ t.rx.frameComplete = true ∧ t.rx.rxState = .awaitingHeader ∧
      t.rx.cursor = 0 ∧ t.rx.fCmd = c ∧ t.rx.fSize.toNat = p.length ∧
      (∀ i, i < p.length → i < s.cfg.maxPayload → t.rx.payBuf[i]? = p[i]?) ∧
      (∀ i, p.length ≤ i → t.rx.payBuf[i]? = s.rx.payBuf[i]?) ∧
      t.link.rxQ = rest ∧ t.link.txPend = s.link.txPend ∧ t.ses = s.ses ∧ t.fps = s.fps ∧ t.fl = s.fl

/-- 40_frame_receiver.md R82, R87, R88: nine bytes with a foreign guard never raise `frame_complete`; they are discarded as a unit with
one ERROR, and the next byte is byte 0 of a new header. -/
def Obligations.BadHeaderIsDiscardedWhole : Prop :=
  ∀ (s : State) (g z : Word) (c : Byte) (rest : List Byte),
    s.rx.rxState = .awaitingHeader → s.rx.cursor = 0 → s.rx.frameComplete = false → s.tmoFlag = false →
    g ≠ s.cfg.guard → s.link.rxQ = headerBytes s.cfg.fieldOrder g z c ++ rest →
    ∃ t, pollRun 9 s = .next t ∧ t.rx.frameComplete = false ∧ t.rx.rxState = .awaitingHeader ∧ t.rx.cursor = 0 ∧
      t.rx.fSize = s.rx.fSize ∧ t.rx.fCmd = s.rx.fCmd ∧ t.rx.payBuf = s.rx.payBuf ∧ t.link.rxQ = rest ∧
      t.link.txPend = s.link.txPend ++ [0x51] ∧ t.ses = s.ses ∧ t.fps = s.fps ∧ t.fl = s.fl

/-! ## Dispatcher contracts -/

/-- 41_frame_commands.md R94, R95, R103: the window is set to the aligned request, with no wrap, or cleared. -/
def Obligations.UnlockSetsOrClearsTheWindow : Prop :=
  ∀ (s : State) (addr size : Word), s.cfg.valid = true →
    let b := addr.toNat - addr.toNat % s.cfg.ebSize
    let e := b + (size.toNat - size.toNat % s.cfg.ebSize)
    (b < e → e ≤ s.cfg.flashLimit → ∃ wb we : Word, wb.toNat = b ∧ we.toNat = e ∧
      exec (.unlock addr size) s = .next
        { s with
          ses.winBegin := wb
          ses.winEnd := we
          link.txPend := s.link.txPend ++ [0x50]
          rx.frameComplete := false }) ∧
    (¬(b < e ∧ e ≤ s.cfg.flashLimit) →
      exec (.unlock addr size) s = .next
        { s with
          ses.winBegin := 0
          ses.winEnd := 0
          link.txPend := s.link.txPend ++ [0x51]
          rx.frameComplete := false })

/-- 41_frame_commands.md R96: the size is tested first, then the window; an accepted block is staged at the aligned address; an
accepted block that meets a pending one is the model fault. -/
def Obligations.DataStagesOrRejects : Prop :=
  ∀ (s : State) (z addr : Word) (block : List Byte),
    let a := addr.toNat - addr.toNat % s.cfg.ebSize
    let rejected := exec (.data z addr block) s = .next
      { s with link.txPend := s.link.txPend ++ [0x51], rx.frameComplete := false }
    (z.toNat ≠ 4 + s.cfg.ebSize → rejected) ∧
    (z.toNat = 4 + s.cfg.ebSize → ¬(s.ses.winBegin.toNat ≤ a ∧ a < s.ses.winEnd.toNat) → rejected) ∧
    (z.toNat = 4 + s.cfg.ebSize → s.ses.winBegin.toNat ≤ a → a < s.ses.winEnd.toNat → s.ses.stagedReady = true →
      exec (.data z addr block) s = .fault .stagedOverwrite) ∧
    (z.toNat = 4 + s.cfg.ebSize → s.ses.winBegin.toNat ≤ a → a < s.ses.winEnd.toNat → s.ses.stagedReady = false →
      ∃ w : Word, w.toNat = a ∧ exec (.data z addr block) s = .next
        { s with
          ses.stagedAddr := w
          ses.stagedData := block
          ses.stagedReady := true
          link.txPend := s.link.txPend ++ [0x50]
          rx.frameComplete := false })

/-- 41_frame_commands.md R97 and R104(c): the answer is the comparison with the CRC of the window's live flash; nothing else changes;
a second VERIFY in the state it leaves gives the same answer. For a window that reaches outside the array the answer, and that
the second agrees, is the model's choice (log 8); so is that a byte in flight, which no dispatch meets, reads alike in both, no step
lying between them (log 7). -/
def Obligations.VerifyComparesWindowCrc : Prop :=
  ∀ (s : State) (crc : Word),
    let w := (List.range (s.ses.winEnd.toNat - s.ses.winBegin.toNat)).map fun i =>
      s.flashByte (s.ses.winBegin.toNat + i)
    let r : Byte := if Config.hwCrc w = crc then 0x53 else 0x54
    let t : State := { s with link.txPend := s.link.txPend ++ [r], rx.frameComplete := false }
    exec (.verify crc) s = .next t ∧
      exec (.verify crc) t = .next { t with link.txPend := t.link.txPend ++ [r] }

/-- 41_frame_commands.md R98 and R99: OK is written and the end-of-run action chosen, whatever the payload; dispatched, they enter
S_TXWAIT (42_flash_sequencer.md R108). -/
def Obligations.ResetCommandsChooseTheAction : Prop :=
  ∀ (s : State),
    (exec .reset s = .next
      { s with fps.txAction := .systemReset, link.txPend := s.link.txPend ++ [0x50], rx.frameComplete := false } ∧
    exec .bkswapReset s = .next
      { s with fps.txAction := .bankSwap, link.txPend := s.link.txPend ++ [0x50], rx.frameComplete := false }) ∧
    (s.rx.frameComplete = true → s.rx.fCmd = 0xA3 → exec .sDispatch s = .next
      { s with
        fps.txAction := .systemReset
        fps.seqState := .txwait
        link.txPend := s.link.txPend ++ [0x50]
        rx.frameComplete := false }) ∧
    (s.rx.frameComplete = true → s.rx.fCmd = 0xA4 → exec .sDispatch s = .next
      { s with
        fps.txAction := .bankSwap
        fps.seqState := .txwait
        link.txPend := s.link.txPend ++ [0x50]
        rx.frameComplete := false })

/-- 41_frame_commands.md R100. -/
def Obligations.UnknownCommandAnswersInvalid : Prop :=
  ∀ (s : State) (c : Byte), exec (.unknownCmd c) s = .next
    { s with link.txPend := s.link.txPend ++ [0x52], rx.frameComplete := false }

/-- 41_frame_commands.md R92 and R93: every dispatch clears `frame_complete`, writes exactly one response byte, and leaves the rest
of the receiver, the received bytes, the timer and the flash controller alone. -/
def Obligations.EveryDispatchAnswersOnce : Prop :=
  ∀ (s t : State), s.rx.frameComplete = true → exec .sDispatch s = .next t →
    t.rx = { s.rx with frameComplete := false } ∧
    (∃ r ∈ [0x50, 0x51, 0x52, 0x53, 0x54], t.link.txPend = s.link.txPend ++ [r]) ∧
    t.link.txDone = s.link.txDone ∧ t.link.rxQ = s.link.rxQ ∧ t.tmoFlag = s.tmoFlag ∧ t.fl = s.fl ∧
    (∀ a, t.flashByte a = s.flashByte a)

/-- 41_frame_commands.md R101, 20_memory.md R47: a payload byte the current frame did not store is a free value of this step, and so is
a flash byte an operation in flight targets; a stored payload byte and a settled flash byte read as they stand. The model's choices:
the free values are functions of the step count and the index or address (logs 5 and 7); a region unlock in flight targets no byte, so
every byte is settled then (log 7); and what a read outside the array sees (log 8). -/
def Obligations.OpenBytesAreFree : Prop :=
  ∀ (s : State), s.rx.payBuf.length = s.cfg.maxPayload →
    (∀ i, min s.rx.fSize.toNat (4 + s.cfg.ebSize) ≤ i → s.payByte i = Config.freePayloadByte s.clock i) ∧
    (∀ i, i < min s.rx.fSize.toNat (4 + s.cfg.ebSize) → some (s.payByte i) = s.rx.payBuf[i]?) ∧
    (∀ a, s.cfg.inArray a = true → s.inFlightAt a = true → s.flashByte a = Config.inFlightByte s.clock a) ∧
    (∀ a, s.cfg.inArray a = true → s.inFlightAt a = false → s.flashByte a = s.fl.cells.read a) ∧
    (∀ a, s.cfg.inArray a = false → s.flashByte a = Config.unmappedByte a)

/-! ## Responses -/

/-- 30_encoding.md R66, 20_memory.md R52: each response row appends its one byte to the transmit stream, and transmission is not
complete then. (That a row's meaning is its LinkWrite is the model's, log 21.) -/
def Obligations.ResponseRowsWriteTheirByte : Prop :=
  ∀ (s : State),
    exec .rspOk s = .next { s with link.txPend := s.link.txPend ++ [0x50] } ∧
    exec .rspError s = .next { s with link.txPend := s.link.txPend ++ [0x51] } ∧
    exec .rspInvalid s = .next { s with link.txPend := s.link.txPend ++ [0x52] } ∧
    exec .rspCrcOk s = .next { s with link.txPend := s.link.txPend ++ [0x53] } ∧
    exec .rspCrcFail s = .next { s with link.txPend := s.link.txPend ++ [0x54] } ∧
    ∀ r : Byte, State.txComplete { s with link.txPend := s.link.txPend ++ [r] } = false

/-! ## Flash Programmer Sequencer -/

/-- 42_flash_sequencer.md R106 and R115: in a programming state that reads busy the step is one poll of the receiver; nothing is
issued, the state stays. -/
def Obligations.BusyProgrammingStateYields : Prop :=
  ∀ (i : Instr) (s : State), i = .sUnlock ∨ i = .sErase ∨ i = .sPage ∨ i = .sFinal → s.fl.inFlight.isSome = true →
    exec i s = exec (decodePoll s.pollWord).instr s ∧
    ∀ t, exec i s = .next t → t.fps = s.fps ∧ t.ses = s.ses ∧ t.fl = s.fl ∧ ∀ a, t.flashByte a = s.flashByte a

/-- 42_flash_sequencer.md R107, R108, R115, with the receiver's invariant (10_state.md R23) and no pending block (41_frame_commands.md
R102): polling, yielding and dispatching always go on. -/
def Obligations.PollYieldAndDispatchComplete : Prop :=
  ∀ (s : State), s.FrInv →
    (∃ t, exec .sPoll s = .next t ∧ t.fps = { s.fps with seqState := .dispatch }) ∧
    (∀ i : Instr, i = .sUnlock ∨ i = .sErase ∨ i = .sPage ∨ i = .sFinal → s.fl.inFlight.isSome = true →
      ∃ t, exec i s = .next t) ∧
    (s.ses.stagedReady = false → ∃ t, exec .sDispatch s = .next t)

/-- 42_flash_sequencer.md R109: with no staged block back to S_POLL; a block outside the array or over the bootloader is a model fault;
else the address and the regions are latched and programming begins. -/
def Obligations.CheckStartsProgramming : Prop :=
  ∀ (s : State), s.cfg.valid = true →
    let a := s.ses.stagedAddr.toNat
    let outside := a < s.cfg.flashBase ∨ a + s.cfg.ebSize > s.cfg.flashBase + s.cfg.flashLen
    (s.ses.stagedReady = false → exec .sCheck s = .next { s with fps.seqState := .poll }) ∧
    (s.ses.stagedReady = true → outside → exec .sCheck s = .fault .outsideFlash) ∧
    (s.ses.stagedReady = true → ¬outside → a < s.cfg.flashBase + s.cfg.bootSize →
      exec .sCheck s = .fault .selfOverwrite) ∧
    (s.ses.stagedReady = true → ¬outside → ¬a < s.cfg.flashBase + s.cfg.bootSize →
      ∃ r rl : Word, r.toNat = (a - s.cfg.flashBase) / s.cfg.regionSize ∧
        rl.toNat = (a + s.cfg.ebSize - 1 - s.cfg.flashBase) / s.cfg.regionSize ∧
        exec .sCheck s = .next
          { s with
            fps.progAddr := s.ses.stagedAddr
            fps.rgn := r
            fps.rgnLast := rl
            fps.seqState := .unlock })

/-- 42_flash_sequencer.md R110: a yield while busy; else the region's unlock is issued and the next region or S_ERASE follows. That no
byte reads differently while an unlock is in flight is the model's choice (log 7). -/
def Obligations.UnlockIssuesNextRegion : Prop :=
  ∀ (s : State),
    (s.fl.inFlight.isSome = true → exec .sUnlock s = exec (decodePoll s.pollWord).instr s) ∧
    (s.fl.inFlight = none →
      (s.fps.rgn = s.fps.rgnLast → exec .sUnlock s = .next
        { s with fl.inFlight := some (.unlock s.fps.rgn), fps.seqState := .erase }) ∧
      (s.fps.rgn ≠ s.fps.rgnLast → exec .sUnlock s = .next
        { s with fl.inFlight := some (.unlock s.fps.rgn), fps.rgn := s.fps.rgn + 1 })) ∧
    ∀ t, exec .sUnlock s = .next t → ∀ a, t.flashByte a = s.flashByte a

/-- 42_flash_sequencer.md R111: a yield while busy; else the erase is issued and the pages follow. The bytes outside the erase block read
as before. -/
def Obligations.EraseIssuesTheBlock : Prop :=
  ∀ (s : State),
    (s.fl.inFlight.isSome = true → exec .sErase s = exec (decodePoll s.pollWord).instr s) ∧
    (s.fl.inFlight = none → exec .sErase s = .next
      { s with fl.inFlight := some (.erase s.fps.progAddr), fps.pg := 0, fps.seqState := .page }) ∧
    ∀ t, exec .sErase s = .next t → ∀ a, ¬(s.fps.progAddr.toNat ≤ a ∧ a < s.fps.progAddr.toNat + s.cfg.ebSize) →
      t.flashByte a = s.flashByte a

/-- 42_flash_sequencer.md R112: a yield while busy; else the page's write is issued, its address and its data, and the next page or
S_FINAL follows. The bytes outside the page read as before. (A page index and address out of range are ruled out by
StepKeepsSequencerInvariant.) -/
def Obligations.PageWriteIssuesTheNextPage : Prop :=
  ∀ (s : State) (w : Word), s.cfg.ebSize < 2 ^ 32 → s.fps.pg.toNat < s.cfg.ebSize / s.cfg.pageSize →
    w.toNat = s.fps.progAddr.toNat + s.fps.pg.toNat * s.cfg.pageSize →
    let d := (s.ses.stagedData.drop (s.fps.pg.toNat * s.cfg.pageSize)).take s.cfg.pageSize
    (s.fl.inFlight.isSome = true → exec .sPage s = exec (decodePoll s.pollWord).instr s) ∧
    (s.fl.inFlight = none →
      (s.fps.pg.toNat + 1 < s.cfg.ebSize / s.cfg.pageSize → exec .sPage s = .next
        { s with fl.inFlight := some (.pageWrite w d), fps.pg := s.fps.pg + 1 }) ∧
      (s.fps.pg.toNat + 1 = s.cfg.ebSize / s.cfg.pageSize → exec .sPage s = .next
        { s with fl.inFlight := some (.pageWrite w d), fps.pg := s.fps.pg + 1, fps.seqState := .final })) ∧
    ∀ t, exec .sPage s = .next t → ∀ a, ¬(w.toNat ≤ a ∧ a < w.toNat + s.cfg.pageSize) → t.flashByte a = s.flashByte a

/-- 42_flash_sequencer.md R113: a yield while busy; else the staged block is no longer ready and the main loop goes on. -/
def Obligations.FinalClearsReadiness : Prop :=
  ∀ (s : State),
    (s.fl.inFlight.isSome = true → exec .sFinal s = exec (decodePoll s.pollWord).instr s) ∧
    (s.fl.inFlight = none → exec .sFinal s = .next { s with ses.stagedReady := false, fps.seqState := .poll })

/-- 42_flash_sequencer.md R116, 70_reset_and_hazards.md R149, 60_exceptions.md R143: waiting changes nothing; once everything is
transmitted the run ends, with flash and what was sent kept, unread bytes lost, and the bank flipped by a swap only. That the lock
bits stay until the launch (log 15), that the erased marks stay (log 20), that an address reads the same in either bank (log 30), and
the 0 the lost status word takes (log 18) are the model's choices. -/
def Obligations.TransmitWaitEndsTheRun : Prop :=
  ∀ (s : State),
    (s.link.txPend ≠ [] → exec .sTxwait s = .next s) ∧
    (s.link.txPend = [] → s.fps.txAction = .systemReset → ∃ t, exec .sTxwait s = .next t ∧
      t.ended = some .systemReset ∧ t.cfg = s.cfg ∧ t.fl = { s.fl with status := 0 } ∧ t.link = { s.link with rxQ := [] } ∧
      ∀ a, t.flashByte a = s.flashByte a) ∧
    (s.link.txPend = [] → s.fps.txAction = .bankSwap → ∃ t, exec .sTxwait s = .next t ∧
      t.ended = some .bankSwapRestart ∧ t.cfg = s.cfg ∧ t.fl = { s.fl with bank := !s.fl.bank, status := 0 } ∧
      t.link = { s.link with rxQ := [] } ∧ ∀ a, t.flashByte a = s.flashByte a)

/-- 42_flash_sequencer.md R114, 20_memory.md R56: the regions from the `rgn` to the `rgn_last` that S_CHECK latches are exactly those
that meet the staged block. -/
def Obligations.RegionsAreThoseMeetingTheBlock : Prop :=
  ∀ (s t : State), s.cfg.valid = true → s.ses.stagedReady = true → exec .sCheck s = .next t →
    let a := s.ses.stagedAddr.toNat
    ∀ r, (t.fps.rgn.toNat ≤ r ∧ r ≤ t.fps.rgnLast.toNat) ↔
      ∃ x, a ≤ x ∧ x < a + s.cfg.ebSize ∧
        s.cfg.flashBase + r * s.cfg.regionSize ≤ x ∧ x < s.cfg.flashBase + (r + 1) * s.cfg.regionSize

/-- 42_flash_sequencer.md R117 and R106: a controller step in a programming state dispatches nothing: the window, the staged block's
address and bytes and the programmed address stay, a completed frame stays as it is; the staged mark is cleared in S_FINAL
only; and no operation is issued while one is in flight. -/
def Obligations.ProgrammingExcludesDispatch : Prop :=
  ∀ (s t : State) (f : Bool), s.nextMove = .controller f → s.ended = none → s.FrInv →
    s.fps.seqState.programming = true → step s = .next t →
    t.ses.winBegin = s.ses.winBegin ∧ t.ses.winEnd = s.ses.winEnd ∧ t.ses.stagedAddr = s.ses.stagedAddr ∧
    t.ses.stagedData = s.ses.stagedData ∧ t.fps.progAddr = s.fps.progAddr ∧
    (s.rx.frameComplete = true → t.rx = s.rx) ∧
    (s.fps.seqState ≠ .final → t.ses.stagedReady = s.ses.stagedReady) ∧
    (s.fl.inFlight.isSome = true → t.fl = s.fl ∧ t.fps = s.fps)

/-! ## Flash controller

A completion is a step of the flash controller's own (20_memory.md R47): its next state differs from the one before in the flash
controller only, but for the model's schedule and step count (logs 2 and 5). That it leaves a status word, the move's, is log 18. -/

/-- 20_memory.md R49: a successful erase whose target is not locked leaves 0xFF in every byte of the block, freshly erased, every other
byte as it was, and the controller idle; nothing outside the flash controller changes. -/
def Obligations.EraseCompletes : Prop :=
  ∀ (s : State) (w : Word) (n : Nat), s.cfg.valid = true → s.MemInv → s.nextMove = .flashDone true n →
    s.fl.inFlight = some (.erase w) →
    (∀ i < s.cfg.ebSize, s.fl.locked.getD ((w.toNat + i - s.cfg.flashBase) / s.cfg.regionSize) false = false) →
    ∃ t, step s = .next t ∧ t = { s with sched := s.sched.tail, clock := s.clock + 1, fl := t.fl } ∧
      t.fl.inFlight = none ∧ t.fl.status = n ∧ t.fl.locked = s.fl.locked ∧ t.fl.bank = s.fl.bank ∧
      (∀ i < s.cfg.ebSize, s.cfg.inArray (w.toNat + i) = true → t.flashByte (w.toNat + i) = 0xFF) ∧
      (∀ a, ¬(w.toNat ≤ a ∧ a < w.toNat + s.cfg.ebSize) → t.flashByte a = s.flashByte a) ∧
      ∀ a, a ∈ t.fl.erased ↔ (w.toNat ≤ a ∧ a < w.toNat + s.cfg.ebSize) ∨ a ∈ s.fl.erased

/-- 20_memory.md R50: a successful page write to an unlocked, freshly erased page leaves the data in it, no longer freshly erased, every
other byte as it was, and the controller idle; nothing outside the flash controller changes. -/
def Obligations.PageWriteCompletes : Prop :=
  ∀ (s : State) (w : Word) (d : List Byte) (n : Nat), s.cfg.valid = true → s.MemInv →
    s.nextMove = .flashDone true n → s.fl.inFlight = some (.pageWrite w d) →
    (∀ i < d.length, s.fl.locked.getD ((w.toNat + i - s.cfg.flashBase) / s.cfg.regionSize) false = false) →
    (∀ i < d.length, w.toNat + i ∈ s.fl.erased) →
    ∃ t, step s = .next t ∧ t = { s with sched := s.sched.tail, clock := s.clock + 1, fl := t.fl } ∧
      t.fl.inFlight = none ∧ t.fl.status = n ∧ t.fl.locked = s.fl.locked ∧ t.fl.bank = s.fl.bank ∧
      (∀ i < d.length, s.cfg.inArray (w.toNat + i) = true → some (t.flashByte (w.toNat + i)) = d[i]?) ∧
      (∀ a, ¬(w.toNat ≤ a ∧ a < w.toNat + d.length) → t.flashByte a = s.flashByte a) ∧
      ∀ a, a ∈ t.fl.erased ↔ a ∈ s.fl.erased ∧ ¬(w.toNat ≤ a ∧ a < w.toNat + d.length)

/-- 20_memory.md R48, R50 and R51: an erase or page write that fails, meets a locked region, or finds the page not freshly erased leaves a
free value in every targeted byte of the array, every other byte as it was, and the controller idle; nothing outside the flash
controller changes. That one locked or rewritten byte makes the whole target free values, drawn once at completion, and that none
of them counts as freshly erased, are the model's choices (logs 6 and 20). -/
def Obligations.FailedOperationLeavesFreeBytes : Prop :=
  ∀ (s : State) (op : FlashOp) (ok : Bool) (n : Nat), s.cfg.valid = true → s.MemInv → s.nextMove = .flashDone ok n →
    s.fl.inFlight = some op → (∀ r, op ≠ .unlock r) →
    let lo := (op.target s.cfg).1
    let len := (op.target s.cfg).2
    (ok = false ∨
      (∃ i < len, s.fl.locked.getD ((lo + i - s.cfg.flashBase) / s.cfg.regionSize) false = true) ∨
      ((∃ w d, op = .pageWrite w d) ∧ ∃ i < len, lo + i ∉ s.fl.erased)) →
    ∃ t, step s = .next t ∧ t = { s with sched := s.sched.tail, clock := s.clock + 1, fl := t.fl } ∧
      t.fl.inFlight = none ∧ t.fl.status = n ∧ t.fl.locked = s.fl.locked ∧ t.fl.bank = s.fl.bank ∧
      (∀ i < len, s.cfg.inArray (lo + i) = true → t.flashByte (lo + i) = Config.freeFlashByte (s.clock + 1) (lo + i)) ∧
      (∀ a, ¬(lo ≤ a ∧ a < lo + len) → t.flashByte a = s.flashByte a) ∧
      ∀ a, a ∈ t.fl.erased ↔ a ∈ s.fl.erased ∧ ¬(lo ≤ a ∧ a < lo + len)

/-- 20_memory.md R48: a successful region unlock clears that region's bit and nothing else changes but the idle controller's status word.
What a failed one leaves is the model's choice (log 9): a clear bit clear, a set bit set or clear by a free value. So is that no byte
read differently while the unlock was in flight (log 7), and the status word (log 18). -/
def Obligations.RegionUnlockCompletes : Prop :=
  ∀ (s : State) (r : Word) (ok : Bool) (n : Nat), s.cfg.valid = true → s.nextMove = .flashDone ok n →
    s.fl.inFlight = some (.unlock r) →
    let bit := !ok && s.fl.locked.getD r.toNat false && Config.freeLockBit (s.clock + 1) r.toNat
    ∃ t, step s = .next t ∧
      t = { s with
        sched := s.sched.tail
        clock := s.clock + 1
        fl := { s.fl with locked := s.fl.locked.set r.toNat bit, inFlight := none, status := n } } ∧
      t.fl.locked.getD r.toNat false = bit ∧
      (∀ k, k ≠ r.toNat → t.fl.locked.getD k false = s.fl.locked.getD k false) ∧
      ∀ a, t.flashByte a = s.flashByte a

/-- 20_memory.md R48, 42_flash_sequencer.md R110: nothing but a launch after a reset protects a region again. That a failed unlock does
not (log 9), that the bits stay through the reset itself until that launch (log 15), and that a launch scheduled while a run goes on or
the flash controller is busy changes nothing (log 3), are the model's choices. -/
def Obligations.UnlockedRegionStaysUnlocked : Prop :=
  ∀ (s t : State) (r : Nat), step s = .next t →
    (∀ l m, s.nextMove = .launch l m → s.ended = none ∨ s.fl.inFlight.isSome = true) →
    s.fl.locked.getD r false = false → t.fl.locked.getD r false = false

/-! ## Reset, launch, streams -/

/-- 70_reset_and_hazards.md R145 and R146, the values the spec gives: header mode, cursor 0, no frame, S_POLL, the empty window, nothing
staged, an empty transmit stream that counts as transmitted, an idle flash controller, no end-of-run mark. -/
def Obligations.ResetIsTheLaunchState : Prop :=
  let s := State.reset
  s.rx.rxState = .awaitingHeader ∧ s.rx.cursor = 0 ∧ s.rx.frameComplete = false ∧ s.fps.seqState = .poll ∧
    s.ses.winBegin = 0 ∧ s.ses.winEnd = 0 ∧ s.ses.stagedReady = false ∧ s.txQ = [] ∧ s.txComplete = true ∧
    s.flBusy = false ∧ s.ended = none ∧ s.seqInstr = .sPoll

/-- 70_reset_and_hazards.md R144, R145 and R149: after the end of a run the controller has no step; when the boot engine chooses update mode
with the flash controller idle, the main loop starts at the launch values, with flash and bank kept, the host's bytes since
the reset kept, and the lock bits and timer flag it found. (The launch as a move is log 15; that an address reads the same in
either bank is log 30.) -/
def Obligations.LaunchAfterResetKeepsFlash : Prop :=
  ∀ (s : State) (k : EndKind), s.cfg.valid = true → s.ended = some k →
    (∀ f, s.nextMove = .controller f → step s = .next
      { s with sched := s.sched.tail, clock := s.clock + 1, pollTmoFirst := f }) ∧
    ∀ l m, s.nextMove = .launch l m → s.fl.inFlight = none → ∃ t, step s = .next t ∧
      t.ended = none ∧ t.rx.rxState = .awaitingHeader ∧ t.rx.cursor = 0 ∧ t.rx.frameComplete = false ∧
      t.fps.seqState = .poll ∧ t.ses.winBegin = 0 ∧ t.ses.winEnd = 0 ∧ t.ses.stagedReady = false ∧
      t.link.rxQ = s.link.rxQ ∧ t.txQ = [] ∧ t.txComplete = true ∧ t.flBusy = false ∧ t.tmoFlag = m ∧
      t.fl.bank = s.fl.bank ∧ (∀ a, t.flashByte a = s.flashByte a) ∧
      ∀ r < s.cfg.regionCount, ∀ v, l[r]? = some v → t.fl.locked[r]? = some v

/-- 20_memory.md R52, R53, 30_encoding.md R70: the transmit stream only grows, by at most one byte a step, and that byte is one of the five
response codes; received bytes are taken from the front only, one a step, and added at the back only by the host, until
a reset loses them all. A launch after a reset begins new streams; one scheduled while a run goes on or the flash controller is busy
changes nothing (log 3). -/
def Obligations.LinkStreamsKeepOrder : Prop :=
  ∀ (s t : State), step s = .next t →
    (∀ l m, s.nextMove = .launch l m → s.ended = none ∨ s.fl.inFlight.isSome = true) →
    (t.txQ = s.txQ ∨ ∃ r ∈ [0x50, 0x51, 0x52, 0x53, 0x54], t.txQ = s.txQ ++ [r]) ∧
    (t.link.rxQ = s.link.rxQ ∨ (∃ b, s.link.rxQ = b :: t.link.rxQ) ∨
      (∃ b, s.nextMove = .hostByte b ∧ t.link.rxQ = s.link.rxQ ++ [b]) ∨
      (t.ended.isSome = true ∧ t.link.rxQ = []))

/-- 10_state.md R32, 60_exceptions.md R137: no instruction sets the timer's flag, and only the receiver's byte and timeout operations,
alone or in a poll, clear it; a step that raises it is the timer's move, or the launch after a reset, whose flag R145 leaves open.
That the end of a run leaves the flag and that a launch's flag is its move's (log 15), and that a launch scheduled while a run goes on
changes nothing (log 3), are the model's choices. -/
def Obligations.TimerFlagSetByTimerOnly : Prop :=
  (∀ (i : Instr) (s t : State), exec i s = .next t →
    (s.tmoFlag = false → t.tmoFlag = false) ∧
    (i ∉ [.frTmo, .frHdrByteAcc, .frHdrByteMismatch, .frHdrByteMatch, .frBodyByte, .sPoll, .sUnlock, .sErase, .sPage,
        .sFinal] → t.tmoFlag = s.tmoFlag)) ∧
  ∀ (s t : State), step s = .next t → s.tmoFlag = false → t.tmoFlag = true →
    s.nextMove = .timerExpire ∨ (s.ended.isSome = true ∧ ∃ l, s.nextMove = .launch l true)

/-- 10_state.md R33, 42_flash_sequencer.md R119, 60_exceptions.md R143: the flash controller's status word influences nothing: an
instruction does the same whatever it is, and leaves it, unless it ends the run, where the word is lost. (That the word is a number,
which takes the model's reset value there, is log 18.) -/
def Obligations.FlashStatusInfluencesNothing : Prop :=
  ∀ (i : Instr) (s : State) (n : Nat),
    (i ≠ .sTxwait ∨ s.link.txPend ≠ [] →
      exec i { s with fl.status := n } = andThen (exec i s) fun t => { t with fl.status := n }) ∧
    (s.link.txPend = [] → exec .sTxwait { s with fl.status := n } = exec .sTxwait s)

/-! ## Invariants and whole-machine claims -/

/-- All invariants hold at reset. -/
def Obligations.ResetMeetsTheInvariants : Prop := State.reset.Inv

/-- 10_state.md R23 and R26: every step of every agent keeps the receiver's invariant. -/
def Obligations.StepKeepsReceiverInvariant : Prop :=
  ∀ s t : State, s.FrInv → step s = .next t → t.FrInv

/-- 10_state.md R29: every step keeps the window's invariant. -/
def Obligations.StepKeepsWindowInvariant : Prop :=
  ∀ s t : State, s.WinInv → step s = .next t → t.WinInv

/-- 10_state.md R24, R30, R33 and the canonical form of memory: every step keeps the buffers' sizes, one lock bit a region, and the flash
cells canonical and inside the array. -/
def Obligations.StepKeepsStorageShape : Prop :=
  ∀ s t : State, s.BufInv → s.MemInv → step s = .next t → t.BufInv ∧ t.MemInv

/-- 41_frame_commands.md R102, 42_flash_sequencer.md R117, R122, 20_memory.md R44, R58: every step keeps the sequencer's invariant. -/
def Obligations.StepKeepsSequencerInvariant : Prop :=
  ∀ s t : State, s.SeqInv → step s = .next t → t.SeqInv

/-- 60_exceptions.md R127, R128, 41_frame_commands.md R102: from a state of the invariant, under a valid configuration, a step answers a next
state, or S_CHECK finds the staged block outside the array or over the bootloader. StagedOverwrite never happens, and nothing
is refused. -/
def Obligations.OnlyCheckCanStop : Prop :=
  ∀ (s : State), s.cfg.valid = true → s.FrInv → s.SeqInv →
    (∃ t, step s = .next t) ∨
    (s.fps.seqState = .check ∧ s.ses.stagedReady = true ∧
      (step s = .fault .outsideFlash ∨ step s = .fault .selfOverwrite))

/-- 42_flash_sequencer.md R118, 20_memory.md R56, with the model fault of R109: no step of any agent changes what a flash byte reads as,
unless the byte lies in the block being programmed; so no byte of the bootloader's own flash ever changes. That this holds across the
step that swaps the bank and the launch after it, an address reading the same in either bank, is the model's choice (log 30); so is
that it holds while a region unlock is in flight and at its completion, an unlock targeting no byte (log 7). -/
def Obligations.OnlyTheBlockBeingProgrammedChanges : Prop :=
  ∀ (s t : State) (a : Nat), s.SeqInv → s.MemInv → step s = .next t →
    ((s.fps.seqState.programming = true → ¬s.inBlock a) → t.flashByte a = s.flashByte a) ∧
    (a < s.cfg.flashBase + s.cfg.bootSize → t.flashByte a = s.flashByte a)

/-- 42_flash_sequencer.md R118, under the one schedule in which each operation succeeds before the controller's next step, with no busy
observation (95_test_vectors.md S7): from S_CHECK with a staged block that is allowed, the sequencer ends back in S_POLL with the
block's bytes in flash, every other byte as it was, and no block staged. The lock bits are not spoken of: the unlocks clear those of the
block's regions. StepKeepsProgress speaks of every schedule (R115). -/
def Obligations.StagedBlockIsProgrammed : Prop :=
  ∀ (s : State), s.cfg.valid = true → s.Inv → s.ended = none → s.fl.inFlight = none →
    s.fps.seqState = .check → s.ses.stagedReady = true →
    let a := s.ses.stagedAddr.toNat
    s.cfg.flashBase + s.cfg.bootSize ≤ a → a + s.cfg.ebSize ≤ s.cfg.flashBase + s.cfg.flashLen →
    let regions := (a + s.cfg.ebSize - 1 - s.cfg.flashBase) / s.cfg.regionSize - (a - s.cfg.flashBase) / s.cfg.regionSize + 1
    let n := 1 + regions + 1 + s.cfg.ebSize / s.cfg.pageSize + 1
    s.sched = promptSchedule n →
    ∃ t, stepRun (2 * n) s = .next t ∧ t.fps.seqState = .poll ∧ t.ses.stagedReady = false ∧ t.fl.inFlight = none ∧
      (∀ i < s.cfg.ebSize, some (t.flashByte (a + i)) = s.ses.stagedData[i]?) ∧
      (∀ x, ¬(a ≤ x ∧ x < a + s.cfg.ebSize) → t.flashByte x = s.flashByte x) ∧
      t.rx = s.rx ∧ t.link = s.link

/-- 60_exceptions.md R138, 42_flash_sequencer.md R120 and R116, 70_reset_and_hazards.md R154, over infinite runs under every choice of
moves. In a run that is fair to the flash controller a busy programming state ends, by the controller's completion and by nothing
else; in one that is fair to the link the wait for the transmitter ends, by its transmission of the last byte and by nothing else; until
then `seq_state` stays. With the fairness dropped both are hangs: from every such state there is a run that waits forever although the
controller moves again and again. (That a run is a sequence of the model's moves is logs 2 and 26.) -/
def Obligations.FairRunLeavesEveryWait : Prop :=
  (∀ (moves : Nat → Move) (run : Nat → State) (n : Nat), IsRun moves run → FlashFair run → (run n).ended = none →
    (run n).fps.seqState.programming = true → (run n).flBusy = true →
    ∃ m, n ≤ m ∧ (∃ ok st, moves m = .flashDone ok st) ∧ (run (m + 1)).flBusy = false ∧
      ∀ k, n ≤ k → k ≤ m → (run k).flBusy = true ∧ (run k).fps.seqState = (run n).fps.seqState) ∧
  (∀ (moves : Nat → Move) (run : Nat → State) (n : Nat), IsRun moves run → LinkFair run → (run n).ended = none →
    (run n).txWaiting = true →
    ∃ m, n ≤ m ∧ moves m = .linkSent ∧ (run (m + 1)).fps.seqState = .txwait ∧ (run (m + 1)).txComplete = true ∧
      ∀ k, n ≤ k → k ≤ m → (run k).txWaiting = true) ∧
  ∀ s : State, s.cfg.valid = true → s.ended = none →
    (s.FrInv → s.fps.seqState.programming = true → s.flBusy = true →
      ∃ moves run, run 0 = s ∧ IsRun moves run ∧ ControllerRecurs moves ∧
        ∀ k, (run k).flBusy = true ∧ (run k).fps.seqState = s.fps.seqState) ∧
    (s.txWaiting = true →
      ∃ moves run, run 0 = s ∧ IsRun moves run ∧ ControllerRecurs moves ∧ ∀ k, (run k).txWaiting = true)

/-- 42_flash_sequencer.md R118, R114 and R115, 20_memory.md R49 and R50: how far programming has come (the regions below `rgn` opened, the
pages below `pg` programmed, those from `pg` on freshly erased, one operation in flight at most and that the last one issued) is
kept by every step of every agent but a failed completion, in whatever order they come; it holds outside the programming states;
and in S_FINAL with nothing in flight it says that the block in flash is the block staged. (The erased marks are the model's form of
R50's condition, log 20.) -/
def Obligations.StepKeepsProgress : Prop :=
  (∀ s t : State, s.Inv → s.Progress → (∀ n, s.nextMove ≠ .flashDone false n) → step s = .next t → t.Progress) ∧
  (∀ s : State, s.SeqInv → s.fps.seqState.programming = false → s.Progress) ∧
  ∀ s : State, s.cfg.valid = true → s.SeqInv → s.Progress → s.fps.seqState = .final → s.fl.inFlight = none →
    ∀ i < s.cfg.ebSize, some (s.flashByte (s.ses.stagedAddr.toNat + i)) = s.ses.stagedData[i]?
end

