-- ==== Sys2Proof/Laws/Decode.lean ====
section
/-! SUPPORT. Fields assemble to what was serialised, and the poll decoder takes an admitted row. -/

namespace Sys2Proof

theorem byteOf_toNat (v : Word) (k : Nat) : (byteOf v k).toNat = v.toNat / 2 ^ (8 * k) % 256 := by
  simp [byteOf]

/-- `asm32(ser32(v), 0) = v` (R14), whatever follows in the sequence. -/
theorem asm32_ser32 (order : FieldOrder) (v : Word) (rest : List Byte) :
    asm32At order (bytesAt (ser32 order v ++ rest)) 0 = v := by
  have hv : v.toNat < 2 ^ 32 := v.isLt
  cases order <;>
  · simp only [asm32At, asm32, ser32, bytesAt, List.cons_append, List.nil_append, Nat.zero_add, List.getElem?_cons_zero,
      List.getElem?_cons_succ, Option.getD_some]
    apply BitVec.eq_of_toNat_eq
    simp only [BitVec.toNat_ofNat, byteOf_toNat]
    omega

theorem ser32_length (order : FieldOrder) (v : Word) : (ser32 order v).length = 4 := by
  cases order <;> rfl

/-- `asm32` depends on its four bytes only. -/
theorem asm32At_congr (order : FieldOrder) {s t : Nat → Byte} {i j : Nat}
    (h : ∀ k < 4, s (i + k) = t (j + k)) : asm32At order s i = asm32At order t j := by
  have h0 := h 0 (by omega)
  have h1 := h 1 (by omega)
  have h2 := h 2 (by omega)
  have h3 := h 3 (by omega)
  simp only [Nat.add_zero] at h0
  simp only [asm32At, h0, h1, h2, h3]

theorem headerBytes_length (order : FieldOrder) (g z : Word) (c : Byte) : (headerBytes order g z c).length = 9 := by
  simp [headerBytes, ser32_length]

/-- The fields of a header that is followed by a payload (R64). -/
theorem header_fields (order : FieldOrder) (g z : Word) (c : Byte) (p : List Byte) :
    asm32At order (bytesAt (headerBytes order g z c ++ p)) 0 = g ∧
    asm32At order (bytesAt (headerBytes order g z c ++ p)) 4 = z ∧
    bytesAt (headerBytes order g z c ++ p) 8 = c := by
  refine ⟨?_, ?_, ?_⟩
  · have := asm32_ser32 order g (ser32 order z ++ [c] ++ p)
    simpa [headerBytes] using this
  · have := asm32_ser32 order z ([c] ++ p)
    refine Eq.trans (asm32At_congr order fun k hk => ?_) this
    simp only [headerBytes, bytesAt, List.append_assoc, Nat.zero_add]
    rw [List.getElem?_append_right (by simp [ser32_length])]
    simp [ser32_length]
  · simp only [bytesAt, headerBytes, List.append_assoc]
    rw [List.getElem?_append_right (by simp [ser32_length]), List.getElem?_append_right (by simp [ser32_length])]
    simp [ser32_length]

/-- A payload byte the frame stored is read as it stands. -/
theorem payloadByte_stored {cfg : Config} {z : Word} {buf : List Byte} {draw : Nat → Byte} {i : Nat}
    (hz : i < z.toNat) (hm : i < cfg.maxPayload) (hb : i < buf.length) : payloadByte cfg z buf draw i = buf[i] := by
  simp [payloadByte, hz, hm, hb]

end Sys2Proof
end

