-- ==== Sys2Proof/Laws/Memory.lean ====
section
/-! SUPPORT. The laws of the flash cells and of the erased-address list: read after write, the canonical form kept. -/

namespace Sys2Proof.Machine

/-! Reading and writing one byte -/

theorem Memory.read_of_lt {m : Memory} {a : Nat} (h : ∀ c ∈ m, a < c.1) : m.read a = erasedByte := by
  induction m with
  | nil => rfl
  | cons c m ih =>
    have hc := h c (by simp)
    have hr := ih fun d hd => h d (by simp [hd])
    simp only [Memory.read]
    rw [if_neg (by omega), hr]

theorem Memory.read_write_same {m : Memory} (hm : m.Pairwise fun x y => x.1 < y.1) (a : Nat) (b : Byte) :
    (m.write a b).read a = b := by
  induction m with
  | nil =>
    simp only [Memory.write]
    split
    · next h => simp [Memory.read, h]
    · simp [Memory.read]
  | cons c m ih =>
    obtain ⟨k, v⟩ := c
    have hlt : ∀ d ∈ m, k < d.1 := fun d hd => List.rel_of_pairwise_cons hm hd
    simp only [Memory.write]
    split
    · next h =>
      split
      · next hb =>
        rw [hb, Memory.read, if_neg (by omega), Memory.read_of_lt fun d hd => by have := hlt d hd; omega]
      · simp [Memory.read]
    · split
      · next _ h =>
        subst h
        split
        · next hb => rw [hb, Memory.read_of_lt hlt]
        · simp [Memory.read]
      · next h1 h2 =>
        rw [Memory.read, if_neg (by omega)]
        exact ih hm.of_cons

theorem Memory.read_write_other {m : Memory} (hm : m.Pairwise fun x y => x.1 < y.1) {a a' : Nat} (h : a' ≠ a)
    (b : Byte) : (m.write a b).read a' = m.read a' := by
  induction m with
  | nil =>
    simp only [Memory.write]
    split
    · rfl
    · simp [Memory.read, Ne.symm h]
  | cons c m ih =>
    obtain ⟨k, v⟩ := c
    have hlt : ∀ d ∈ m, k < d.1 := fun d hd => List.rel_of_pairwise_cons hm hd
    simp only [Memory.write]
    split
    · split
      · rfl
      · rw [Memory.read, if_neg (Ne.symm h)]
    · split
      · next _ hk =>
        subst hk
        split
        · rw [Memory.read, if_neg (Ne.symm h)]
        · simp [Memory.read, Ne.symm h]
      · simp only [Memory.read]
        rw [ih hm.of_cons]

/-! The canonical form -/

theorem Memory.wf_iff (m : Memory) :
    m.wf = true ↔ (m.Pairwise fun x y => x.1 < y.1) ∧ ∀ c ∈ m, c.2 ≠ erasedByte := by
  simp [Memory.wf]

theorem Memory.mem_write {m : Memory} {a : Nat} {b : Byte} {c : Host.Cell} (h : c ∈ m.write a b) :
    c ∈ m ∨ c = (a, b) ∧ b ≠ erasedByte := by
  induction m with
  | nil =>
    simp only [Memory.write] at h
    split at h
    · simp at h
    · next hb => exact .inr ⟨by simpa using h, hb⟩
  | cons d m ih =>
    obtain ⟨k, v⟩ := d
    simp only [Memory.write] at h
    split at h
    · split at h
      · exact .inl h
      · next hb =>
        rcases List.mem_cons.mp h with h | h
        · exact .inr ⟨h, hb⟩
        · exact .inl h
    · split at h
      · split at h
        · exact .inl (List.mem_cons_of_mem _ h)
        · next hb =>
          rcases List.mem_cons.mp h with h | h
          · exact .inr ⟨h, hb⟩
          · exact .inl (List.mem_cons_of_mem _ h)
      · rcases List.mem_cons.mp h with h | h
        · exact .inl (by simp [h])
        · rcases ih h with h | h
          · exact .inl (List.mem_cons_of_mem _ h)
          · exact .inr h

theorem Memory.pairwise_write {m : Memory} (hm : m.Pairwise fun x y => x.1 < y.1) (a : Nat) (b : Byte) :
    (m.write a b).Pairwise fun x y => x.1 < y.1 := by
  induction m with
  | nil => simp only [Memory.write]; split <;> simp
  | cons c m ih =>
    obtain ⟨k, v⟩ := c
    have hlt : ∀ d ∈ m, k < d.1 := fun d hd => List.rel_of_pairwise_cons hm hd
    simp only [Memory.write]
    split
    · next hak =>
      split
      · exact hm
      · refine List.pairwise_cons.mpr ⟨fun d hd => ?_, hm⟩
        rcases List.mem_cons.mp hd with h | h
        · simp [h, hak]
        · have := hlt d h; simp only; omega
    · split
      · next _ hak =>
        split
        · exact hm.of_cons
        · refine List.pairwise_cons.mpr ⟨fun d hd => ?_, hm.of_cons⟩
          have := hlt d hd; simp only; omega
      · next h1 h2 =>
        refine List.pairwise_cons.mpr ⟨fun d hd => ?_, ih hm.of_cons⟩
        rcases Memory.mem_write hd with h | ⟨h, _⟩
        · exact hlt d h
        · simp only [h]; omega

theorem Memory.wf_write {m : Memory} (hm : m.wf = true) (a : Nat) (b : Byte) : (m.write a b).wf = true := by
  rw [Memory.wf_iff] at hm ⊢
  refine ⟨Memory.pairwise_write hm.1 a b, fun c hc => ?_⟩
  rcases Memory.mem_write hc with h | ⟨h, hb⟩
  · exact hm.2 c h
  · simpa [h] using hb

theorem Memory.wf_store {m : Memory} (cfg : Config) (hm : m.wf = true) (a : Nat) (bs : List Byte) :
    (m.store cfg a bs).wf = true := by
  induction bs generalizing m a with
  | nil => exact hm
  | cons b bs ih =>
    simp only [Memory.store]
    split
    · exact ih (Memory.wf_write hm a b) (a + 1)
    · exact ih hm (a + 1)

/-- Every stored cell lies in the array, if every cell did before. -/
theorem Memory.store_inArray {m : Memory} (cfg : Config) (hm : ∀ c ∈ m, cfg.inArray c.1 = true) (a : Nat)
    (bs : List Byte) : ∀ c ∈ m.store cfg a bs, cfg.inArray c.1 = true := by
  induction bs generalizing m a with
  | nil => exact hm
  | cons b bs ih =>
    simp only [Memory.store]
    split
    · next h =>
      refine ih (fun c hc => ?_) (a + 1)
      rcases Memory.mem_write hc with hc | ⟨hc, _⟩
      · exact hm c hc
      · simpa [hc] using h
    · exact ih hm (a + 1)

/-! Reading after a range was stored -/

theorem Memory.read_store_outside {m : Memory} (cfg : Config) (hm : m.wf = true) {a x : Nat} {bs : List Byte}
    (h : x < a ∨ a + bs.length ≤ x) : (m.store cfg a bs).read x = m.read x := by
  induction bs generalizing m a with
  | nil => rfl
  | cons b bs ih =>
    simp only [List.length_cons] at h
    simp only [Memory.store]
    split
    · rw [ih (Memory.wf_write hm a b) (by omega),
        Memory.read_write_other ((Memory.wf_iff m).mp hm).1 (by omega)]
    · rw [ih hm (by omega)]

theorem Memory.read_store_inside {m : Memory} (cfg : Config) (hm : m.wf = true) {a i : Nat} {bs : List Byte}
    (h : i < bs.length) (ha : cfg.inArray (a + i) = true) : (m.store cfg a bs).read (a + i) = bs[i] := by
  induction bs generalizing m a i with
  | nil => simp at h
  | cons b bs ih =>
    simp only [Memory.store]
    cases i with
    | zero =>
      simp only [Nat.add_zero] at ha ⊢
      rw [if_pos ha, Memory.read_store_outside cfg (Memory.wf_write hm a b) (by omega),
        Memory.read_write_same ((Memory.wf_iff m).mp hm).1]
      simp
    | succ i =>
      have hi : i < bs.length := by simpa using h
      have hx : a + (i + 1) = a + 1 + i := by omega
      rw [hx] at ha ⊢
      split
      · simpa using ih (Memory.wf_write hm a b) hi ha
      · simpa using ih hm hi ha

/-! The erased-address list -/

theorem mem_insertAddr {s : List Nat} {a x : Nat} : x ∈ insertAddr s a ↔ x = a ∨ x ∈ s := by
  induction s with
  | nil => simp [insertAddr]
  | cons k ks ih =>
    simp only [insertAddr]
    split
    · simp
    · split
      · next _ h => subst h; simp
      · simp only [List.mem_cons, ih]; tauto

theorem mem_insertRange {s : List Nat} {a n x : Nat} : x ∈ insertRange s a n ↔ (a ≤ x ∧ x < a + n) ∨ x ∈ s := by
  induction n with
  | zero => simp only [insertRange]; constructor
            · exact .inr
            · rintro (h | h)
              · omega
              · exact h
  | succ n ih =>
    simp only [insertRange, mem_insertAddr, ih]
    constructor
    · rintro (h | h | h)
      · left; omega
      · left; omega
      · exact .inr h
    · rintro (h | h)
      · by_cases hx : x = a + n
        · exact .inl hx
        · right; left; omega
      · exact .inr (.inr h)

theorem mem_removeRange {s : List Nat} {a n x : Nat} : x ∈ removeRange s a n ↔ x ∈ s ∧ ¬(a ≤ x ∧ x < a + n) := by
  simp only [removeRange, List.mem_filter, Bool.not_eq_true', decide_eq_false_iff_not]

theorem containsRange_iff {s : List Nat} {a n : Nat} : containsRange s a n = true ↔ ∀ i < n, a + i ∈ s := by
  simp [containsRange]

theorem pairwise_insertAddr {s : List Nat} (hs : s.Pairwise (· < ·)) (a : Nat) :
    (insertAddr s a).Pairwise (· < ·) := by
  induction s with
  | nil => simp [insertAddr]
  | cons k ks ih =>
    have hlt : ∀ d ∈ ks, k < d := fun d hd => List.rel_of_pairwise_cons hs hd
    simp only [insertAddr]
    split
    · next h =>
      refine List.pairwise_cons.mpr ⟨fun d hd => ?_, hs⟩
      rcases List.mem_cons.mp hd with hd | hd
      · omega
      · have := hlt d hd; omega
    · split
      · exact hs
      · refine List.pairwise_cons.mpr ⟨fun d hd => ?_, ih hs.of_cons⟩
        rcases mem_insertAddr.mp hd with hd | hd
        · omega
        · exact hlt d hd

theorem pairwise_insertRange {s : List Nat} (hs : s.Pairwise (· < ·)) (a n : Nat) :
    (insertRange s a n).Pairwise (· < ·) := by
  induction n with
  | zero => exact hs
  | succ n ih => exact pairwise_insertAddr ih (a + n)

theorem pairwise_removeRange {s : List Nat} (hs : s.Pairwise (· < ·)) (a n : Nat) :
    (removeRange s a n).Pairwise (· < ·) := hs.filter _

end Sys2Proof.Machine
end

