-- ==== Sys2Proof/Laws/State.lean ====
section
/-! SUPPORT. One lemma per field per update of the named operations: later proofs unfold no record update. -/

namespace Sys2Proof.Machine

@[simp] theorem linkWrite_cfg (b : Byte) (s : State) : (linkWrite b s).cfg = s.cfg := rfl
@[simp] theorem linkWrite_rx (b : Byte) (s : State) : (linkWrite b s).rx = s.rx := rfl
@[simp] theorem linkWrite_fps (b : Byte) (s : State) : (linkWrite b s).fps = s.fps := rfl
@[simp] theorem linkWrite_ses (b : Byte) (s : State) : (linkWrite b s).ses = s.ses := rfl
@[simp] theorem linkWrite_tmoFlag (b : Byte) (s : State) : (linkWrite b s).tmoFlag = s.tmoFlag := rfl
@[simp] theorem linkWrite_fl (b : Byte) (s : State) : (linkWrite b s).fl = s.fl := rfl
@[simp] theorem linkWrite_ended (b : Byte) (s : State) : (linkWrite b s).ended = s.ended := rfl
@[simp] theorem linkWrite_sched (b : Byte) (s : State) : (linkWrite b s).sched = s.sched := rfl
@[simp] theorem linkWrite_pollTmoFirst (b : Byte) (s : State) : (linkWrite b s).pollTmoFirst = s.pollTmoFirst := rfl
@[simp] theorem linkWrite_clock (b : Byte) (s : State) : (linkWrite b s).clock = s.clock := rfl
@[simp] theorem linkWrite_link_rxQ (b : Byte) (s : State) : (linkWrite b s).link.rxQ = s.link.rxQ := rfl
@[simp] theorem linkWrite_link_txDone (b : Byte) (s : State) : (linkWrite b s).link.txDone = s.link.txDone := rfl
@[simp] theorem linkWrite_link_txPend (b : Byte) (s : State) : (linkWrite b s).link.txPend = s.link.txPend ++ [b] := rfl

@[simp] theorem timerRestart_cfg (s : State) : (timerRestart s).cfg = s.cfg := rfl
@[simp] theorem timerRestart_rx (s : State) : (timerRestart s).rx = s.rx := rfl
@[simp] theorem timerRestart_fps (s : State) : (timerRestart s).fps = s.fps := rfl
@[simp] theorem timerRestart_ses (s : State) : (timerRestart s).ses = s.ses := rfl
@[simp] theorem timerRestart_link (s : State) : (timerRestart s).link = s.link := rfl
@[simp] theorem timerRestart_fl (s : State) : (timerRestart s).fl = s.fl := rfl
@[simp] theorem timerRestart_ended (s : State) : (timerRestart s).ended = s.ended := rfl
@[simp] theorem timerRestart_sched (s : State) : (timerRestart s).sched = s.sched := rfl
@[simp] theorem timerRestart_pollTmoFirst (s : State) : (timerRestart s).pollTmoFirst = s.pollTmoFirst := rfl
@[simp] theorem timerRestart_clock (s : State) : (timerRestart s).clock = s.clock := rfl
@[simp] theorem timerRestart_tmoFlag (s : State) : (timerRestart s).tmoFlag = false := rfl

@[simp] theorem storeHeader_cfg (i : Nat) (b : Byte) (s : State) : (storeHeader i b s).cfg = s.cfg := rfl
@[simp] theorem storeHeader_fps (i : Nat) (b : Byte) (s : State) : (storeHeader i b s).fps = s.fps := rfl
@[simp] theorem storeHeader_ses (i : Nat) (b : Byte) (s : State) : (storeHeader i b s).ses = s.ses := rfl
@[simp] theorem storeHeader_link (i : Nat) (b : Byte) (s : State) : (storeHeader i b s).link = s.link := rfl
@[simp] theorem storeHeader_tmoFlag (i : Nat) (b : Byte) (s : State) : (storeHeader i b s).tmoFlag = s.tmoFlag := rfl
@[simp] theorem storeHeader_fl (i : Nat) (b : Byte) (s : State) : (storeHeader i b s).fl = s.fl := rfl
@[simp] theorem storeHeader_ended (i : Nat) (b : Byte) (s : State) : (storeHeader i b s).ended = s.ended := rfl
@[simp] theorem storeHeader_sched (i : Nat) (b : Byte) (s : State) : (storeHeader i b s).sched = s.sched := rfl
@[simp] theorem storeHeader_pollTmoFirst (i : Nat) (b : Byte) (s : State) : (storeHeader i b s).pollTmoFirst = s.pollTmoFirst := rfl
@[simp] theorem storeHeader_clock (i : Nat) (b : Byte) (s : State) : (storeHeader i b s).clock = s.clock := rfl
@[simp] theorem storeHeader_rx_hdrBuf (i : Nat) (b : Byte) (s : State) : (storeHeader i b s).rx.hdrBuf = s.rx.hdrBuf.setIfInBounds i b := rfl
@[simp] theorem storeHeader_rx_rxState (i : Nat) (b : Byte) (s : State) : (storeHeader i b s).rx.rxState = s.rx.rxState := rfl
@[simp] theorem storeHeader_rx_fSize (i : Nat) (b : Byte) (s : State) : (storeHeader i b s).rx.fSize = s.rx.fSize := rfl
@[simp] theorem storeHeader_rx_fCmd (i : Nat) (b : Byte) (s : State) : (storeHeader i b s).rx.fCmd = s.rx.fCmd := rfl
@[simp] theorem storeHeader_rx_cursor (i : Nat) (b : Byte) (s : State) : (storeHeader i b s).rx.cursor = s.rx.cursor := rfl
@[simp] theorem storeHeader_rx_payBuf (i : Nat) (b : Byte) (s : State) : (storeHeader i b s).rx.payBuf = s.rx.payBuf := rfl
@[simp] theorem storeHeader_rx_frameComplete (i : Nat) (b : Byte) (s : State) : (storeHeader i b s).rx.frameComplete = s.rx.frameComplete := rfl

@[simp] theorem respond_cfg (b : Byte) (s : State) : (respond b s).cfg = s.cfg := rfl
@[simp] theorem respond_fps (b : Byte) (s : State) : (respond b s).fps = s.fps := rfl
@[simp] theorem respond_ses (b : Byte) (s : State) : (respond b s).ses = s.ses := rfl
@[simp] theorem respond_tmoFlag (b : Byte) (s : State) : (respond b s).tmoFlag = s.tmoFlag := rfl
@[simp] theorem respond_fl (b : Byte) (s : State) : (respond b s).fl = s.fl := rfl
@[simp] theorem respond_ended (b : Byte) (s : State) : (respond b s).ended = s.ended := rfl
@[simp] theorem respond_sched (b : Byte) (s : State) : (respond b s).sched = s.sched := rfl
@[simp] theorem respond_pollTmoFirst (b : Byte) (s : State) : (respond b s).pollTmoFirst = s.pollTmoFirst := rfl
@[simp] theorem respond_clock (b : Byte) (s : State) : (respond b s).clock = s.clock := rfl
@[simp] theorem respond_rx_hdrBuf (b : Byte) (s : State) : (respond b s).rx.hdrBuf = s.rx.hdrBuf := rfl
@[simp] theorem respond_rx_rxState (b : Byte) (s : State) : (respond b s).rx.rxState = s.rx.rxState := rfl
@[simp] theorem respond_rx_fSize (b : Byte) (s : State) : (respond b s).rx.fSize = s.rx.fSize := rfl
@[simp] theorem respond_rx_fCmd (b : Byte) (s : State) : (respond b s).rx.fCmd = s.rx.fCmd := rfl
@[simp] theorem respond_rx_cursor (b : Byte) (s : State) : (respond b s).rx.cursor = s.rx.cursor := rfl
@[simp] theorem respond_rx_payBuf (b : Byte) (s : State) : (respond b s).rx.payBuf = s.rx.payBuf := rfl
@[simp] theorem respond_rx_frameComplete (b : Byte) (s : State) : (respond b s).rx.frameComplete = false := rfl
@[simp] theorem respond_link_rxQ (b : Byte) (s : State) : (respond b s).link.rxQ = s.link.rxQ := rfl
@[simp] theorem respond_link_txDone (b : Byte) (s : State) : (respond b s).link.txDone = s.link.txDone := rfl
@[simp] theorem respond_link_txPend (b : Byte) (s : State) : (respond b s).link.txPend = s.link.txPend ++ [b] := rfl

@[simp] theorem flashIssue_cfg (op : FlashOp) (s : State) : (flashIssue op s).cfg = s.cfg := rfl
@[simp] theorem flashIssue_rx (op : FlashOp) (s : State) : (flashIssue op s).rx = s.rx := rfl
@[simp] theorem flashIssue_fps (op : FlashOp) (s : State) : (flashIssue op s).fps = s.fps := rfl
@[simp] theorem flashIssue_ses (op : FlashOp) (s : State) : (flashIssue op s).ses = s.ses := rfl
@[simp] theorem flashIssue_link (op : FlashOp) (s : State) : (flashIssue op s).link = s.link := rfl
@[simp] theorem flashIssue_tmoFlag (op : FlashOp) (s : State) : (flashIssue op s).tmoFlag = s.tmoFlag := rfl
@[simp] theorem flashIssue_ended (op : FlashOp) (s : State) : (flashIssue op s).ended = s.ended := rfl
@[simp] theorem flashIssue_sched (op : FlashOp) (s : State) : (flashIssue op s).sched = s.sched := rfl
@[simp] theorem flashIssue_pollTmoFirst (op : FlashOp) (s : State) : (flashIssue op s).pollTmoFirst = s.pollTmoFirst := rfl
@[simp] theorem flashIssue_clock (op : FlashOp) (s : State) : (flashIssue op s).clock = s.clock := rfl
@[simp] theorem flashIssue_fl_cells (op : FlashOp) (s : State) : (flashIssue op s).fl.cells = s.fl.cells := rfl
@[simp] theorem flashIssue_fl_erased (op : FlashOp) (s : State) : (flashIssue op s).fl.erased = s.fl.erased := rfl
@[simp] theorem flashIssue_fl_locked (op : FlashOp) (s : State) : (flashIssue op s).fl.locked = s.fl.locked := rfl
@[simp] theorem flashIssue_fl_bank (op : FlashOp) (s : State) : (flashIssue op s).fl.bank = s.fl.bank := rfl
@[simp] theorem flashIssue_fl_inFlight (op : FlashOp) (s : State) : (flashIssue op s).fl.inFlight = some op := rfl
@[simp] theorem flashIssue_fl_status (op : FlashOp) (s : State) : (flashIssue op s).fl.status = s.fl.status := rfl

@[simp] theorem goto_cfg (q : SeqState) (s : State) : (goto q s).cfg = s.cfg := rfl
@[simp] theorem goto_rx (q : SeqState) (s : State) : (goto q s).rx = s.rx := rfl
@[simp] theorem goto_ses (q : SeqState) (s : State) : (goto q s).ses = s.ses := rfl
@[simp] theorem goto_link (q : SeqState) (s : State) : (goto q s).link = s.link := rfl
@[simp] theorem goto_tmoFlag (q : SeqState) (s : State) : (goto q s).tmoFlag = s.tmoFlag := rfl
@[simp] theorem goto_fl (q : SeqState) (s : State) : (goto q s).fl = s.fl := rfl
@[simp] theorem goto_ended (q : SeqState) (s : State) : (goto q s).ended = s.ended := rfl
@[simp] theorem goto_sched (q : SeqState) (s : State) : (goto q s).sched = s.sched := rfl
@[simp] theorem goto_pollTmoFirst (q : SeqState) (s : State) : (goto q s).pollTmoFirst = s.pollTmoFirst := rfl
@[simp] theorem goto_clock (q : SeqState) (s : State) : (goto q s).clock = s.clock := rfl
@[simp] theorem goto_fps_seqState (q : SeqState) (s : State) : (goto q s).fps.seqState = q := rfl
@[simp] theorem goto_fps_progAddr (q : SeqState) (s : State) : (goto q s).fps.progAddr = s.fps.progAddr := rfl
@[simp] theorem goto_fps_rgn (q : SeqState) (s : State) : (goto q s).fps.rgn = s.fps.rgn := rfl
@[simp] theorem goto_fps_rgnLast (q : SeqState) (s : State) : (goto q s).fps.rgnLast = s.fps.rgnLast := rfl
@[simp] theorem goto_fps_pg (q : SeqState) (s : State) : (goto q s).fps.pg = s.fps.pg := rfl
@[simp] theorem goto_fps_txAction (q : SeqState) (s : State) : (goto q s).fps.txAction = s.fps.txAction := rfl

@[simp] theorem State_begin_cfg (s : State) : (State.begin s).cfg = s.cfg := rfl
@[simp] theorem State_begin_rx (s : State) : (State.begin s).rx = s.rx := rfl
@[simp] theorem State_begin_fps (s : State) : (State.begin s).fps = s.fps := rfl
@[simp] theorem State_begin_ses (s : State) : (State.begin s).ses = s.ses := rfl
@[simp] theorem State_begin_link (s : State) : (State.begin s).link = s.link := rfl
@[simp] theorem State_begin_tmoFlag (s : State) : (State.begin s).tmoFlag = s.tmoFlag := rfl
@[simp] theorem State_begin_fl (s : State) : (State.begin s).fl = s.fl := rfl
@[simp] theorem State_begin_ended (s : State) : (State.begin s).ended = s.ended := rfl
@[simp] theorem State_begin_pollTmoFirst (s : State) : (State.begin s).pollTmoFirst = s.pollTmoFirst := rfl
@[simp] theorem State_begin_sched (s : State) : (State.begin s).sched = s.sched.tail := rfl
@[simp] theorem State_begin_clock (s : State) : (State.begin s).clock = s.clock + 1 := rfl

@[simp] theorem endRun_cfg (k : EndKind) (s : State) : (endRun k s).cfg = s.cfg := rfl
@[simp] theorem endRun_tmoFlag (k : EndKind) (s : State) : (endRun k s).tmoFlag = s.tmoFlag := rfl
@[simp] theorem endRun_sched (k : EndKind) (s : State) : (endRun k s).sched = s.sched := rfl
@[simp] theorem endRun_pollTmoFirst (k : EndKind) (s : State) : (endRun k s).pollTmoFirst = s.pollTmoFirst := rfl
@[simp] theorem endRun_clock (k : EndKind) (s : State) : (endRun k s).clock = s.clock := rfl
@[simp] theorem endRun_rx (k : EndKind) (s : State) : (endRun k s).rx = (State.launchOf s.cfg).rx := rfl
@[simp] theorem endRun_fps (k : EndKind) (s : State) : (endRun k s).fps = (State.launchOf s.cfg).fps := rfl
@[simp] theorem endRun_ses (k : EndKind) (s : State) : (endRun k s).ses = (State.launchOf s.cfg).ses := rfl
@[simp] theorem endRun_link_rxQ (k : EndKind) (s : State) : (endRun k s).link.rxQ = [] := rfl
@[simp] theorem endRun_link_txDone (k : EndKind) (s : State) : (endRun k s).link.txDone = s.link.txDone := rfl
@[simp] theorem endRun_link_txPend (k : EndKind) (s : State) : (endRun k s).link.txPend = [] := rfl
@[simp] theorem endRun_fl_cells (k : EndKind) (s : State) : (endRun k s).fl.cells = s.fl.cells := rfl
@[simp] theorem endRun_fl_erased (k : EndKind) (s : State) : (endRun k s).fl.erased = s.fl.erased := rfl
@[simp] theorem endRun_fl_locked (k : EndKind) (s : State) : (endRun k s).fl.locked = s.fl.locked := rfl
@[simp] theorem endRun_fl_inFlight (k : EndKind) (s : State) : (endRun k s).fl.inFlight = s.fl.inFlight := rfl
@[simp] theorem endRun_fl_status (k : EndKind) (s : State) : (endRun k s).fl.status = 0 := rfl
@[simp] theorem endRun_ended (k : EndKind) (s : State) : (endRun k s).ended = some k := rfl

@[simp] theorem launch_cfg (l : List Bool) (t : Bool) (s : State) : (launch l t s).cfg = s.cfg := rfl
@[simp] theorem launch_sched (l : List Bool) (t : Bool) (s : State) : (launch l t s).sched = s.sched := rfl
@[simp] theorem launch_pollTmoFirst (l : List Bool) (t : Bool) (s : State) : (launch l t s).pollTmoFirst = s.pollTmoFirst := rfl
@[simp] theorem launch_clock (l : List Bool) (t : Bool) (s : State) : (launch l t s).clock = s.clock := rfl
@[simp] theorem launch_rx (l : List Bool) (t : Bool) (s : State) : (launch l t s).rx = (State.launchOf s.cfg).rx := rfl
@[simp] theorem launch_fps (l : List Bool) (t : Bool) (s : State) : (launch l t s).fps = (State.launchOf s.cfg).fps := rfl
@[simp] theorem launch_ses (l : List Bool) (t : Bool) (s : State) : (launch l t s).ses = (State.launchOf s.cfg).ses := rfl
@[simp] theorem launch_link_rxQ (l : List Bool) (t : Bool) (s : State) : (launch l t s).link.rxQ = s.link.rxQ := rfl
@[simp] theorem launch_link_txDone (l : List Bool) (t : Bool) (s : State) : (launch l t s).link.txDone = [] := rfl
@[simp] theorem launch_link_txPend (l : List Bool) (t : Bool) (s : State) : (launch l t s).link.txPend = [] := rfl
@[simp] theorem launch_tmoFlag (l : List Bool) (t : Bool) (s : State) : (launch l t s).tmoFlag = t := rfl
@[simp] theorem launch_fl_cells (l : List Bool) (t : Bool) (s : State) : (launch l t s).fl.cells = s.fl.cells := rfl
@[simp] theorem launch_fl_erased (l : List Bool) (t : Bool) (s : State) : (launch l t s).fl.erased = s.fl.erased := rfl
@[simp] theorem launch_fl_bank (l : List Bool) (t : Bool) (s : State) : (launch l t s).fl.bank = s.fl.bank := rfl
@[simp] theorem launch_fl_inFlight (l : List Bool) (t : Bool) (s : State) : (launch l t s).fl.inFlight = s.fl.inFlight := rfl
@[simp] theorem launch_fl_status (l : List Bool) (t : Bool) (s : State) : (launch l t s).fl.status = 0 := rfl
@[simp] theorem launch_ended (l : List Bool) (t : Bool) (s : State) : (launch l t s).ended = none := rfl

@[simp] theorem andThen_next (s : State) (f : State → State) : andThen (.next s) f = .next (f s) := rfl
@[simp] theorem andThen_fault (e : Fault) (f : State → State) : andThen (.fault e) f = .fault e := rfl
@[simp] theorem andThen_refused (e : Refusal) (f : State → State) : andThen (.refused e) f = .refused e := rfl

end Sys2Proof.Machine
end

