-- ==== Sys2Proof/Laws/Flash.lean ====
section
/-! SUPPORT. What the completion of a flash operation can do, and how the array reads before and after it. -/

namespace Sys2Proof.Machine

/-- What applying an operation can change: the targeted bytes, the erased marks, a lock bit from set to clear. -/
structure Applied (cfg : Config) (op : FlashOp) (fl fl' : FlashCtl) : Prop where
  cells : ∃ bs : List Byte, bs.length = (op.target cfg).2 ∧ fl'.cells = fl.cells.store cfg (op.target cfg).1 bs
  erased : fl.erased.Pairwise (· < ·) → fl'.erased.Pairwise (· < ·)
  lockedLength : fl'.locked.length = fl.locked.length
  lockedMono : ∀ r, fl.locked.getD r false = false → fl'.locked.getD r false = false
  bank : fl'.bank = fl.bank

theorem getD_set_false {l : List Bool} {i r : Nat} {b : Bool} (hb : l.getD i false = false → b = false)
    (h : l.getD r false = false) : (l.set i b).getD r false = false := by
  by_cases hr : r = i
  · subst hr
    by_cases hl : r < l.length
    · simp [List.getD_eq_getElem?_getD, List.getElem?_set_self hl, hb h]
    · simp [List.getD_eq_getElem?_getD, hl]
  · simpa [List.getD_eq_getElem?_getD, List.getElem?_set_ne (Ne.symm hr)] using h

theorem applied_unlock (cfg : Config) (clock : Nat) (ok : Bool) (r : Word) (fl : FlashCtl) :
    Applied cfg (.unlock r) fl (applyUnlock clock ok r fl) where
  cells := ⟨[], rfl, rfl⟩
  erased h := h
  lockedLength := by simp [applyUnlock]
  lockedMono k h := by
    refine getD_set_false (fun hr => ?_) h
    rw [hr]; cases ok <;> rfl
  bank := rfl

theorem applied_scramble (cfg : Config) (clock : Nat) (op : FlashOp) (fl : FlashCtl) :
    Applied cfg op fl (scramble cfg clock (op.target cfg).1 (op.target cfg).2 fl) where
  cells := ⟨_, by simp, rfl⟩
  erased h := pairwise_removeRange h _ _
  lockedLength := rfl
  lockedMono _ h := h
  bank := rfl

theorem applied_erase (cfg : Config) (clock : Nat) (ok : Bool) (a : Word) (fl : FlashCtl) :
    Applied cfg (.erase a) fl (applyErase cfg clock ok a fl) := by
  unfold applyErase
  split
  · exact ⟨⟨_, by simp [FlashOp.target], rfl⟩, fun h => pairwise_insertRange h _ _, rfl, fun _ h => h, rfl⟩
  · exact applied_scramble cfg clock (.erase a) fl

theorem applied_pageWrite (cfg : Config) (clock : Nat) (ok : Bool) (a : Word) (d : List Byte) (fl : FlashCtl) :
    Applied cfg (.pageWrite a d) fl (applyPageWrite cfg clock ok a d fl) := by
  unfold applyPageWrite
  split
  · exact ⟨⟨_, by simp [FlashOp.target], rfl⟩, fun h => pairwise_removeRange h _ _, rfl, fun _ h => h, rfl⟩
  · exact applied_scramble cfg clock (.pageWrite a d) fl

/-- Completing: nothing where nothing is in flight, else the operation applied and the controller idle. -/
theorem flashComplete_cases (ok : Bool) (n : Nat) (s : State) :
    (s.fl.inFlight = none ∧ flashComplete ok n s = s) ∨
    ∃ op fl', s.fl.inFlight = some op ∧ Applied s.cfg op s.fl fl' ∧
      flashComplete ok n s = { s with fl := { fl' with inFlight := none, status := n } } := by
  cases h : s.fl.inFlight with
  | none => exact .inl ⟨rfl, by simp [flashComplete, h]⟩
  | some op =>
    refine .inr ?_
    cases op with
    | unlock r => exact ⟨_, _, rfl, applied_unlock s.cfg s.clock ok r s.fl, by simp only [flashComplete, h]⟩
    | erase a => exact ⟨_, _, rfl, applied_erase s.cfg s.clock ok a s.fl, by simp only [flashComplete, h]⟩
    | pageWrite a d => exact ⟨_, _, rfl, applied_pageWrite s.cfg s.clock ok a d s.fl, by simp only [flashComplete, h]⟩

/-! Which effect an operation has -/

theorem targetLocked_eq_false_iff {cfg : Config} {locked : List Bool} {a n : Nat} :
    targetLocked cfg locked a n = false ↔ ∀ i < n, locked.getD (cfg.regionOf (a + i)) false = false := by
  simp [targetLocked]

theorem targetLocked_iff {cfg : Config} {locked : List Bool} {a n : Nat} :
    targetLocked cfg locked a n = true ↔ ∃ i < n, locked.getD (cfg.regionOf (a + i)) false = true := by
  simp [targetLocked]

/-- A successful erase of unlocked flash. -/
theorem applyErase_success {cfg : Config} {clock : Nat} {a : Word} {fl : FlashCtl}
    (hl : targetLocked cfg fl.locked a.toNat cfg.ebSize = false) :
    applyErase cfg clock true a fl =
      { fl with
        cells := fl.cells.store cfg a.toNat (List.replicate cfg.ebSize erasedByte)
        erased := insertRange fl.erased a.toNat cfg.ebSize } := by
  simp [applyErase, hl]

/-- A successful write of an unlocked, freshly erased page. -/
theorem applyPageWrite_success {cfg : Config} {clock : Nat} {a : Word} {d : List Byte} {fl : FlashCtl}
    (hl : targetLocked cfg fl.locked a.toNat d.length = false)
    (he : containsRange fl.erased a.toNat d.length = true) :
    applyPageWrite cfg clock true a d fl =
      { fl with cells := fl.cells.store cfg a.toNat d, erased := removeRange fl.erased a.toNat d.length } := by
  simp [applyPageWrite, hl, he]

/-- An erase that fails or meets a locked region. -/
theorem applyErase_scrambles {cfg : Config} {clock : Nat} {ok : Bool} {a : Word} {fl : FlashCtl}
    (h : ok = false ∨ targetLocked cfg fl.locked a.toNat cfg.ebSize = true) :
    applyErase cfg clock ok a fl = scramble cfg clock a.toNat cfg.ebSize fl := by
  rcases h with h | h <;> simp [applyErase, h]

/-- A page write that fails, meets a locked region, or finds a byte not freshly erased. -/
theorem applyPageWrite_scrambles {cfg : Config} {clock : Nat} {ok : Bool} {a : Word} {d : List Byte} {fl : FlashCtl}
    (h : ok = false ∨ targetLocked cfg fl.locked a.toNat d.length = true ∨
      containsRange fl.erased a.toNat d.length = false) :
    applyPageWrite cfg clock ok a d fl = scramble cfg clock a.toNat d.length fl := by
  rcases h with h | h | h <;> simp [applyPageWrite, h]

theorem getD_set_self {l : List Bool} {i : Nat} {b : Bool} (h : l.getD i false = false → b = false) :
    (l.set i b).getD i false = b := by
  by_cases hi : i < l.length
  · simp [List.getD_eq_getElem?_getD, List.getElem?_set_self hi]
  · simp [List.getD_eq_getElem?_getD, hi, h]

theorem getD_set_ne {l : List Bool} {i k : Nat} {b : Bool} (h : k ≠ i) : (l.set i b).getD k false = l.getD k false := by
  simp only [List.getD_eq_getElem?_getD, List.getElem?_set_ne (Ne.symm h)]

/-! How the array reads -/

theorem inFlightAt_none {s : State} (h : s.fl.inFlight = none) (a : Nat) : s.inFlightAt a = false := by
  simp [State.inFlightAt, h]

theorem inFlightAt_some {s : State} {op : FlashOp} (h : s.fl.inFlight = some op) (a : Nat) :
    s.inFlightAt a = decide ((op.target s.cfg).1 ≤ a ∧ a < (op.target s.cfg).1 + (op.target s.cfg).2) := by
  simp [State.inFlightAt, h]

/-- Where nothing in flight targets the byte, it reads as its cell. -/
theorem flashByte_settled {s : State} {a : Nat} (h : s.inFlightAt a = false) :
    s.flashByte a = if s.cfg.inArray a then s.fl.cells.read a else Config.unmappedByte a := by
  simp [State.flashByte, h]

/-- The view depends on the configuration, the cells, the operation in flight and the step count. -/
theorem flashByte_congr {s t : State} (hc : t.cfg = s.cfg) (hf : t.fl.cells = s.fl.cells)
    (hi : t.fl.inFlight = s.fl.inFlight) (hk : t.clock = s.clock) (a : Nat) : t.flashByte a = s.flashByte a := by
  simp [State.flashByte, State.inFlightAt, hc, hf, hi, hk]

/-- The view of a settled byte does not depend on the step count. -/
theorem flashByte_congr_settled {s t : State} {a : Nat} (hc : t.cfg = s.cfg)
    (hf : t.fl.cells.read a = s.fl.cells.read a) (hs : s.inFlightAt a = false) (ht : t.inFlightAt a = false) :
    t.flashByte a = s.flashByte a := by
  rw [flashByte_settled hs, flashByte_settled ht, hc, hf]

/-- A completion leaves what the bytes outside its target read as. -/
theorem flashByte_flashComplete_outside {ok : Bool} {n : Nat} {s : State} {op : FlashOp} (hm : s.fl.cells.wf = true)
    (h : s.fl.inFlight = some op) {a : Nat}
    (ha : ¬((op.target s.cfg).1 ≤ a ∧ a < (op.target s.cfg).1 + (op.target s.cfg).2)) :
    (flashComplete ok n s).flashByte a = s.flashByte a := by
  rcases flashComplete_cases ok n s with ⟨h1, _⟩ | ⟨op', fl', h1, ap, e⟩
  · rw [h] at h1; cases h1
  · rw [h] at h1
    cases h1
    obtain ⟨bs, hl, hc⟩ := ap.cells
    rw [e]
    refine flashByte_congr_settled rfl ?_ ?_ (inFlightAt_none rfl a)
    · simp only [hc]; exact Memory.read_store_outside _ hm (by omega)
    · rw [inFlightAt_some h]; simpa using ha

end Sys2Proof.Machine
end

