-- ==== Sys2Proof/Laws/PerInstr.lean ====
section
/-! SUPPORT. Per instruction: its encoding has the format, `match` and `mask` of its row of the opcode table. -/

namespace Sys2Proof.Laws.TableRow

/-- The five formats of the opcode table. -/
inductive Format where
  | frameHeader
  | frameCmd
  | response
  | frPcv
  | seqState
  deriving DecidableEq, Repr

/-- The format of a code. -/
def format : Code → Format
  | .header _ => .frameHeader
  | .frame _ => .frameCmd
  | .response _ => .response
  | .poll _ => .frPcv
  | .seq _ => .seqState

/-- What `match` and `mask` apply to: the assembled guard, the command byte, the response, the vector, the state code. -/
def key (cfg : Config) : Code → Word
  | .header bs => asm32At cfg.fieldOrder (bytesAt bs) 0
  | .frame bs => (bytesAt bs 8).setWidth 32
  | .response b => b.setWidth 32
  | .poll w => w.pcv.setWidth 32
  | .seq c => c.setWidth 32

/-- The row of spec/opcode_table.json: format, match, mask. -/
def row (cfg : Config) : Instr → Format × Word × Word
  | .frameHeader _ _ _ => (.frameHeader, cfg.guard, 0xFFFFFFFF)
  | .unlock _ _ => (.frameCmd, 0xA0, 0xFF)
  | .data _ _ _ => (.frameCmd, 0xA1, 0xFF)
  | .verify _ => (.frameCmd, 0xA2, 0xFF)
  | .reset => (.frameCmd, 0xA3, 0xFF)
  | .bkswapReset => (.frameCmd, 0xA4, 0xFF)
  | .unknownCmd _ => (.frameCmd, 0x00, 0x00)
  | .rspOk => (.response, 0x50, 0xFF)
  | .rspError => (.response, 0x51, 0xFF)
  | .rspInvalid => (.response, 0x52, 0xFF)
  | .rspCrcOk => (.response, 0x53, 0xFF)
  | .rspCrcFail => (.response, 0x54, 0xFF)
  | .frIdle => (.frPcv, 0b0000, 0b1100)
  | .frTmo => (.frPcv, 0b0100, 0b0100)
  | .frDrop => (.frPcv, 0b1010, 0b1010)
  | .frHdrByteAcc => (.frPcv, 0b1000, 0b1011)
  | .frHdrByteMismatch => (.frPcv, 0b1000, 0b1011)
  | .frHdrByteMatch => (.frPcv, 0b1000, 0b1011)
  | .frBodyByte => (.frPcv, 0b1001, 0b1011)
  | .sPoll => (.seqState, 0b000, 0b111)
  | .sDispatch => (.seqState, 0b001, 0b111)
  | .sCheck => (.seqState, 0b010, 0b111)
  | .sUnlock => (.seqState, 0b011, 0b111)
  | .sErase => (.seqState, 0b100, 0b111)
  | .sPage => (.seqState, 0b101, 0b111)
  | .sFinal => (.seqState, 0b110, 0b111)
  | .sTxwait => (.seqState, 0b111, 0b111)

/-- The encoding of a well-formed instruction is a word of its row. -/
def Statement (i : Instr) : Prop :=
  ∀ cfg : Config, i.wf cfg = true →
    format (encode cfg i) = (row cfg i).1 ∧ key cfg (encode cfg i) &&& (row cfg i).2.2 = (row cfg i).2.1

/-- The command byte of an encoded frame. -/
theorem key_frame (cfg : Config) (c : Byte) (p : List Byte) : key cfg (.frame (frameBytes cfg c p)) = c.setWidth 32 := by
  simp only [key, frameBytes, (header_fields cfg.fieldOrder cfg.guard _ c p).2.2]

theorem frameHeader (guard size : Word) (cmd : Byte) : Statement (.frameHeader guard size cmd) := fun cfg h => by
  have hg : guard = cfg.guard := by simpa [Instr.wf] using h
  have hf := (header_fields cfg.fieldOrder guard size cmd []).1
  rw [List.append_nil] at hf
  refine ⟨rfl, ?_⟩
  have hk : key cfg (encode cfg (.frameHeader guard size cmd)) = cfg.guard := hf.trans hg
  rw [hk]
  exact BitVec.and_allOnes (x := cfg.guard)

theorem unlock (addr size : Word) : Statement (.unlock addr size) := fun _ _ => ⟨rfl, by rw [encode, key_frame]; simp only [row]; decide⟩

theorem data (fSize addr : Word) (block : List Byte) : Statement (.data fSize addr block) := fun _ _ => ⟨rfl, by rw [encode, key_frame]; simp only [row]; decide⟩

theorem verify (crc : Word) : Statement (.verify crc) := fun _ _ => ⟨rfl, by rw [encode, key_frame]; simp only [row]; decide⟩

theorem reset : Statement .reset := fun _ _ => ⟨rfl, by rw [encode, key_frame]; simp only [row]; decide⟩

theorem bkswapReset : Statement .bkswapReset := fun _ _ => ⟨rfl, by rw [encode, key_frame]; simp only [row]; decide⟩

theorem unknownCmd (cmd : Byte) : Statement (.unknownCmd cmd) := fun _ _ => ⟨rfl, BitVec.and_zero⟩

theorem rspOk : Statement .rspOk := fun _ _ => ⟨rfl, by simp only [encode, key, row]; decide⟩

theorem rspError : Statement .rspError := fun _ _ => ⟨rfl, by simp only [encode, key, row]; decide⟩

theorem rspInvalid : Statement .rspInvalid := fun _ _ => ⟨rfl, by simp only [encode, key, row]; decide⟩

theorem rspCrcOk : Statement .rspCrcOk := fun _ _ => ⟨rfl, by simp only [encode, key, row]; decide⟩

theorem rspCrcFail : Statement .rspCrcFail := fun _ _ => ⟨rfl, by simp only [encode, key, row]; decide⟩

theorem frIdle : Statement .frIdle := fun _ _ => ⟨rfl, by simp only [encode, key, row]; decide⟩

theorem frTmo : Statement .frTmo := fun _ _ => ⟨rfl, by simp only [encode, key, row]; decide⟩

theorem frDrop : Statement .frDrop := fun _ _ => ⟨rfl, by simp only [encode, key, row]; decide⟩

theorem frHdrByteAcc : Statement .frHdrByteAcc := fun _ _ => ⟨rfl, by simp only [encode, key, row]; decide⟩

theorem frHdrByteMismatch : Statement .frHdrByteMismatch := fun _ _ => ⟨rfl, by simp only [encode, key, row]; decide⟩

theorem frHdrByteMatch : Statement .frHdrByteMatch := fun _ _ => ⟨rfl, by simp only [encode, key, row]; decide⟩

theorem frBodyByte : Statement .frBodyByte := fun _ _ => ⟨rfl, by simp only [encode, key, row]; decide⟩

theorem sPoll : Statement .sPoll := fun _ _ => ⟨rfl, by simp only [encode, key, row]; decide⟩

theorem sDispatch : Statement .sDispatch := fun _ _ => ⟨rfl, by simp only [encode, key, row]; decide⟩

theorem sCheck : Statement .sCheck := fun _ _ => ⟨rfl, by simp only [encode, key, row]; decide⟩

theorem sUnlock : Statement .sUnlock := fun _ _ => ⟨rfl, by simp only [encode, key, row]; decide⟩

theorem sErase : Statement .sErase := fun _ _ => ⟨rfl, by simp only [encode, key, row]; decide⟩

theorem sPage : Statement .sPage := fun _ _ => ⟨rfl, by simp only [encode, key, row]; decide⟩

theorem sFinal : Statement .sFinal := fun _ _ => ⟨rfl, by simp only [encode, key, row]; decide⟩

theorem sTxwait : Statement .sTxwait := fun _ _ => ⟨rfl, by simp only [encode, key, row]; decide⟩

end Sys2Proof.Laws.TableRow
end

