-- ==== Sys2Proof/Laws/Receiver.lean ====
section
/-! SUPPORT. What the receiver's shared operations can do, said once: taking a byte, the header's effect, the poll's choice. -/

namespace Sys2Proof.Machine

/-! The poll's choice -/

/-- The operation of a vector, by its four bits and the conditions beside it. -/
theorem decodePoll_pcvOf (r t c b n g f : Bool) :
    decodePoll ⟨pcvOf r t c b, n, g, f⟩ =
      if t && (f || !r) then .tmo
      else if !r then .idle
      else if c then .drop
      else if b then .body
      else if !n then .hdrAcc
      else if g then .hdrMatch
      else .hdrMismatch := by
  revert r t c b n g f
  decide

/-- The operation a poll performs, by the state. -/
theorem decodePoll_pollWord (s : State) :
    decodePoll s.pollWord =
      if s.tmoFlag && (s.pollTmoFirst || !s.rxReady) then .tmo
      else if !s.rxReady then .idle
      else if s.rx.frameComplete then .drop
      else if s.rx.rxState.bit then .body
      else if !decide (8 ≤ s.rx.cursor.toNat) then .hdrAcc
      else if s.guardOk then .hdrMatch
      else .hdrMismatch := decodePoll_pcvOf ..

/-- A poll selects an operation whose condition holds, as long as the cursor stays within the header. -/
theorem frEnabled_decodePoll {s : State} (h : s.rx.rxState = .awaitingHeader → s.rx.cursor.toNat ≤ 8) :
    s.frEnabled (decodePoll s.pollWord) = true := by
  rw [decodePoll_pollWord]
  split
  · next h1 => simp_all [State.frEnabled]
  · split
    · next h2 => simp_all [State.frEnabled]
    · split
      · simp_all [State.frEnabled]
      · cases hst : s.rx.rxState with
        | awaitingBody => simp_all [State.frEnabled, RxState.bit]
        | awaitingHeader =>
          have h8 := h hst
          by_cases hcur : 8 ≤ s.rx.cursor.toNat
          · have h9 : s.rx.cursor.toNat = 8 := by omega
            cases hg : s.guardOk <;> simp_all [State.frEnabled, RxState.bit]
          · have h9 : s.rx.cursor.toNat ≤ 7 := by omega
            simp_all [State.frEnabled, RxState.bit]

/-! Taking a byte -/

theorem rxReady_iff (s : State) : s.rxReady = true ↔ ∃ b q, s.link.rxQ = b :: q := by
  cases h : s.link.rxQ <;> simp [State.rxReady, h]

theorem rxReady_cons {s : State} {b : Byte} {q : List Byte} (h : s.link.rxQ = b :: q) : s.rxReady = true := by
  simp [State.rxReady, h]

/-- An enabled operation that takes a byte takes the oldest one. -/
theorem withByte_eq {op : FrOp} {s : State} {b : Byte} {q : List Byte} (f : Byte → State → State)
    (he : s.frEnabled op = true) (hq : s.link.rxQ = b :: q) :
    withByte op s f = .next (f b { s with link.rxQ := q }) := by
  simp [withByte, he, linkRead, hq]

/-- If an operation that takes a byte answers next, its condition held and it took the oldest byte. -/
theorem withByte_next {op : FrOp} {s t : State} {f : Byte → State → State} (h : withByte op s f = .next t) :
    s.frEnabled op = true ∧ ∃ b q, s.link.rxQ = b :: q ∧ t = f b { s with link.rxQ := q } := by
  unfold withByte at h
  split at h
  · next he =>
    cases hq : s.link.rxQ with
    | nil => simp [linkRead, hq] at h
    | cons b q =>
      simp only [linkRead, hq, Host.Outcome.next.injEq] at h
      exact ⟨he, b, q, rfl, h.symm⟩
  · simp at h

theorem withByte_not_fault {op : FrOp} {s : State} {f : Byte → State → State} {e : Fault} :
    withByte op s f ≠ .fault e := by
  unfold withByte
  split
  · cases s.link.rxQ <;> simp [linkRead] <;> split <;> simp
  · simp

/-! The header's effect -/

/-- What a header can do: one of the three outcomes of R82 and R83. -/
theorem headerEffect_cases (g z : Word) (c : Byte) (s : State) :
    (g ≠ s.cfg.guard ∧ headerEffect g z c s = linkWrite rspError { s with rx.cursor := 0 }) ∨
    (g = s.cfg.guard ∧ z = 0 ∧
      headerEffect g z c s = { s with rx.cursor := 0, rx.fSize := 0, rx.fCmd := c, rx.frameComplete := true }) ∨
    (g = s.cfg.guard ∧ z ≠ 0 ∧
      headerEffect g z c s = { s with rx.cursor := 0, rx.fSize := z, rx.fCmd := c, rx.rxState := .awaitingBody }) := by
  unfold headerEffect
  by_cases hg : g = s.cfg.guard
  · by_cases hz : z = 0
    · exact .inr (.inl ⟨hg, hz, by rw [if_pos hg]; simp [hz]⟩)
    · exact .inr (.inr ⟨hg, hz, by simp only [if_pos hg, if_neg hz]⟩)
  · exact .inl ⟨hg, by rw [if_neg hg]⟩

/-- Storing the ninth byte leaves the collected guard. -/
theorem hdrGuard_storeHeader_eight (b : Byte) (s : State) : (storeHeader 8 b s).hdrGuard = s.hdrGuard := by
  simp [State.hdrGuard, storeHeader]

theorem guardOk_iff (s : State) : s.guardOk = true ↔ s.hdrGuard = s.cfg.guard := by
  simp [State.guardOk, State.hdrGuard]

/-! The frame of a receiver operation -/

/-- A receiver operation changes the receiver, the timer's flag and the link only. -/
structure OnlyReceiver (s t : State) : Prop where
  cfg : t.cfg = s.cfg
  fps : t.fps = s.fps
  ses : t.ses = s.ses
  fl : t.fl = s.fl
  ended : t.ended = s.ended
  sched : t.sched = s.sched
  pollTmoFirst : t.pollTmoFirst = s.pollTmoFirst
  clock : t.clock = s.clock

theorem OnlyReceiver.refl (s : State) : OnlyReceiver s s := ⟨rfl, rfl, rfl, rfl, rfl, rfl, rfl, rfl⟩

theorem onlyReceiver_headerEffect (g z : Word) (c : Byte) (s : State) : OnlyReceiver s (headerEffect g z c s) := by
  rcases headerEffect_cases g z c s with ⟨_, h⟩ | ⟨_, _, h⟩ | ⟨_, _, h⟩ <;> rw [h] <;> constructor <;> rfl

theorem onlyReceiver_runFr {op : FrOp} {s t : State} (h : runFr op s = .next t) : OnlyReceiver s t := by
  cases op with
  | idle =>
    simp only [runFr, execFrIdle] at h
    split at h
    · cases h; exact .refl s
    · cases h
  | tmo =>
    simp only [runFr, execFrTmo] at h
    split at h
    · cases h; constructor <;> rfl
    · cases h
  | drop => obtain ⟨_, b, q, _, rfl⟩ := withByte_next h; constructor <;> rfl
  | hdrAcc => obtain ⟨_, b, q, _, rfl⟩ := withByte_next h; constructor <;> rfl
  | hdrMismatch =>
    obtain ⟨_, b, q, _, rfl⟩ := withByte_next h
    have := onlyReceiver_headerEffect (storeHeader 8 b (timerRestart { s with link.rxQ := q })).hdrGuard
      (storeHeader 8 b (timerRestart { s with link.rxQ := q })).hdrSize
      (storeHeader 8 b (timerRestart { s with link.rxQ := q })).hdrCmd (storeHeader 8 b (timerRestart { s with link.rxQ := q }))
    exact ⟨this.cfg, this.fps, this.ses, this.fl, this.ended, this.sched, this.pollTmoFirst, this.clock⟩
  | hdrMatch =>
    obtain ⟨_, b, q, _, rfl⟩ := withByte_next h
    have := onlyReceiver_headerEffect (storeHeader 8 b (timerRestart { s with link.rxQ := q })).hdrGuard
      (storeHeader 8 b (timerRestart { s with link.rxQ := q })).hdrSize
      (storeHeader 8 b (timerRestart { s with link.rxQ := q })).hdrCmd (storeHeader 8 b (timerRestart { s with link.rxQ := q }))
    exact ⟨this.cfg, this.fps, this.ses, this.fl, this.ended, this.sched, this.pollTmoFirst, this.clock⟩
  | body =>
    obtain ⟨_, b, q, _, rfl⟩ := withByte_next h
    dsimp only
    split <;> constructor <;> rfl

/-- A receiver operation never faults. -/
theorem runFr_not_fault {op : FrOp} {s : State} {e : Fault} : runFr op s ≠ .fault e := by
  cases op with
  | idle => simp only [runFr, execFrIdle]; split <;> simp
  | tmo => simp only [runFr, execFrTmo]; split <;> simp
  | drop => exact withByte_not_fault
  | hdrAcc => exact withByte_not_fault
  | hdrMismatch => exact withByte_not_fault
  | hdrMatch => exact withByte_not_fault
  | body => exact withByte_not_fault

end Sys2Proof.Machine
end

