-- ==== Sys2Proof/Laws/Step.lean ====
section
/-! SUPPORT. What a dispatch, a controller step and a step can do, each said once; later proofs take these cases instead of unfolding. -/

namespace Sys2Proof.Machine

/-! The control state selects its operation -/

theorem seqInstr_poll {s : State} (h : s.fps.seqState = .poll) : s.seqInstr = .sPoll := by
  simp only [State.seqInstr, h]; decide

theorem seqInstr_dispatch {s : State} (h : s.fps.seqState = .dispatch) : s.seqInstr = .sDispatch := by
  simp only [State.seqInstr, h]; decide

theorem seqInstr_check {s : State} (h : s.fps.seqState = .check) : s.seqInstr = .sCheck := by
  simp only [State.seqInstr, h]; decide

theorem seqInstr_unlock {s : State} (h : s.fps.seqState = .unlock) : s.seqInstr = .sUnlock := by
  simp only [State.seqInstr, h]; decide

theorem seqInstr_erase {s : State} (h : s.fps.seqState = .erase) : s.seqInstr = .sErase := by
  simp only [State.seqInstr, h]; decide

theorem seqInstr_page {s : State} (h : s.fps.seqState = .page) : s.seqInstr = .sPage := by
  simp only [State.seqInstr, h]; decide

theorem seqInstr_final {s : State} (h : s.fps.seqState = .final) : s.seqInstr = .sFinal := by
  simp only [State.seqInstr, h]; decide

theorem seqInstr_txwait {s : State} (h : s.fps.seqState = .txwait) : s.seqInstr = .sTxwait := by
  simp only [State.seqInstr, h]; decide

theorem flBusy_false_iff (s : State) : s.flBusy = false ↔ s.fl.inFlight = none := by
  cases h : s.fl.inFlight <;> simp [State.flBusy, h]

theorem txComplete_iff (s : State) : s.txComplete = true ↔ s.link.txPend = [] := by
  cases h : s.link.txPend <;> simp [State.txComplete, h]

/-! Dispatch -/

/-- What a dispatch that answers next can do. -/
inductive DispatchStep (s : State) : State → Prop where
  /-- A response and nothing else: a rejected DATA, a VERIFY, an unknown command. -/
  | answer (r : Byte) (hr : r ∈ [rspError, rspInvalid, rspCrcOk, rspCrcFail]) : DispatchStep s (respond r s)
  /-- An accepted UNLOCK. -/
  | window (b e : Nat) (addr size : Word) (hw : s.cfg.unlockAlign addr size = (b, e)) (hbe : b < e)
      (he : e ≤ s.cfg.flashLimit) :
      DispatchStep s (respond rspOk { s with ses.winBegin := BitVec.ofNat 32 b, ses.winEnd := BitVec.ofNat 32 e })
  /-- A rejected UNLOCK. -/
  | cleared : DispatchStep s (respond rspError { s with ses.winBegin := 0, ses.winEnd := 0 })
  /-- An accepted DATA. -/
  | staged (hc : s.rx.fCmd = cmdData) (addr : Word) (block : List Byte) (hl : block.length = s.cfg.ebSize)
      (hr : s.ses.stagedReady = false) :
      DispatchStep s (respond rspOk
        { s with
          ses.stagedAddr := BitVec.ofNat 32 (alignDown addr.toNat s.cfg.ebSize)
          ses.stagedData := block
          ses.stagedReady := true })
  /-- RESET or BKSWAP_RESET. -/
  | action (a : TxAction) : DispatchStep s (respond rspOk { s with fps.txAction := a })

theorem dispatch_next {s t : State} (h : dispatch s = .next t) : DispatchStep s t := by
  unfold dispatch at h
  split at h
  · simp only [execUnlock] at h
    split at h
    · next hw => cases h; exact .window _ _ _ _ rfl hw.1 hw.2
    · cases h; exact .cleared
  · split at h
    · next hc =>
      simp only [execData] at h
      split at h
      · cases h; exact .answer _ (by simp)
      · split at h
        · split at h
          · cases h
          · next hr => cases h; exact .staged hc _ _ (by simp [State.payBlock]) (by simpa using hr)
        · cases h; exact .answer _ (by simp)
    · split at h
      · simp only [execVerify] at h
        cases h
        refine .answer _ ?_
        split <;> simp
      · split at h
        · cases h; exact .action .systemReset
        · split at h
          · cases h; exact .action .bankSwap
          · cases h; exact .answer _ (by simp)

/-- A dispatch with no block pending answers next. -/
theorem dispatch_completes {s : State} (h : s.ses.stagedReady = false) : ∃ t, dispatch s = .next t := by
  unfold dispatch execUnlock execData execVerify execReset execBkswapReset execUnknownCmd
  simp only [h, Bool.false_eq_true, if_false]
  repeat' split
  all_goals exact ⟨_, rfl⟩

/-! The controller -/

/-- What a controller step that answers next can do, by its sequencer state. -/
inductive ControllerStep (s : State) : State → Prop where
  | poll (hs : s.fps.seqState = .poll) (u : State) (hu : frPoll s = .next u) : ControllerStep s (goto .dispatch u)
  | noFrame (hs : s.fps.seqState = .dispatch) (hf : s.rx.frameComplete = false) : ControllerStep s (goto .check s)
  | dispatch (hs : s.fps.seqState = .dispatch) (hf : s.rx.frameComplete = true) (u : State) (hu : DispatchStep s u) :
      ControllerStep s
        (goto (if s.rx.fCmd = cmdReset ∨ s.rx.fCmd = cmdBkswapReset then .txwait else .check) u)
  | noBlock (hs : s.fps.seqState = .check) (hr : s.ses.stagedReady = false) : ControllerStep s (goto .poll s)
  | start (hs : s.fps.seqState = .check) (hr : s.ses.stagedReady = true)
      (hin : s.cfg.flashBase + s.cfg.bootSize ≤ s.ses.stagedAddr.toNat)
      (hout : s.ses.stagedAddr.toNat + s.cfg.ebSize ≤ s.cfg.flashBase + s.cfg.flashLen) :
      ControllerStep s
        { s with
          fps.progAddr := s.ses.stagedAddr
          fps.rgn := BitVec.ofNat 32 ((s.ses.stagedAddr.toNat - s.cfg.flashBase) / s.cfg.regionSize)
          fps.rgnLast :=
            BitVec.ofNat 32 ((s.ses.stagedAddr.toNat + s.cfg.ebSize - 1 - s.cfg.flashBase) / s.cfg.regionSize)
          fps.seqState := .unlock }
  | busy (hs : s.fps.seqState.programming = true) (hb : s.fl.inFlight.isSome = true) (t : State)
      (ht : frPoll s = .next t) : ControllerStep s t
  | unlockLast (hs : s.fps.seqState = .unlock) (hb : s.fl.inFlight = none) (hr : s.fps.rgn = s.fps.rgnLast) :
      ControllerStep s { s with fl.inFlight := some (.unlock s.fps.rgn), fps.seqState := .erase }
  | unlockMore (hs : s.fps.seqState = .unlock) (hb : s.fl.inFlight = none) (hr : s.fps.rgn ≠ s.fps.rgnLast) :
      ControllerStep s { s with fl.inFlight := some (.unlock s.fps.rgn), fps.rgn := s.fps.rgn + 1 }
  | erase (hs : s.fps.seqState = .erase) (hb : s.fl.inFlight = none) :
      ControllerStep s { s with fl.inFlight := some (.erase s.fps.progAddr), fps.pg := 0, fps.seqState := .page }
  | pageLast (hs : s.fps.seqState = .page) (hb : s.fl.inFlight = none)
      (hp : (s.fps.pg + 1).toNat = s.cfg.pagesPerBlock) :
      ControllerStep s
        { s with fl.inFlight := some (.pageWrite s.pageAddr s.pageData), fps.pg := s.fps.pg + 1, fps.seqState := .final }
  | pageMore (hs : s.fps.seqState = .page) (hb : s.fl.inFlight = none)
      (hp : (s.fps.pg + 1).toNat ≠ s.cfg.pagesPerBlock) :
      ControllerStep s
        { s with fl.inFlight := some (.pageWrite s.pageAddr s.pageData), fps.pg := s.fps.pg + 1 }
  | final (hs : s.fps.seqState = .final) (hb : s.fl.inFlight = none) :
      ControllerStep s { s with ses.stagedReady := false, fps.seqState := .poll }
  | wait (hs : s.fps.seqState = .txwait) (hb : s.link.txPend ≠ []) : ControllerStep s s
  | finish (hs : s.fps.seqState = .txwait) (hb : s.link.txPend = []) (k : EndKind) : ControllerStep s (endRun k s)

theorem andThen_eq_next {r : Result} {f : State → State} {t : State} (h : andThen r f = .next t) :
    ∃ u, r = .next u ∧ t = f u := by
  cases r with
  | next u => exact ⟨u, rfl, by simpa using h.symm⟩
  | fault e => cases h
  | refused e => cases h

theorem inFlight_none_of_not_busy {s : State} (h : ¬s.flBusy = true) : s.fl.inFlight = none :=
  (flBusy_false_iff s).mp (by simpa using h)

theorem controller_next {s t : State} (h : exec s.seqInstr s = .next t) : ControllerStep s t := by
  cases hs : s.fps.seqState with
  | poll =>
    rw [seqInstr_poll hs] at h
    obtain ⟨u, hu, rfl⟩ := andThen_eq_next h
    exact .poll hs u hu
  | dispatch =>
    rw [seqInstr_dispatch hs] at h
    simp only [exec, execSDispatch] at h
    split at h
    · next hf =>
      obtain ⟨u, hu, rfl⟩ := andThen_eq_next h
      exact .dispatch hs hf u (dispatch_next hu)
    · next hf => cases h; exact .noFrame hs (by simpa using hf)
  | check =>
    rw [seqInstr_check hs] at h
    simp only [exec, execSCheck] at h
    split at h
    · next hr =>
      split at h
      · cases h
      · next ho =>
        split at h
        · cases h
        · next hb => cases h; exact .start hs hr (by omega) (by omega)
    · next hr => cases h; exact .noBlock hs (by simpa using hr)
  | unlock =>
    rw [seqInstr_unlock hs] at h
    simp only [exec, execSUnlock] at h
    split at h
    · next hb => exact .busy (by rw [hs]; rfl) hb t h
    · next hb =>
      have hn := inFlight_none_of_not_busy hb
      split at h
      · next hr => cases h; exact .unlockLast hs hn hr
      · next hr => cases h; exact .unlockMore hs hn hr
  | erase =>
    rw [seqInstr_erase hs] at h
    simp only [exec, execSErase] at h
    split at h
    · next hb => exact .busy (by rw [hs]; rfl) hb t h
    · next hb => cases h; exact .erase hs (inFlight_none_of_not_busy hb)
  | page =>
    rw [seqInstr_page hs] at h
    simp only [exec, execSPage] at h
    split at h
    · next hb => exact .busy (by rw [hs]; rfl) hb t h
    · next hb =>
      have hn := inFlight_none_of_not_busy hb
      split at h
      · next hp => cases h; exact .pageLast hs hn hp
      · next hp => cases h; exact .pageMore hs hn hp
  | final =>
    rw [seqInstr_final hs] at h
    simp only [exec, execSFinal] at h
    split at h
    · next hb => exact .busy (by rw [hs]; rfl) hb t h
    · next hb => cases h; exact .final hs (inFlight_none_of_not_busy hb)
  | txwait =>
    rw [seqInstr_txwait hs] at h
    simp only [exec, execSTxwait] at h
    split at h
    · next hb =>
      have hn := (txComplete_iff s).mp hb
      split at h <;> cases h
      · exact .finish hs hn .systemReset
      · exact .finish hs hn .bankSwapRestart
    · next hb => cases h; exact .wait hs fun hn => hb ((txComplete_iff s).mpr hn)

/-! The machine -/

/-- The state a step's move acts on: it has left the schedule, the step count has advanced, a controller's move has settled the
race choice. -/
def State.moved (s : State) : State :=
  match s.nextMove with
  | .controller f => { s.begin with pollTmoFirst := f }
  | .hostByte _ => s.begin
  | .timerExpire => s.begin
  | .flashDone _ _ => s.begin
  | .linkSent => s.begin
  | .launch _ _ => s.begin

/-- What a step that answers next can do. -/
inductive MachineStep (s : State) : State → Prop where
  | controller (f : Bool) (hm : s.nextMove = .controller f) (he : s.ended = none) (t : State)
      (ht : ControllerStep s.moved t) : MachineStep s t
  | runOver (f : Bool) (hm : s.nextMove = .controller f) (k : EndKind) (he : s.ended = some k) : MachineStep s s.moved
  | agent (hm : ∀ f, s.nextMove ≠ .controller f) : MachineStep s (agentMove s.nextMove s.moved)

theorem step_next {s t : State} (h : step s = .next t) : s.cfg.valid = true ∧ MachineStep s t := by
  unfold step at h
  split at h
  · next hv =>
    refine ⟨hv, ?_⟩
    cases hm : s.nextMove with
    | controller f =>
      simp only [hm] at h
      have hmv : s.moved = { s.begin with pollTmoFirst := f } := by simp [State.moved, hm]
      unfold controllerMove at h
      rw [← hmv] at h
      cases he : s.ended with
      | none =>
        have he' : s.moved.ended = none := by rw [hmv]; simpa using he
        simp only [he'] at h
        exact .controller f hm he t (controller_next h)
      | some k =>
        have he' : s.moved.ended = some k := by rw [hmv]; simpa using he
        simp only [he'] at h
        cases h
        exact .runOver f hm k he
    | hostByte b => simp only [hm] at h; cases h; have := MachineStep.agent (s := s) (by simp [hm])
                    simpa only [State.moved, hm] using this
    | timerExpire => simp only [hm] at h; cases h; have := MachineStep.agent (s := s) (by simp [hm])
                     simpa only [State.moved, hm] using this
    | flashDone a b => simp only [hm] at h; cases h; have := MachineStep.agent (s := s) (by simp [hm])
                       simpa only [State.moved, hm] using this
    | linkSent => simp only [hm] at h; cases h; have := MachineStep.agent (s := s) (by simp [hm])
                  simpa only [State.moved, hm] using this
    | launch a b => simp only [hm] at h; cases h; have := MachineStep.agent (s := s) (by simp [hm])
                    simpa only [State.moved, hm] using this
  · cases h

/-- A move leaves everything but the model's own fields as it was when it begins. -/
structure SameMachine (s t : State) : Prop where
  cfg : t.cfg = s.cfg
  rx : t.rx = s.rx
  fps : t.fps = s.fps
  ses : t.ses = s.ses
  link : t.link = s.link
  tmoFlag : t.tmoFlag = s.tmoFlag
  fl : t.fl = s.fl
  ended : t.ended = s.ended

theorem sameMachine_moved (s : State) : SameMachine s s.moved := by
  unfold State.moved
  split <;> constructor <;> rfl

/-- A completion is a step of the flash controller's own. -/
theorem step_flashDone {s : State} {ok : Bool} {n : Nat} (hv : s.cfg.valid = true) (hm : s.nextMove = .flashDone ok n) :
    step s = .next (flashComplete ok n s.begin) := by
  simp only [step, hv, if_true, hm, agentMove]

/-- A launch while a run goes on, or while the flash controller is busy, changes nothing. -/
theorem agentMove_launch_disabled {s : State} (h : s.ended = none ∨ s.fl.inFlight.isSome = true) (l : List Bool)
    (m : Bool) : agentMove (.launch l m) s = s := by
  rcases h with h | h <;> simp [agentMove, State.flBusy, h]

/-- A controller's step in a run is its selected operation's. -/
theorem step_controller {s : State} {f : Bool} (hv : s.cfg.valid = true) (hm : s.nextMove = .controller f)
    (he : s.ended = none) : step s = exec s.moved.seqInstr s.moved := by
  have hmv : s.moved = { s.begin with pollTmoFirst := f } := by simp [State.moved, hm]
  unfold step controllerMove
  simp only [hv, if_true, hm]
  rw [← hmv, State_begin_ended, he]

/-! Infinite runs -/

@[simp] theorem withMove_nextMove (m : Move) (s : State) : (s.withMove m).nextMove = m := rfl
@[simp] theorem withMove_cfg (m : Move) (s : State) : (s.withMove m).cfg = s.cfg := rfl
@[simp] theorem withMove_rx (m : Move) (s : State) : (s.withMove m).rx = s.rx := rfl
@[simp] theorem withMove_fps (m : Move) (s : State) : (s.withMove m).fps = s.fps := rfl
@[simp] theorem withMove_ses (m : Move) (s : State) : (s.withMove m).ses = s.ses := rfl
@[simp] theorem withMove_link (m : Move) (s : State) : (s.withMove m).link = s.link := rfl
@[simp] theorem withMove_tmoFlag (m : Move) (s : State) : (s.withMove m).tmoFlag = s.tmoFlag := rfl
@[simp] theorem withMove_fl (m : Move) (s : State) : (s.withMove m).fl = s.fl := rfl
@[simp] theorem withMove_ended (m : Move) (s : State) : (s.withMove m).ended = s.ended := rfl
@[simp] theorem withMove_sched (m : Move) (s : State) : (s.withMove m).sched = [m] := rfl
@[simp] theorem withMove_pollTmoFirst (m : Move) (s : State) : (s.withMove m).pollTmoFirst = s.pollTmoFirst := rfl
@[simp] theorem withMove_clock (m : Move) (s : State) : (s.withMove m).clock = s.clock := rfl

theorem txWaiting_iff (s : State) : s.txWaiting = true ↔ s.fps.seqState = .txwait ∧ s.link.txPend ≠ [] := by
  cases h : s.link.txPend <;> simp [State.txWaiting, State.txComplete, h]

end Sys2Proof.Machine
end

