-- ==== Sys2Proof/Tests/Slice0.lean ====
section
/-! SUPPORT. The model's own tests: well-formedness, words written out from the spec's encodings, one step of each operation from
the spec's vectors, and for every obligation with hypotheses a concrete state that meets them. -/

namespace Sys2Proof.Tests

open Sys2Proof.Machine

/-- The result is a next state with the property. -/
def nextHas (r : Result) (p : State → Bool) : Bool :=
  match r with
  | .next t => p t
  | .fault _ => false
  | .refused _ => false

/-- The result is the fault. -/
def faults (r : Result) (e : Fault) : Bool :=
  match r with
  | .next _ => false
  | .fault e' => decide (e = e')
  | .refused _ => false

/-- The result is the refusal. -/
def refuses (r : Result) (e : Refusal) : Bool :=
  match r with
  | .next _ => false
  | .fault _ => false
  | .refused e' => decide (e = e')

/-- A decoder's answer is the instruction. -/
def reads (r : Except Reject Instr) (i : Instr) : Bool :=
  match r with
  | .ok j => decide (i = j)
  | .error _ => false

/-- A decoder's answer is the rejection. -/
def rejects (r : Except Reject Instr) (e : Reject) : Bool :=
  match r with
  | .ok _ => false
  | .error e' => decide (e = e')

/-- A block of 16 distinct bytes, `D` of 95_test_vectors.md S2. -/
def blockD : List Byte := [0, 1, 2, 3, 4, 5, 6, 7, 8, 9, 10, 11, 12, 13, 14, 15]

/-- Draws that no stored byte equals by chance. -/
def drawE : Nat → Byte := fun _ => 0xEE

/-! ## Well-formedness: each check refuses an ill-formed term (30_encoding.md R64, R65, R70; 41_frame_commands.md R96) -/

theorem test_wf_header_foreign_guard_refused : (Instr.frameHeader 0x11223345 0 0xA3).wf Config.test = false := by decide
theorem test_wf_data_short_block_refused : (Instr.data 20 0x20 (blockD.take 15)).wf Config.test = false := by decide
theorem test_wf_data_wrong_size_refused : (Instr.data 19 0x20 blockD).wf Config.test = false := by decide
theorem test_wf_unknown_assigned_refused : (Instr.unknownCmd 0xA4).wf Config.test = false := by decide
theorem test_wf_unlock_small_buffer_refused :
    (Instr.unlock 0 0).wf { Config.test with ebSize := 2, pageSize := 2 } = false := by decide
theorem test_wf_accepts :
    (Instr.frameHeader 0x11223344 0 0xA3).wf Config.test = true ∧ (Instr.data 20 0x20 blockD).wf Config.test = true ∧
      (Instr.unknownCmd 0x9F).wf Config.test = true ∧ (Instr.unknownCmd 0xA5).wf Config.test = true ∧
      (Instr.unlock 0x20 0x10).wf Config.test = true := by decide

/-! ## Decoding: words written out from 30_encoding.md R64 to R74 -/

/-- R64, R74: the header of RESET; and one with every field byte distinct. -/
theorem test_decode_header :
    reads (decode Config.test drawE (.header [0x44, 0x33, 0x22, 0x11, 0, 0, 0, 0, 0xA3])) (.frameHeader 0x11223344 0 0xA3) = true ∧
    reads (decode Config.test drawE (.header [0x44, 0x33, 0x22, 0x11, 0x01, 0x02, 0x03, 0x04, 0x05]))
      (.frameHeader 0x11223344 0x04030201 0x05) = true := by decide

/-- R14, 20_memory.md R41: the same header big-endian. -/
theorem test_decode_header_big :
    reads (decode { Config.test with fieldOrder := .big } drawE
      (.header [0x11, 0x22, 0x33, 0x44, 0x04, 0x03, 0x02, 0x01, 0xA3])) (.frameHeader 0x11223344 0x04030201 0xA3) = true := by decide

/-- R74. -/
theorem test_decode_unlock :
    reads (decode Config.test drawE (.frame [0x44, 0x33, 0x22, 0x11, 8, 0, 0, 0, 0xA0, 0x20, 0, 0, 0, 0x10, 0, 0, 0]))
      (.unlock 0x20 0x10) = true := by decide

/-- R74. -/
theorem test_decode_data :
    reads (decode Config.test drawE
      (.frame ([0x44, 0x33, 0x22, 0x11, 0x14, 0, 0, 0, 0xA1, 0x20, 0, 0, 0] ++ blockD))) (.data 20 0x20 blockD) = true := by decide

/-- R74. -/
theorem test_decode_verify :
    reads (decode Config.test drawE (.frame [0x44, 0x33, 0x22, 0x11, 4, 0, 0, 0, 0xA2, 0xEF, 0xBE, 0xAD, 0xDE]))
      (.verify 0xDEADBEEF) = true := by decide

/-- R67, R74. -/
theorem test_decode_reset_commands :
    reads (decode Config.test drawE (.frame [0x44, 0x33, 0x22, 0x11, 0, 0, 0, 0, 0xA3])) .reset = true ∧
    reads (decode Config.test drawE (.frame [0x44, 0x33, 0x22, 0x11, 0, 0, 0, 0, 0xA4])) .bkswapReset = true := by decide

/-- R67, R70: the values beside the assigned ones. -/
theorem test_decode_unknown :
    reads (decode Config.test drawE (.frame [0x44, 0x33, 0x22, 0x11, 0, 0, 0, 0, 0x9F])) (.unknownCmd 0x9F) = true ∧
    reads (decode Config.test drawE (.frame [0x44, 0x33, 0x22, 0x11, 0, 0, 0, 0, 0xA5])) (.unknownCmd 0xA5) = true := by decide

/-- 41_frame_commands.md R101, 95_test_vectors.md W17: the size word of a short UNLOCK is a draw. -/
theorem test_decode_short_unlock_draws :
    reads (decode Config.test drawE (.frame [0x44, 0x33, 0x22, 0x11, 4, 0, 0, 0, 0xA0, 0x20, 0, 0, 0]))
      (.unlock 0x20 0xEEEEEEEE) = true := by decide

/-- R66. -/
theorem test_decode_responses :
    reads (decodeResponse 0x50) .rspOk = true ∧ reads (decodeResponse 0x51) .rspError = true ∧
    reads (decodeResponse 0x52) .rspInvalid = true ∧ reads (decodeResponse 0x53) .rspCrcOk = true ∧
    reads (decodeResponse 0x54) .rspCrcFail = true := by decide

/-- R72. -/
theorem test_decode_sequencer_codes :
    [0, 1, 2, 3, 4, 5, 6, 7].map decodeSeq = [.sPoll, .sDispatch, .sCheck, .sUnlock, .sErase, .sPage, .sFinal, .sTxwait] := by decide

/-- 95_test_vectors.md section 2: the 16 vectors, the byte first where both events are visible. -/
theorem test_decode_poll_byte_first :
    ([0b0000, 0b0001, 0b0010, 0b0011, 0b0100, 0b0101, 0b0110, 0b0111, 0b1000, 0b1001, 0b1010, 0b1011, 0b1100, 0b1101, 0b1110,
      0b1111].map fun v => decodePoll ⟨v, false, false, false⟩) =
    [.idle, .idle, .idle, .idle, .tmo, .tmo, .tmo, .tmo, .hdrAcc, .body, .drop, .drop, .hdrAcc, .body, .drop, .drop] := by decide

/-- The same, the timeout first; and the three header-byte rows (40_frame_receiver.md R81 to R83). -/
theorem test_decode_poll_choices :
    ([0b1100, 0b1101, 0b1110, 0b1111].map fun v => decodePoll ⟨v, false, false, true⟩) = [.tmo, .tmo, .tmo, .tmo] ∧
    decodePoll ⟨0b1000, false, true, false⟩ = .hdrAcc ∧ decodePoll ⟨0b1000, true, false, false⟩ = .hdrMismatch ∧
    decodePoll ⟨0b1000, true, true, false⟩ = .hdrMatch := by decide

/-- R63, R64, R66, R70: what is not an operation. -/
theorem test_decode_rejects :
    rejects (decode Config.test drawE (.header [0x44, 0x33, 0x22, 0x11, 0, 0, 0, 0])) .headerLength = true ∧
    rejects (decode Config.test drawE (.header [0x45, 0x33, 0x22, 0x11, 0, 0, 0, 0, 0xA3])) .badGuard = true ∧
    rejects (decode Config.test drawE (.frame [0x11, 0x22, 0x33, 0x44, 0, 0, 0, 0, 0xA3])) .badGuard = true ∧
    rejects (decode Config.test drawE (.frame [0x44, 0x33, 0x22, 0x11, 4, 0, 0, 0, 0xA2, 0xEF])) .truncated = true ∧
    rejects (decode Config.test drawE (.frame [0x44, 0x33, 0x22, 0x11, 0, 0, 0, 0, 0xA3, 0x7E])) .trailing = true ∧
    rejects (decodeResponse 0x4F) .noResponse = true ∧ rejects (decodeResponse 0x55) .noResponse = true := by decide

/-- The host's table words (spec/opcode_table.json), where the formats do not share a word (log 22). -/
theorem test_table_words :
    decodeTableWord 8 0x50 = some .rspOk ∧ decodeTableWord 8 0x54 = some .rspCrcFail ∧ decodeTableWord 8 0xA3 = some .reset ∧
    decodeTableWord 8 0xA0 = some (.unlock 0 0) ∧ decodeTableWord 8 0x99 = some (.unknownCmd 0x99) ∧
    decodeTableWord 8 7 = some .sTxwait ∧ decodeTableWord 8 0b1010 = some .frDrop ∧ decodeTableWord 8 0b1001 = some .frBodyByte ∧
    decodeTableWord 32 0x11223344 = some (.frameHeader 0x11223344 0 0) := by decide

/-! ## Frame Receiver steps (95_test_vectors.md section 3) -/

/-- AwaitingHeader with `n` header bytes collected and these bytes waiting. -/
def collecting (hdr : List Byte) (n : Word) (q : List Byte) : State :=
  { State.reset with rx.hdrBuf := Vector.ofFn fun i : Fin 9 => bytesAt hdr i, rx.cursor := n, link.rxQ := q }

/-- V17 (R78). -/
theorem test_frIdle : nextHas (exec .frIdle (collecting [] 3 [])) (fun t => t = collecting [] 3 []) = true := by decide

/-- V16 (R79): a pending frame stays. -/
theorem test_frTmo_keeps_frame :
    nextHas (exec .frTmo { State.reset with tmoFlag := true, rx.frameComplete := true })
      (fun t => !t.tmoFlag && t.rx.frameComplete && t.rx.cursor = 0) = true := by decide

/-- V4 (R79): a half received body is abandoned, the stored bytes stay. -/
theorem test_frTmo_abandons_body :
    nextHas (exec .frTmo
        { State.reset with tmoFlag := true, rx.rxState := .awaitingBody, rx.cursor := 2, rx.fSize := 4, rx.payBuf := [0xEF, 0xBE] })
      (fun t => t.rx.rxState = .awaitingHeader && t.rx.cursor = 0 && t.rx.payBuf = [0xEF, 0xBE] && t.link.txPend = []) = true := by
  decide

/-- V5 (R80): the byte goes, the timer is not restarted. -/
theorem test_frDrop :
    nextHas (exec .frDrop { State.reset with rx.frameComplete := true, link.rxQ := [0x44, 0x33], tmoFlag := true })
      (fun t => t.link.rxQ = [0x33] && t.tmoFlag && t.rx.cursor = 0 && t.rx.hdrBuf = State.reset.rx.hdrBuf) = true := by decide

/-- V13 (R81): no check before byte 9. -/
theorem test_frHdrByteAcc :
    nextHas (exec .frHdrByteAcc (collecting [] 0 [0x45]))
      (fun t => t.rx.hdrBuf[0] = 0x45 && t.rx.cursor = 1 && t.link.txPend = []) = true := by decide

/-- V9, V14 (R82): a guard sent in the other byte order; size and command are not latched. -/
theorem test_frHdrByteMismatch :
    nextHas (exec .frHdrByteMismatch (collecting [0x11, 0x22, 0x33, 0x44, 0xFF, 0xFF, 0xFF, 0xFF] 8 [0xA3]))
      (fun t => t.link.txPend = [0x51] && t.rx.cursor = 0 && t.rx.fSize = 0 && t.rx.fCmd = 0 && !t.rx.frameComplete) = true := by
  decide

/-- V1 (R83): a frame without payload completes at its ninth byte. -/
theorem test_frHdrByteMatch_empty :
    nextHas (exec .frHdrByteMatch (collecting [0x44, 0x33, 0x22, 0x11, 0, 0, 0, 0] 8 [0xA3]))
      (fun t => t.rx.frameComplete && t.rx.fCmd = 0xA3 && t.rx.fSize = 0 && t.rx.rxState = .awaitingHeader) = true := by decide

/-- V4 (R83): a payload is awaited. -/
theorem test_frHdrByteMatch_body :
    nextHas (exec .frHdrByteMatch (collecting [0x44, 0x33, 0x22, 0x11, 4, 0, 0, 0] 8 [0xA2]))
      (fun t => !t.rx.frameComplete && t.rx.fCmd = 0xA2 && t.rx.fSize = 4 && t.rx.rxState = .awaitingBody && t.rx.cursor = 0) = true := by
  decide

/-- AwaitingBody at payload index `n` of `size`. -/
def body (n size : Word) (q : List Byte) : State :=
  { State.reset with rx.rxState := .awaitingBody, rx.cursor := n, rx.fSize := size, link.rxQ := q }

/-- V6 (R84): payload byte 20 is counted, not stored. -/
theorem test_frBodyByte_beyond_buffer :
    nextHas (exec .frBodyByte (body 20 22 [0x14]))
      (fun t => t.rx.cursor = 21 && t.rx.payBuf = List.replicate 20 0 && !t.rx.frameComplete) = true := by decide

/-- V8b (R84): the last byte is stored and completes the frame; the timer is restarted. -/
theorem test_frBodyByte_last :
    nextHas (exec .frBodyByte { body 3 4 [0xDE] with tmoFlag := true })
      (fun t => t.rx.payBuf[3]? = some 0xDE && t.rx.frameComplete && t.rx.rxState = .awaitingHeader && t.rx.cursor = 0 &&
        !t.tmoFlag) = true := by decide

/-- V8a (R85): with the timeout taken first the byte stays in the link. -/
theorem test_poll_timeout_first :
    nextHas (exec .sPoll { body 3 4 [0xDE] with tmoFlag := true, pollTmoFirst := true })
      (fun t => t.rx.rxState = .awaitingHeader && t.rx.cursor = 0 && !t.tmoFlag && t.link.rxQ = [0xDE]) = true := by decide

/-- The model's refusal outside a row's condition (log 16). -/
theorem test_fr_not_enabled : refuses (exec .frBodyByte (collecting [] 0 [0x45])) .notEnabled = true := by decide

/-! ## Header and response rows (30_encoding.md R64, R66) -/

theorem test_frameHeader_guards :
    nextHas (exec (.frameHeader 0x11223344 4 0xA2) State.reset)
      (fun t => t.rx.rxState = .awaitingBody && t.rx.fSize = 4 && t.rx.fCmd = 0xA2 && t.link.txPend = []) = true ∧
    nextHas (exec (.frameHeader 0x44332211 4 0xA2) State.reset)
      (fun t => t.rx.rxState = .awaitingHeader && t.rx.fSize = 0 && t.link.txPend = [0x51]) = true := by decide

theorem test_responses :
    [Instr.rspOk, .rspError, .rspInvalid, .rspCrcOk, .rspCrcFail].map
      (fun i => nextHas (exec i { State.reset with link.txPend := [0x52] }) fun t =>
        t.link.txPend.length = 2 && t.link.txPend[0]? = some 0x52 && !t.txComplete && !t.rx.frameComplete) =
    [true, true, true, true, true] := by decide

theorem test_response_bytes :
    [Instr.rspOk, .rspError, .rspInvalid, .rspCrcOk, .rspCrcFail].map
      (fun i => nextHas (exec i State.reset) fun t => decide (t.link.txPend ∈ [[0x50], [0x51], [0x52], [0x53], [0x54]])) =
    [true, true, true, true, true] ∧
    nextHas (exec .rspCrcFail State.reset) (fun t => t.link.txPend = [0x54]) = true := by decide

/-! ## Dispatcher contracts (95_test_vectors.md section 4) -/

/-- A window, nothing staged, a frame to dispatch. -/
def window (b e : Word) : State := { State.reset with ses.winBegin := b, ses.winEnd := e, rx.frameComplete := true }

/-- The window, the response and W19. -/
def answers (r : Result) (b e : Word) (rsp : Byte) : Bool :=
  nextHas r fun t => t.ses.winBegin = b && t.ses.winEnd = e && t.link.txPend = [rsp] && !t.rx.frameComplete

/-- W2, W5 (R94, R95). -/
theorem test_unlock_accepts :
    answers (exec (.unlock 0x27 0x19) (window 0 0)) 0x20 0x30 0x50 = true ∧
    answers (exec (.unlock 0xF0 0x10) (window 0 0)) 0xF0 0x100 0x50 = true := by decide

/-- W3, W4, W6 (R95, R103): rejected, and the window cleared. -/
theorem test_unlock_rejects :
    answers (exec (.unlock 0x20 0x0F) (window 0x20 0x30)) 0 0 0x51 = true ∧
    answers (exec (.unlock 0xF0 0x20) (window 0x20 0x30)) 0 0 0x51 = true ∧
    answers (exec (.unlock 0xFFFFFFF0 0x20) (window 0 0)) 0 0 0x51 = true := by decide

/-- W8 (R96). -/
theorem test_data_stages :
    nextHas (exec (.data 20 0x27 blockD) (window 0x20 0x30))
      (fun t => t.ses.stagedAddr = 0x20 && t.ses.stagedData = blockD && t.ses.stagedReady && t.link.txPend = [0x50] &&
        !t.rx.frameComplete) = true := by decide

/-- W9, W10, W11 (R96), and the fault of R102. -/
theorem test_data_rejects :
    nextHas (exec (.data 20 0x30 blockD) (window 0x20 0x30)) (fun t => !t.ses.stagedReady && t.link.txPend = [0x51]) = true ∧
    nextHas (exec (.data 20 0 blockD) (window 0 0)) (fun t => !t.ses.stagedReady && t.link.txPend = [0x51]) = true ∧
    nextHas (exec (.data 19 0x20 blockD) (window 0x20 0x30)) (fun t => !t.ses.stagedReady && t.link.txPend = [0x51]) = true ∧
    faults (exec (.data 20 0x20 blockD) { window 0x20 0x30 with ses.stagedReady := true }) .stagedOverwrite = true := by decide

/-- W13 (R97): the CRC of the empty window, whatever it is. -/
theorem test_verify_empty_window :
    ∃ t, exec (.verify (Config.hwCrc [])) (window 0 0) = .next t ∧ t.link.txPend = [0x53] ∧ t.rx.frameComplete = false := by
  have h : (window 0 0).windowBytes = [] := by decide
  refine ⟨respond rspCrcOk (window 0 0), ?_, rfl, rfl⟩
  simp only [exec, execVerify, h, if_true]

/-- W12b (R97): a different value answers CRC_FAIL. -/
theorem test_verify_mismatch :
    ∃ t, exec (.verify (Config.hwCrc [] ^^^ 1)) (window 0 0) = .next t ∧ t.link.txPend = [0x54] := by
  have h : (window 0 0).windowBytes = [] := by decide
  refine ⟨respond rspCrcFail (window 0 0), ?_, rfl⟩
  have hne : Config.hwCrc [] ≠ Config.hwCrc [] ^^^ 1 := by
    generalize Config.hwCrc [] = v
    intro hv
    have h0 := congrArg (fun x : Word => x.getLsbD 0) hv
    simp at h0
  simp only [exec, execVerify, h, if_neg hne]

/-- W14, W14b (R98, R99, 42_flash_sequencer.md R108). -/
theorem test_reset_commands :
    nextHas (exec .sDispatch (State.reset.withFrame 0xA3 0 []))
      (fun t => t.link.txPend = [0x50] && t.fps.txAction = .systemReset && t.fps.seqState = .txwait && !t.rx.frameComplete) = true ∧
    nextHas (exec .sDispatch (State.reset.withFrame 0xA4 0 []))
      (fun t => t.link.txPend = [0x50] && t.fps.txAction = .bankSwap && t.fps.seqState = .txwait && !t.rx.frameComplete) = true := by
  decide

/-- W15 (R100). -/
theorem test_unknownCmd :
    nextHas (exec .sDispatch (State.reset.withFrame 0x99 0 []))
      (fun t => t.link.txPend = [0x52] && t.fps.seqState = .check && !t.rx.frameComplete && !t.ses.stagedReady) = true := by decide

/-- W1 through S_DISPATCH, the operands read from the payload buffer (R68). -/
theorem test_dispatch_unlock :
    answers (exec .sDispatch (State.reset.withFrame 0xA0 8 [0x20, 0, 0, 0, 0x10, 0, 0, 0])) 0x20 0x30 0x50 = true := by decide

/-! ## Sequencer states (95_test_vectors.md section 5) -/

/-- A programming state of S2: block `blockD` staged at 0x20. -/
def programming (q : SeqState) (pg : Word) (op : Option FlashOp) : State :=
  { State.reset with
    fps.seqState := q
    fps.progAddr := 0x20
    fps.rgn := 1
    fps.rgnLast := 1
    fps.pg := pg
    ses.stagedAddr := 0x20
    ses.stagedData := blockD
    ses.stagedReady := true
    fl.inFlight := op }

/-- S1 and the example of R107. -/
theorem test_sPoll :
    nextHas (exec .sPoll State.reset) (fun t => t = { State.reset with fps.seqState := .dispatch }) = true ∧
    nextHas (exec .sPoll (collecting [] 0 [0x44])) (fun t => t.rx.hdrBuf[0] = 0x44 && t.fps.seqState = .dispatch) = true := by decide

/-- S1 (R108): nothing to dispatch. -/
theorem test_sDispatch_idle :
    nextHas (exec .sDispatch State.reset) (fun t => t = { State.reset with fps.seqState := .check }) = true := by decide

/-- S2 step 1 and S3 (R109, R114): one region; two regions finer than the block. -/
theorem test_sCheck_starts :
    nextHas (exec .sCheck (programming .check 0 none))
      (fun t => t.fps.progAddr = 0x20 && t.fps.rgn = 1 && t.fps.rgnLast = 1 && t.fps.seqState = .unlock) = true ∧
    nextHas (exec .sCheck { programming .check 0 none with cfg.regionSize := 8 })
      (fun t => t.fps.rgn = 4 && t.fps.rgnLast = 5 && t.fps.seqState = .unlock) = true := by decide

/-- S4, S5 (R109), and the block that ends the array. -/
theorem test_sCheck_stops :
    faults (exec .sCheck { programming .check 0 none with ses.stagedAddr := 0x100 }) .outsideFlash = true ∧
    faults (exec .sCheck { programming .check 0 none with ses.stagedAddr := 0x10 }) .selfOverwrite = true ∧
    nextHas (exec .sCheck { programming .check 0 none with ses.stagedAddr := 0xF0 }) (fun t => t.fps.seqState = .unlock) = true := by
  decide

/-- S2 step 2, S3 (R110). -/
theorem test_sUnlock :
    nextHas (exec .sUnlock (programming .unlock 0 none))
      (fun t => t.fl.inFlight = some (.unlock 1) && t.fps.seqState = .erase) = true ∧
    nextHas (exec .sUnlock { programming .unlock 0 none with fps.rgn := 4, fps.rgnLast := 5 })
      (fun t => t.fl.inFlight = some (.unlock 4) && t.fps.rgn = 5 && t.fps.seqState = .unlock) = true := by decide

/-- S2 steps 3 and 4 (R111, R115): a yield takes the waiting byte; else the erase is issued. -/
theorem test_sErase :
    nextHas (exec .sErase { programming .erase 0 (some (.unlock 1)) with link.rxQ := [0x44] })
      (fun t => t.fps.seqState = .erase && t.fl.inFlight = some (.unlock 1) && t.rx.cursor = 1 && t.link.rxQ = []) = true ∧
    nextHas (exec .sErase (programming .erase 1 none))
      (fun t => t.fl.inFlight = some (.erase 0x20) && t.fps.pg = 0 && t.fps.seqState = .page) = true := by decide

/-- S2 steps 7 and 8 (R112). -/
theorem test_sPage :
    nextHas (exec .sPage (programming .page 0 none))
      (fun t => t.fl.inFlight = some (.pageWrite 0x20 [0, 1, 2, 3, 4, 5, 6, 7]) && t.fps.pg = 1 && t.fps.seqState = .page) = true ∧
    nextHas (exec .sPage (programming .page 1 none))
      (fun t => t.fl.inFlight = some (.pageWrite 0x28 [8, 9, 10, 11, 12, 13, 14, 15]) && t.fps.pg = 2 &&
        t.fps.seqState = .final) = true := by decide

/-- S2 steps 9 and 10 (R113). -/
theorem test_sFinal :
    nextHas (exec .sFinal (programming .final 2 (some (.pageWrite 0x28 (blockD.drop 8)))))
      (fun t => t.ses.stagedReady && t.fps.seqState = .final) = true ∧
    nextHas (exec .sFinal (programming .final 2 none)) (fun t => !t.ses.stagedReady && t.fps.seqState = .poll) = true := by decide

/-- S8 (R116, 70_reset_and_hazards.md R149); the status word does not survive (60_exceptions.md R143). -/
theorem test_sTxwait :
    nextHas (exec .sTxwait { State.reset with fps.seqState := .txwait, fps.txAction := .bankSwap, link.txPend := [0x50], link.rxQ := [1] })
      (fun t => t.fps.seqState = .txwait && t.link.rxQ = [1] && t.ended = none) = true ∧
    nextHas (exec .sTxwait { State.reset with fps.seqState := .txwait, fps.txAction := .bankSwap, link.txDone := [0x50], link.rxQ := [1], fl.status := 5 })
      (fun t => t.ended = some .bankSwapRestart && t.fl.bank && t.fl.status = 0 && t.link.txDone = [0x50] && t.link.rxQ = []) = true := by decide

/-! ## Flash controller and agents (20_memory.md R47 to R52, S2) -/

/-- S2, erase completes: 16 × FF over what was there; the byte after the block stays. -/
theorem test_erase_completes :
    let t := agentMove (.flashDone true 0)
      { programming .page 0 (some (.erase 0x20)) with fl.cells := [(0x20, 0x5A), (0x30, 0x5A)], fl.locked := [true, false] }
    t.fl.cells = [(0x30, 0x5A)] ∧ t.flBusy = false ∧ containsRange t.fl.erased 0x20 16 = true := by decide

/-- S2, page write completes. -/
theorem test_page_write_completes :
    let t := agentMove (.flashDone true 0)
      { programming .page 1 (some (.pageWrite 0x20 [1, 2, 0xFF])) with fl.erased := [0x20, 0x21, 0x22, 0x23], fl.locked := [true, false] }
    t.fl.cells = [(0x20, 1), (0x21, 2)] ∧ t.fl.erased = [0x23] ∧ t.flBusy = false := by decide

/-- S2, unlock completes: that region's bit only. -/
theorem test_unlock_completes :
    let t := agentMove (.flashDone true 0) (programming .erase 0 (some (.unlock 1)))
    t.fl.locked = [true, false, true, true, true, true, true, true] ∧ t.flBusy = false := by decide

/-- R48: a locked target is not erased; what is left in it counts as written. -/
theorem test_locked_erase :
    let t := agentMove (.flashDone true 0) { programming .page 0 (some (.erase 0x20)) with fl.erased := [0x1F, 0x20, 0x2F, 0x30] }
    t.fl.erased = [0x1F, 0x30] ∧ t.flBusy = false ∧ t.fl.locked = List.replicate 8 true := by decide

/-- The transmitter, the host and the timer (R52, 10_state.md R31, R32). -/
theorem test_agents :
    (agentMove .linkSent { State.reset with link.txPend := [0x50, 0x51] }).link = ⟨[], [0x50], [0x51]⟩ ∧
    (agentMove (.hostByte 7) { State.reset with link.rxQ := [6] }).link.rxQ = [6, 7] ∧
    (agentMove .timerExpire State.reset).tmoFlag = true := by decide

/-! ## Steps -/

/-- From reset the first step is an idle S_POLL (70_reset_and_hazards.md R146). -/
theorem test_first_step : nextHas (step State.reset) (fun t => t.fps.seqState = .dispatch && t.link.txPend = []) = true := by decide

/-- A table word placed and stepped: BKSWAP_RESET is dispatched, UNLOCK of zeros is rejected, the header awaits its body. -/
theorem test_withFetchWord :
    nextHas (step (State.reset.withFetchWord 8 0xA4)) (fun t => t.fps.txAction = .bankSwap && t.link.txPend = [0x50]) = true ∧
    nextHas (step (State.reset.withFetchWord 8 0xA0)) (fun t => t.link.txPend = [0x51]) = true ∧
    nextHas (step (State.reset.withFetchWord 72 0xA20000000411223344)) (fun t => t.rx.fSize = 4 && t.rx.fCmd = 0xA2) = true := by
  decide

/-- 60_exceptions.md R130. -/
theorem test_bad_configuration : refuses (step { State.reset with cfg.pageSize := 3 }) .badConfiguration = true := by decide

/-- The launch after a reset (70_reset_and_hazards.md R144, R145): not while a run goes on. -/
theorem test_launch :
    nextHas (step { State.reset with ended := some .systemReset, sched := [.launch [] true], fl.bank := true })
      (fun t => t.ended = none && t.tmoFlag && t.fl.bank && t.fl.locked = List.replicate 8 true) = true ∧
    nextHas (step { State.reset with sched := [.launch [] true] }) (fun t => !t.tmoFlag) = true := by decide

/-- Reset memory is canonical. -/
theorem test_reset_memory_wf : State.reset.fl.cells.wf = true := by decide

/-! ## Witnesses: states and operands that meet an obligation's hypotheses, one theorem for each obligation that has some, with
boundary values of each clause -/

/-- A result with any property is a next state. -/
theorem next_of_has {r : Result} {p : State → Bool} (h : nextHas r p = true) : ∃ t, r = .next t := by
  cases r with
  | next t => exact ⟨t, rfl⟩
  | fault e => cases h
  | refused e => cases h

/-- The result is a next state. -/
def goesOn (r : Result) : Bool := nextHas r fun _ => true

theorem witness_DecodeOfEncode :
    ([.frameHeader 0x11223344 0xFFFFFFFF 0xFF, .unlock 0xFFFFFFFF 0, .data 20 0xFFFFFFFF blockD, .verify 0xFFFFFFFF, .reset,
      .bkswapReset, .unknownCmd 0x9F, .unknownCmd 0xA5, .rspOk, .rspError, .rspInvalid, .rspCrcOk, .rspCrcFail, .frIdle, .frTmo,
      .frDrop, .frHdrByteAcc, .frHdrByteMismatch, .frHdrByteMatch, .frBodyByte, .sPoll, .sDispatch, .sCheck, .sUnlock, .sErase,
      .sPage, .sFinal, .sTxwait] : List Instr).all (Instr.wf Config.test) = true := by decide

theorem witness_ExampleFramesEncodeAndDecode : blockD.length = 16 := by decide

/-- A word and a state of both events; states at the last byte a header accumulates and at its ninth, with either guard. -/
theorem witness_PollTakesAnyAdmittedRow :
    let w : PollWord := ⟨0b1100, false, false, false⟩
    let s := { collecting [] 7 [0x44] with tmoFlag := true }
    let u := collecting [0x44, 0x33, 0x22, 0x11] 8 [0xA3]
    let v := collecting [0x45, 0x33, 0x22, 0x11] 8 [0xA3]
    w.admits .tmo = true ∧ w.admits .hdrAcc = true ∧ s.FrInv ∧ u.FrInv ∧ v.FrInv ∧
    s.tmoFlag = true ∧ s.link.rxQ ≠ [] ∧ s.rx.frameComplete = false ∧ s.rx.rxState = .awaitingHeader ∧
    s.rx.cursor.toNat = 7 ∧ u.rx.cursor.toNat = 8 ∧ u.guardOk = true ∧ v.rx.cursor.toNat = 8 ∧ v.guardOk = false :=
  ⟨by decide, by decide, ⟨by decide, by decide, by decide⟩, ⟨by decide, by decide, by decide⟩,
    ⟨by decide, by decide, by decide⟩, by decide⟩

theorem witness_CommandByteSelectsContract :
    (0x9F : Byte) ≠ 0xA0 ∧ (0x9F : Byte) ≠ 0xA1 ∧ (0x9F : Byte) ≠ 0xA2 ∧ (0x9F : Byte) ≠ 0xA3 ∧ (0x9F : Byte) ≠ 0xA4 ∧
    (0xA5 : Byte) ≠ 0xA0 ∧ (0xA5 : Byte) ≠ 0xA1 ∧ (0xA5 : Byte) ≠ 0xA2 ∧ (0xA5 : Byte) ≠ 0xA3 ∧ (0xA5 : Byte) ≠ 0xA4 := by decide

theorem witness_StepRunsSelectedInstruction :
    State.reset.cfg.valid = true ∧ State.reset.ended = none ∧ State.reset.nextMove = .controller false := by decide

theorem witness_PollRunsSelectedOperation : ∃ t, exec (decodePoll State.reset.pollWord).instr State.reset = .next t :=
  next_of_has (p := fun _ => true) (by decide)

/-- No frame; a frame whose contract goes on; a frame whose contract faults. -/
theorem witness_DispatchRunsSelectedContract :
    State.reset.rx.frameComplete = false ∧ (State.reset.withFrame 0xA3 0 []).rx.frameComplete = true ∧
    goesOn (exec (decodeCmd Config.test 0xA3 0 (State.reset.withFrame 0xA3 0 []).payByte) (State.reset.withFrame 0xA3 0 [])) = true ∧
    (let s := { (window 0x20 0x30).withFrame 0xA1 20 ([0x20, 0, 0, 0] ++ blockD) with ses.stagedReady := true }
     s.rx.frameComplete = true ∧
       faults (exec (decodeCmd s.cfg s.rx.fCmd s.rx.fSize s.payByte) s) .stagedOverwrite = true) := by decide

theorem witness_AgentMovesTakeEffect :
    { State.reset with sched := [.hostByte 7] }.nextMove = .hostByte 7 ∧ { State.reset with sched := [.timerExpire] }.nextMove = .timerExpire ∧
    { State.reset with sched := [.linkSent], link.txPend := [0x50] }.nextMove = .linkSent ∧
    { State.reset with sched := [.linkSent], link.txPend := [0x50] }.link.txPend = [0x50] ∧ State.reset.cfg.valid = true := by decide

theorem witness_InvalidConfigurationRefused :
    { Config.test with pageSize := 3 }.valid = false ∧ { Config.test with regionSize := 24 }.valid = false ∧
    { Config.test with flashLimit := 0xFFFFFFFF }.valid = false ∧ { Config.test with flashLimit := 0xFFFFFFF0 }.valid = true ∧
    goesOn (step State.reset) = true := by decide

theorem witness_ResetCommandsChooseTheAction :
    (State.reset.withFrame 0xA3 1 [0x7E]).rx.frameComplete = true ∧ (State.reset.withFrame 0xA3 1 [0x7E]).rx.fCmd = 0xA3 ∧
    (State.reset.withFrame 0xA4 0 []).rx.frameComplete = true ∧ (State.reset.withFrame 0xA4 0 []).rx.fCmd = 0xA4 := by decide

theorem witness_IdlePollChangesNothing : State.reset.link.rxQ = [] ∧ State.reset.tmoFlag = false := by decide

theorem witness_TimeoutResynchronises : { body 3 4 [0xDE] with tmoFlag := true }.tmoFlag = true := by decide

theorem witness_PendingFrameDropsByte :
    { window 0 0 with link.rxQ := [0x44] }.link.rxQ = 0x44 :: [] ∧ { window 0 0 with link.rxQ := [0x44] }.rx.frameComplete = true := by decide

/-- The first and the eighth header byte. -/
theorem witness_HeaderByteAccumulates :
    ([0, 7] : List Word).all (fun n =>
      let s := collecting [] n [0x45]
      s.link.rxQ = [0x45] && !s.rx.frameComplete && s.rx.rxState = .awaitingHeader && s.rx.cursor.toNat ≤ 7) = true := by decide

theorem witness_NinthByteMismatchAnswersError :
    let s := collecting [0x45, 0x33, 0x22, 0x11, 0, 0, 0, 0] 8 [0xA3]
    let h := s.rx.hdrBuf.setIfInBounds 8 0xA3
    s.link.rxQ = 0xA3 :: [] ∧ s.rx.frameComplete = false ∧ s.rx.rxState = .awaitingHeader ∧ s.rx.cursor = 8 ∧
    asm32 s.cfg.fieldOrder h[0] h[1] h[2] h[3] ≠ s.cfg.guard := by decide

/-- Size 0 and size 1. -/
theorem witness_NinthByteMatchLatchesHeader :
    ([0, 1] : List Byte).all (fun z =>
      let s := collecting [0x44, 0x33, 0x22, 0x11, z, 0, 0, 0] 8 [0xA3]
      let h := s.rx.hdrBuf.setIfInBounds 8 0xA3
      s.link.rxQ = [0xA3] && !s.rx.frameComplete && s.rx.rxState = .awaitingHeader && s.rx.cursor = 8 &&
        asm32 s.cfg.fieldOrder h[0] h[1] h[2] h[3] = s.cfg.guard &&
        asm32 s.cfg.fieldOrder h[4] h[5] h[6] h[7] = BitVec.ofNat 32 z.toNat) = true := by decide

/-- The last byte the buffer holds, the first it does not, and the last byte of a frame. -/
theorem witness_BodyByteStoredAndCounted :
    ([(19, 22), (20, 22), (21, 22), (0, 1)] : List (Word × Word)).all (fun c =>
      let s := body c.1 c.2 [0x14]
      s.link.rxQ = [0x14] && !s.rx.frameComplete && s.rx.rxState = .awaitingBody && decide (s.rx.cursor.toNat < s.rx.fSize.toNat)) = true ∧
    (body 20 22 []).rx.cursor.toNat + 1 < (body 20 22 []).rx.fSize.toNat ∧
    (body 21 22 []).rx.cursor.toNat + 1 = (body 21 22 []).rx.fSize.toNat := by decide

theorem witness_HeaderTakesEffect :
    (0x44332211 : Word) ≠ State.reset.cfg.guard ∧ (0x11223344 : Word) = State.reset.cfg.guard ∧ (1 : Word) ≠ 0 := by decide

/-- Every operation is enabled in some state and not in another. -/
theorem witness_ReceiverOperationNeedsItsCondition :
    (State.reset.frEnabled .idle = true ∧ { State.reset with tmoFlag := true }.frEnabled .idle = false) ∧
    ({ State.reset with tmoFlag := true }.frEnabled .tmo = true ∧ State.reset.frEnabled .tmo = false) ∧
    ({ window 0 0 with link.rxQ := [1] }.frEnabled .drop = true ∧ (collecting [] 0 [1]).frEnabled .drop = false) ∧
    ((collecting [] 7 [1]).frEnabled .hdrAcc = true ∧ (collecting [] 8 [1]).frEnabled .hdrAcc = false) ∧
    ((collecting [] 8 [1]).frEnabled .hdrMismatch = true ∧ (collecting [] 7 [1]).frEnabled .hdrMismatch = false) ∧
    ((collecting [0x44, 0x33, 0x22, 0x11] 8 [1]).frEnabled .hdrMatch = true ∧ (collecting [] 8 [1]).frEnabled .hdrMatch = false) ∧
    ((body 0 1 [1]).frEnabled .body = true ∧ (body 0 1 []).frEnabled .body = false) := by decide

/-- A mismatch, and an operation that is none. -/
theorem witness_ReceiverWritesOnlyItsOwnState :
    goesOn (exec FrOp.hdrMismatch.instr (collecting [] 8 [1])) = true ∧ goesOn (exec FrOp.body.instr (body 0 1 [1])) = true := by decide

theorem witness_PendingFrameIsNotTouched :
    { window 0 0 with link.rxQ := [1] }.FrInv ∧ { window 0 0 with link.rxQ := [1] }.rx.frameComplete = true ∧
    ∃ t, exec FrOp.drop.instr { window 0 0 with link.rxQ := [1] } = .next t :=
  ⟨⟨by decide, by decide, by decide⟩, by decide, next_of_has (p := fun _ => true) (by decide)⟩

/-- No payload; one byte; one byte more than the buffer holds. -/
theorem witness_WholeFrameIsReceived :
    ([[], [0x7E], List.replicate 21 0x7E] : List (List Byte)).all (fun p =>
      let s := { State.reset with link.rxQ := frameBytes Config.test 0xA3 p ++ [1] }
      s.rx.rxState = .awaitingHeader && s.rx.cursor = 0 && !s.rx.frameComplete && !s.tmoFlag &&
        s.rx.payBuf.length = s.cfg.maxPayload && decide (p.length < 2 ^ 32) &&
        s.link.rxQ = frameBytes s.cfg 0xA3 p ++ [1]) = true := by decide

theorem witness_BadHeaderIsDiscardedWhole :
    let s := { State.reset with link.rxQ := headerBytes .little 0x11223345 0xFFFFFFFF 0xA1 ++ [0x44] }
    s.rx.rxState = .awaitingHeader ∧ s.rx.cursor = 0 ∧ s.rx.frameComplete = false ∧ s.tmoFlag = false ∧
    (0x11223345 : Word) ≠ s.cfg.guard ∧ s.link.rxQ = headerBytes s.cfg.fieldOrder 0x11223345 0xFFFFFFFF 0xA1 ++ [0x44] := by decide

/-- The window that ends at the limit; the empty one; the one a block past it. -/
theorem witness_UnlockSetsOrClearsTheWindow :
    State.reset.cfg.valid = true ∧ State.reset.cfg.unlockAlign 0xF0 0x10 = (0xF0, State.reset.cfg.flashLimit) ∧
    State.reset.cfg.unlockAlign 0x20 0x0F = (0x20, 0x20) ∧ State.reset.cfg.unlockAlign 0xF0 0x20 = (0xF0, 0x110) := by decide

/-- The clauses in order: wrong size; outside at either end; pending; accepted at the window's first and last block. -/
theorem witness_DataStagesOrRejects :
    let s := window 0x20 0x40
    (19 : Word).toNat ≠ 4 + s.cfg.ebSize ∧ (20 : Word).toNat = 4 + s.cfg.ebSize ∧
    ¬(s.ses.winBegin.toNat ≤ 0x1F - 0x1F % s.cfg.ebSize) ∧ ¬(0x40 - 0x40 % s.cfg.ebSize < s.ses.winEnd.toNat) ∧
    { s with ses.stagedReady := true }.ses.stagedReady = true ∧ s.ses.stagedReady = false ∧
    s.ses.winBegin.toNat ≤ 0x20 - 0x20 % s.cfg.ebSize ∧ 0x3F - 0x3F % s.cfg.ebSize < s.ses.winEnd.toNat := by decide

theorem witness_EveryDispatchAnswersOnce :
    (State.reset.withFrame 0x99 0 []).rx.frameComplete = true ∧ ∃ t, exec .sDispatch (State.reset.withFrame 0x99 0 []) = .next t :=
  ⟨by decide, next_of_has (p := fun _ => true) (by decide)⟩

/-- A short frame's last stored byte and the first it did not store; a byte in flight, one settled, one outside the array. -/
theorem witness_OpenBytesAreFree :
    let s := State.reset.withFrame 0xA0 4 [0x20, 0, 0, 0]
    let u := programming .page 0 (some (.erase 0x20))
    s.rx.payBuf.length = s.cfg.maxPayload ∧ 3 < min s.rx.fSize.toNat (4 + s.cfg.ebSize) ∧ min s.rx.fSize.toNat (4 + s.cfg.ebSize) ≤ 4 ∧
    u.rx.payBuf.length = u.cfg.maxPayload ∧ u.cfg.inArray 0x2F = true ∧ u.inFlightAt 0x2F = true ∧ u.inFlightAt 0x30 = false ∧
    u.cfg.inArray 0xFF = true ∧ u.inFlightAt 0xFF = false ∧ u.cfg.inArray 0x100 = false := by decide

theorem witness_BusyProgrammingStateYields :
    (programming .erase 0 (some (.unlock 1))).fl.inFlight.isSome = true ∧
    ∃ t, exec .sErase (programming .erase 0 (some (.unlock 1))) = .next t :=
  ⟨by decide, next_of_has (p := fun _ => true) (by decide)⟩

theorem witness_PollYieldAndDispatchComplete :
    State.reset.FrInv ∧ (programming .erase 0 (some (.unlock 1))).FrInv ∧
    (programming .erase 0 (some (.unlock 1))).fl.inFlight.isSome = true ∧ State.reset.ses.stagedReady = false :=
  ⟨⟨by decide, by decide, by decide⟩, ⟨by decide, by decide, by decide⟩, by decide, by decide⟩

/-- Staged at: the last block of the array, one past it, the bootloader's last block, the first block after it. -/
theorem witness_CheckStartsProgramming :
    State.reset.cfg.valid = true ∧ State.reset.ses.stagedReady = false ∧ (programming .check 0 none).ses.stagedReady = true ∧
    0xF0 + Config.test.ebSize = Config.test.flashBase + Config.test.flashLen ∧
    0x100 + Config.test.ebSize > Config.test.flashBase + Config.test.flashLen ∧
    0x10 < Config.test.flashBase + Config.test.bootSize ∧ ¬0x20 < Config.test.flashBase + Config.test.bootSize := by decide

theorem witness_UnlockIssuesNextRegion :
    (programming .unlock 0 (some (.unlock 0))).fl.inFlight.isSome = true ∧
    (programming .unlock 0 none).fl.inFlight = none ∧ (programming .unlock 0 none).fps.rgn = (programming .unlock 0 none).fps.rgnLast ∧
    { programming .unlock 0 none with fps.rgnLast := 2 }.fps.rgn ≠ { programming .unlock 0 none with fps.rgnLast := 2 }.fps.rgnLast := by
  decide

theorem witness_EraseIssuesTheBlock :
    (programming .erase 0 (some (.unlock 1))).fl.inFlight.isSome = true ∧ (programming .erase 0 none).fl.inFlight = none := by decide

/-- The first page and the last; a write in flight. -/
theorem witness_PageWriteIssuesTheNextPage :
    (programming .page 1 (some (.pageWrite 0x20 (blockD.take 8)))).fl.inFlight.isSome = true ∧
    ([(0, 0x20), (1, 0x28)] : List (Word × Word)).all (fun c =>
      let s := programming .page c.1 none
      s.fl.inFlight = none && decide (s.cfg.ebSize < 2 ^ 32) && decide (s.fps.pg.toNat < s.cfg.ebSize / s.cfg.pageSize) &&
        c.2.toNat = s.fps.progAddr.toNat + s.fps.pg.toNat * s.cfg.pageSize) = true ∧
    0 + 1 < Config.test.ebSize / Config.test.pageSize ∧ 1 + 1 = Config.test.ebSize / Config.test.pageSize := by decide

theorem witness_FinalClearsReadiness :
    (programming .final 2 (some (.pageWrite 0x28 (blockD.drop 8)))).fl.inFlight.isSome = true ∧ (programming .final 2 none).fl.inFlight = none := by decide

theorem witness_TransmitWaitEndsTheRun :
    { State.reset with link.txPend := [0x50] }.link.txPend ≠ [] ∧ State.reset.link.txPend = [] ∧
    State.reset.fps.txAction = .systemReset ∧ { State.reset with fps.txAction := .bankSwap }.fps.txAction = .bankSwap := by decide

/-- A block in one region, and one that meets two finer ones (95_test_vectors.md S3). -/
theorem witness_RegionsAreThoseMeetingTheBlock :
    let s := programming .check 0 none
    let u := { s with cfg.regionSize := 8 }
    s.cfg.valid = true ∧ s.ses.stagedReady = true ∧ u.cfg.valid = true ∧ u.ses.stagedReady = true ∧
    nextHas (exec .sCheck s) (fun t => t.fps.rgn = 1 && t.fps.rgnLast = 1) = true ∧
    nextHas (exec .sCheck u) (fun t => t.fps.rgn = 4 && t.fps.rgnLast = 5) = true ∧
    ∃ t, exec .sCheck s = .next t :=
  ⟨by decide, by decide, by decide, by decide, by decide, by decide, next_of_has (p := fun _ => true) (by decide)⟩

theorem witness_ProgrammingExcludesDispatch :
    let s := { programming .erase 0 (some (.unlock 1)) with rx.frameComplete := true }
    s.nextMove = .controller false ∧ s.ended = none ∧ s.FrInv ∧ s.fps.seqState.programming = true ∧
    s.rx.frameComplete = true ∧ s.fps.seqState ≠ .final ∧ s.fl.inFlight.isSome = true ∧ ∃ t, step s = .next t :=
  ⟨by decide, by decide, ⟨by decide, by decide, by decide⟩, by decide, by decide, by decide, by decide,
    next_of_has (p := fun _ => true) (by decide)⟩

/-- The canonical form of a state with no listed byte. -/
theorem memInv_of_empty {s : State} (h : s.fl.cells = []) (he : s.fl.erased.Pairwise (· < ·)) : s.MemInv :=
  ⟨by rw [h]; decide, by simp [h], he⟩

/-- A block whose region is unlocked, its last byte in the array. -/
theorem witness_EraseCompletes :
    let s := { programming .page 0 (some (.erase 0xF0)) with fl.locked := List.replicate 8 false, sched := [.flashDone true 7] }
    s.cfg.valid = true ∧ s.MemInv ∧ s.nextMove = .flashDone true 7 ∧ s.fl.inFlight = some (.erase 0xF0) ∧
    (∀ i < s.cfg.ebSize, s.fl.locked.getD ((0xF0 + i - s.cfg.flashBase) / s.cfg.regionSize) false = false) ∧
    15 < s.cfg.ebSize ∧ s.cfg.inArray (0xF0 + 15) = true :=
  ⟨by decide, memInv_of_empty rfl (by decide), by decide, by decide, by decide, by decide, by decide⟩

theorem witness_PageWriteCompletes :
    let s := { programming .page 1 (some (.pageWrite 0xFE [1, 2])) with
      fl.locked := List.replicate 8 false, fl.erased := [0xFE, 0xFF], sched := [.flashDone true 7] }
    s.cfg.valid = true ∧ s.MemInv ∧ s.nextMove = .flashDone true 7 ∧ s.fl.inFlight = some (.pageWrite 0xFE [1, 2]) ∧
    (∀ i < 2, s.fl.locked.getD ((0xFE + i - s.cfg.flashBase) / s.cfg.regionSize) false = false) ∧
    (∀ i < 2, 0xFE + i ∈ s.fl.erased) ∧ s.cfg.inArray (0xFE + 1) = true :=
  ⟨by decide, memInv_of_empty rfl (by decide), by decide, by decide, by decide, by decide, by decide⟩

/-- Each of the three reasons: a failure, a locked region, a page not freshly erased. -/
theorem witness_FailedOperationLeavesFreeBytes :
    let s := { programming .page 0 (some (.erase 0x20)) with sched := [.flashDone false 0] }
    let v := { s with sched := [.flashDone true 0] }
    let u := { programming .page 1 (some (.pageWrite 0x20 [1, 2])) with
      fl.locked := List.replicate 8 false, fl.erased := [0x20], sched := [.flashDone true 0] }
    (s.cfg.valid = true ∧ s.MemInv ∧ s.nextMove = .flashDone false 0 ∧ s.fl.inFlight = some (.erase 0x20) ∧
      (∀ r, FlashOp.erase 0x20 ≠ .unlock r) ∧ s.cfg.inArray 0x2F = true) ∧
    (v.MemInv ∧ v.nextMove = .flashDone true 0 ∧
      ∃ i < 16, v.fl.locked.getD ((0x20 + i - v.cfg.flashBase) / v.cfg.regionSize) false = true) ∧
    u.cfg.valid = true ∧ u.MemInv ∧ u.nextMove = .flashDone true 0 ∧ u.fl.inFlight = some (.pageWrite 0x20 [1, 2]) ∧
    (∀ r, FlashOp.pageWrite 0x20 [1, 2] ≠ .unlock r) ∧ ∃ i < 2, 0x20 + i ∉ u.fl.erased :=
  ⟨⟨by decide, memInv_of_empty rfl (by decide), by decide, by decide, nofun, by decide⟩,
    ⟨memInv_of_empty rfl (by decide), by decide, ⟨0, by decide⟩⟩,
    by decide, memInv_of_empty rfl (by decide), by decide, by decide, nofun, ⟨1, by decide⟩⟩

theorem witness_RegionUnlockCompletes :
    let s := { programming .erase 0 (some (.unlock 7)) with sched := [.flashDone true 0] }
    let u := { s with sched := [.flashDone false 0] }
    s.cfg.valid = true ∧ s.nextMove = .flashDone true 0 ∧ u.nextMove = .flashDone false 0 ∧
    s.fl.inFlight = some (.unlock 7) := by decide

/-- The controller's move, and a launch scheduled while the run goes on. -/
theorem witness_UnlockedRegionStaysUnlocked :
    let s := { State.reset with fl.locked := [true, false] }
    let u := { s with sched := [.launch [] true] }
    ((∃ t, step s = .next t) ∧ (∀ l m, s.nextMove = .launch l m → s.ended = none ∨ s.fl.inFlight.isSome = true) ∧
      s.fl.locked.getD 1 false = false) ∧
    (∃ t, step u = .next t) ∧ (∀ l m, u.nextMove = .launch l m → u.ended = none ∨ u.fl.inFlight.isSome = true) ∧
    u.nextMove = .launch [] true ∧ u.fl.locked.getD 1 false = false :=
  ⟨⟨next_of_has (p := fun _ => true) (by decide), nofun, by decide⟩,
    next_of_has (p := fun _ => true) (by decide), fun _ _ _ => .inl rfl, by decide, by decide⟩

/-- The controller's move, and the launch. -/
theorem witness_LaunchAfterResetKeepsFlash :
    let s := { State.reset with ended := some .bankSwapRestart }
    let u := { s with sched := [.launch [false, true] true] }
    s.cfg.valid = true ∧ s.ended = some .bankSwapRestart ∧ s.nextMove = .controller false ∧
    u.ended = some .bankSwapRestart ∧ u.nextMove = .launch [false, true] true ∧ u.fl.inFlight = none ∧
    1 < u.cfg.regionCount ∧ ([false, true] : List Bool)[1]? = some true := by decide

/-- The controller's move, and a launch scheduled after a run while the flash controller is busy. -/
theorem witness_LinkStreamsKeepOrder :
    let s := collecting [] 0 [0x44]
    let u := { s with ended := some .systemReset, fl.inFlight := some (.unlock 1), sched := [.launch [] true] }
    ((∃ t, step s = .next t) ∧ ∀ l m, s.nextMove = .launch l m → s.ended = none ∨ s.fl.inFlight.isSome = true) ∧
    (∃ t, step u = .next t) ∧ u.nextMove = .launch [] true ∧
    ∀ l m, u.nextMove = .launch l m → u.ended = none ∨ u.fl.inFlight.isSome = true :=
  ⟨⟨next_of_has (p := fun _ => true) (by decide), nofun⟩, next_of_has (p := fun _ => true) (by decide), by decide,
    fun _ _ _ => .inr rfl⟩

/-- An operation that clears the flag, some of those that leave it; and the two moves that raise it. -/
theorem witness_TimerFlagSetByTimerOnly :
    let s := { State.reset with ended := some .systemReset }
    goesOn (exec .frHdrByteAcc (collecting [] 0 [1])) = true ∧ (collecting [] 0 [1]).tmoFlag = false ∧
    goesOn (exec .frDrop { window 0 0 with link.rxQ := [1] }) = true ∧ goesOn (exec (.data 19 0 []) State.reset) = true ∧
    nextHas (step { State.reset with sched := [.timerExpire] }) (fun t => t.tmoFlag) = true ∧
    nextHas (step { s with sched := [.launch [] true] }) (fun t => t.tmoFlag) = true ∧
    State.reset.tmoFlag = false := by decide

/-- Waiting, and the end of the run. -/
theorem witness_FlashStatusInfluencesNothing :
    Instr.sPoll ≠ .sTxwait ∧ { State.reset with link.txPend := [0x50] }.link.txPend ≠ [] ∧ State.reset.link.txPend = [] := by
  decide

theorem witness_StepKeepsReceiverInvariant : State.reset.FrInv ∧ ∃ t, step State.reset = .next t :=
  ⟨⟨by decide, by decide, by decide⟩, next_of_has (p := fun _ => true) (by decide)⟩

/-- A window that is not empty. -/
theorem witness_StepKeepsWindowInvariant :
    { State.reset with ses.winBegin := 0x20, ses.winEnd := 0x100 }.WinInv ∧
    ∃ t, step { State.reset with ses.winBegin := 0x20, ses.winEnd := 0x100 } = .next t :=
  ⟨⟨by decide, by decide, by decide⟩, next_of_has (p := fun _ => true) (by decide)⟩

theorem witness_StepKeepsStorageShape : State.reset.BufInv ∧ State.reset.MemInv ∧ ∃ t, step State.reset = .next t :=
  ⟨⟨by decide, by decide, by decide⟩, memInv_of_empty rfl (by decide), next_of_has (p := fun _ => true) (by decide)⟩

/-- Programming's invariant, with no operation in flight. -/
theorem seqInv_of_idle {s : State} (h : s.fl.inFlight = none)
    (h1 : s.ses.stagedReady = true → s.fps.seqState = .check ∨ s.fps.seqState.programming = true)
    (h2 : s.ses.stagedReady = true → s.ses.stagedAddr.toNat % s.cfg.ebSize = 0)
    (h3 : s.fps.seqState.programming = true → s.ses.stagedReady = true ∧ s.fps.progAddr = s.ses.stagedAddr ∧ s.blockAllowed)
    (h4 : s.fps.seqState = .page → s.fps.pg.toNat < s.cfg.pagesPerBlock)
    (h5 : s.fps.seqState = .final → s.fps.pg.toNat = s.cfg.pagesPerBlock) : s.SeqInv :=
  ⟨h1, h2, h3, h4, h5, fun op ho => by rw [h] at ho; cases ho⟩

/-- The last page about to be issued. -/
theorem witness_StepKeepsSequencerInvariant :
    (programming .page 1 none).SeqInv ∧ ∃ t, step (programming .page 1 none) = .next t :=
  ⟨seqInv_of_idle rfl (fun _ => .inr rfl) (by decide) (fun _ => ⟨rfl, rfl, by unfold State.blockAllowed; decide⟩) (by decide) (by decide),
    next_of_has (p := fun _ => true) (by decide)⟩

/-- Each alternative: a step that goes on, and the two stops of S_CHECK. -/
theorem witness_OnlyCheckCanStop :
    State.reset.cfg.valid = true ∧ State.reset.FrInv ∧ State.reset.SeqInv ∧
    (let s := { programming .check 0 none with ses.stagedAddr := 0x100 }
     s.cfg.valid = true ∧ s.FrInv ∧ s.SeqInv ∧ step s = .fault .outsideFlash) ∧
    (let s := { programming .check 0 none with ses.stagedAddr := 0x10 }
     s.cfg.valid = true ∧ s.FrInv ∧ s.SeqInv ∧ step s = .fault .selfOverwrite) :=
  ⟨by decide, ⟨by decide, by decide, by decide⟩, seqInv_of_idle rfl (by decide) (by decide) nofun nofun nofun,
    ⟨by decide, ⟨by decide, by decide, by decide⟩, seqInv_of_idle rfl (by decide) (by decide) nofun nofun nofun, rfl⟩,
    ⟨by decide, ⟨by decide, by decide, by decide⟩, seqInv_of_idle rfl (by decide) (by decide) nofun nofun nofun, rfl⟩⟩

/-- The bytes beside the block being programmed, and the bootloader's last byte. -/
theorem witness_OnlyTheBlockBeingProgrammedChanges :
    let s := programming .page 1 none
    s.SeqInv ∧ s.MemInv ∧ (∃ t, step s = .next t) ∧ s.fps.seqState.programming = true ∧ ¬s.inBlock 0x1F ∧ ¬s.inBlock 0x30 ∧
    0x1F < s.cfg.flashBase + s.cfg.bootSize :=
  ⟨witness_StepKeepsSequencerInvariant.1, memInv_of_empty rfl (by decide), witness_StepKeepsSequencerInvariant.2, rfl,
    by unfold State.inBlock; decide, by unfold State.inBlock; decide, by decide⟩

/-- S7's start: block `blockD` staged at 0x20, and the schedule of its 6 operations. -/
theorem witness_StagedBlockIsProgrammed :
    let s := { programming .check 0 none with sched := promptSchedule 6 }
    s.cfg.valid = true ∧ s.Inv ∧ s.ended = none ∧ s.fl.inFlight = none ∧ s.fps.seqState = .check ∧ s.ses.stagedReady = true ∧
    s.cfg.flashBase + s.cfg.bootSize ≤ s.ses.stagedAddr.toNat ∧
    s.ses.stagedAddr.toNat + s.cfg.ebSize ≤ s.cfg.flashBase + s.cfg.flashLen ∧
    s.sched = promptSchedule
      (1 + ((0x20 + s.cfg.ebSize - 1 - s.cfg.flashBase) / s.cfg.regionSize - (0x20 - s.cfg.flashBase) / s.cfg.regionSize + 1) + 1 +
        s.cfg.ebSize / s.cfg.pageSize + 1) :=
  ⟨by decide,
    ⟨⟨by decide, by decide, by decide⟩, ⟨by decide, by decide, by decide⟩, ⟨by decide, by decide, by decide⟩,
      memInv_of_empty rfl (by decide), seqInv_of_idle rfl (fun _ => .inl rfl) (by decide) nofun nofun nofun⟩,
    by decide, by decide, by decide, by decide, by decide, by decide, by decide⟩

/-- A run that makes one move and then waits for a transmitter with nothing to send. -/
def oneMove (s u : State) : Nat → State
  | 0 => s
  | n + 1 => { u with sched := [], clock := u.clock + n }

theorem isRun_oneMove {s u : State} {m : Move} (h : step (s.withMove m) = .next u) (hs : u.sched = [])
    (hv : u.cfg.valid = true) (hp : u.link.txPend = []) :
    IsRun (fun n => if n = 0 then m else .linkSent) (oneMove s u) := by
  intro n
  cases n with
  | zero =>
    obtain ⟨⟩ := u
    cases hs
    exact h
  | succ n =>
    have hv' : (oneMove s u (n + 1)).cfg.valid = true := hv
    have hp' : (oneMove s u (n + 1)).link.txPend = [] := hp
    simp only [step, withMove_cfg, hv', if_true, withMove_nextMove, Nat.add_one_ne_zero, if_false, agentMove, transmit,
      State_begin_link, withMove_link, hp']
    rfl

/-- Each clause: an unlock that completes; a last byte that is sent; a wait to begin with. -/
theorem witness_FairRunLeavesEveryWait :
    let s := programming .erase 0 (some (.unlock 1))
    let w := { State.reset with fps.seqState := .txwait, link.txPend := [0x50] }
    (∃ moves run, IsRun moves run ∧ FlashFair run ∧ run 0 = s) ∧ s.ended = none ∧ s.fps.seqState.programming = true ∧
    s.flBusy = true ∧ (∃ moves run, IsRun moves run ∧ LinkFair run ∧ run 0 = w) ∧ w.ended = none ∧ w.txWaiting = true ∧
    s.cfg.valid = true ∧ s.FrInv ∧ w.cfg.valid = true := by
  refine ⟨⟨_, oneMove _ _, isRun_oneMove (m := .flashDone true 0) rfl rfl (by decide) (by decide), fun n h => ⟨n + 1, by omega, rfl⟩, rfl⟩,
    by decide, by decide, by decide,
    ⟨_, oneMove _ _, isRun_oneMove (m := .linkSent) rfl rfl (by decide) (by decide), fun n h => ⟨n + 1, by omega, rfl⟩, rfl⟩,
    by decide, by decide, by decide, ⟨by decide, by decide, by decide⟩, by decide⟩

/-- The first page of S2 is programmed, the second one is about to be issued. -/
def firstPageDone : State :=
  { programming .page 1 none with
    fl.locked := [true, false, true, true, true, true, true, true]
    fl.cells := [(0x20, 0), (0x21, 1), (0x22, 2), (0x23, 3), (0x24, 4), (0x25, 5), (0x26, 6), (0x27, 7)]
    fl.erased := [0x28, 0x29, 0x2A, 0x2B, 0x2C, 0x2D, 0x2E, 0x2F] }

theorem progress_firstPageDone : firstPageDone.Progress :=
  ⟨nofun, nofun, fun _ => by decide, fun _ => by decide, fun _ => by decide, nofun, nofun, nofun⟩

/-- A step in the midst of programming; a state that programs nothing; and S_FINAL, where an all-erased block is in flash. -/
theorem witness_StepKeepsProgress :
    let u := { programming .final 2 none with
      ses.stagedData := List.replicate 16 0xFF, fl.locked := List.replicate 8 false }
    firstPageDone.Inv ∧ firstPageDone.Progress ∧ (∀ n, firstPageDone.nextMove ≠ .flashDone false n) ∧
    (∃ t, step firstPageDone = .next t) ∧ State.reset.SeqInv ∧ State.reset.fps.seqState.programming = false ∧
    u.cfg.valid = true ∧ u.SeqInv ∧ u.Progress ∧ u.fps.seqState = .final ∧ u.fl.inFlight = none :=
  ⟨⟨⟨by decide, by decide, by decide⟩, ⟨by decide, by decide, by decide⟩, ⟨by decide, by decide, by decide⟩,
      ⟨by decide, by decide, by decide⟩,
      seqInv_of_idle rfl (fun _ => .inr rfl) (by decide) (fun _ => ⟨rfl, rfl, by unfold State.blockAllowed; decide⟩) (by decide) (by decide)⟩,
    progress_firstPageDone, nofun, next_of_has (p := fun _ => true) (by decide),
    seqInv_of_idle rfl (by decide) (by decide) nofun nofun nofun, by decide, by decide,
    seqInv_of_idle rfl (fun _ => .inr rfl) (by decide) (fun _ => ⟨rfl, rfl, by unfold State.blockAllowed; decide⟩) (by decide) (by decide),
    ⟨nofun, nofun, fun _ => by decide, nofun, fun _ => by decide, nofun, nofun, nofun⟩, by decide, by decide⟩

end Sys2Proof.Tests
end

section
/-! SUPPORT. The invariants of 10_state.md and what its flags influence: what a receiver operation and an agent can do, where
the receiver, the session and the flash array of a next state come from, and the family's obligations from these. -/

namespace Sys2Proof.Machine

/-! ## What a receiver operation can do -/

/-- What a receiver operation that answers next can do, with the condition it needs (40_frame_receiver.md R78 to R84). -/
inductive ReceiverStep (s : State) : FrOp → State → Prop where
  | idle (hq : s.link.rxQ = []) (ht : s.tmoFlag = false) : ReceiverStep s .idle s
  | timeout (ht : s.tmoFlag = true) :
      ReceiverStep s .tmo { s with rx.rxState := .awaitingHeader, rx.cursor := 0, tmoFlag := false }
  | drop {b : Byte} {q : List Byte} (hq : s.link.rxQ = b :: q) (hf : s.rx.frameComplete = true) :
      ReceiverStep s .drop { s with link.rxQ := q }
  | headerByte {b : Byte} {q : List Byte} (hq : s.link.rxQ = b :: q) (hf : s.rx.frameComplete = false)
      (hs : s.rx.rxState = .awaitingHeader) (hc : s.rx.cursor.toNat ≤ 7) :
      ReceiverStep s .hdrAcc
        { s with
          link.rxQ := q
          tmoFlag := false
          rx.hdrBuf := s.rx.hdrBuf.setIfInBounds s.rx.cursor.toNat b
          rx.cursor := s.rx.cursor + 1 }
  /-- A ninth byte under a foreign guard. -/
  | headerRejected {b : Byte} {q : List Byte} (hq : s.link.rxQ = b :: q) (hf : s.rx.frameComplete = false)
      (hs : s.rx.rxState = .awaitingHeader) (hc : s.rx.cursor.toNat = 8) (hg : s.hdrGuard ≠ s.cfg.guard) :
      ReceiverStep s .hdrMismatch
        { s with
          link.rxQ := q
          link.txPend := s.link.txPend ++ [rspError]
          tmoFlag := false
          rx.hdrBuf := s.rx.hdrBuf.setIfInBounds 8 b
          rx.cursor := 0 }
  /-- A ninth byte that completes a frame with no payload. -/
  | emptyFrame {b : Byte} {q : List Byte} (hq : s.link.rxQ = b :: q) (hf : s.rx.frameComplete = false)
      (hs : s.rx.rxState = .awaitingHeader) (hc : s.rx.cursor.toNat = 8) (hg : s.hdrGuard = s.cfg.guard)
      (hz : (storeHeader 8 b s).hdrSize = 0) :
      ReceiverStep s .hdrMatch
        { s with
          link.rxQ := q
          tmoFlag := false
          rx.hdrBuf := s.rx.hdrBuf.setIfInBounds 8 b
          rx.fSize := 0
          rx.fCmd := b
          rx.cursor := 0
          rx.frameComplete := true }
  /-- A ninth byte after which the body begins. -/
  | bodyBegins {b : Byte} {q : List Byte} (hq : s.link.rxQ = b :: q) (hf : s.rx.frameComplete = false)
      (hs : s.rx.rxState = .awaitingHeader) (hc : s.rx.cursor.toNat = 8) (hg : s.hdrGuard = s.cfg.guard)
      (hz : (storeHeader 8 b s).hdrSize ≠ 0) :
      ReceiverStep s .hdrMatch
        { s with
          link.rxQ := q
          tmoFlag := false
          rx.hdrBuf := s.rx.hdrBuf.setIfInBounds 8 b
          rx.fSize := (storeHeader 8 b s).hdrSize
          rx.fCmd := b
          rx.cursor := 0
          rx.rxState := .awaitingBody }
  | bodyByte {b : Byte} {q : List Byte} (hq : s.link.rxQ = b :: q) (hf : s.rx.frameComplete = false)
      (hs : s.rx.rxState = .awaitingBody) (hc : s.rx.cursor + 1 ≠ s.rx.fSize) :
      ReceiverStep s .body
        { s with
          link.rxQ := q
          tmoFlag := false
          rx.payBuf :=
            if s.rx.cursor.toNat < s.cfg.maxPayload then s.rx.payBuf.set s.rx.cursor.toNat b else s.rx.payBuf
          rx.cursor := s.rx.cursor + 1 }
  /-- The last body byte completes the frame. -/
  | bodyEnds {b : Byte} {q : List Byte} (hq : s.link.rxQ = b :: q) (hf : s.rx.frameComplete = false)
      (hs : s.rx.rxState = .awaitingBody) (hc : s.rx.cursor + 1 = s.rx.fSize) :
      ReceiverStep s .body
        { s with
          link.rxQ := q
          tmoFlag := false
          rx.payBuf :=
            if s.rx.cursor.toNat < s.cfg.maxPayload then s.rx.payBuf.set s.rx.cursor.toNat b else s.rx.payBuf
          rx.cursor := 0
          rx.rxState := .awaitingHeader
          rx.frameComplete := true }

theorem hdrCmd_storeHeader_eight (b : Byte) (s : State) : (storeHeader 8 b s).hdrCmd = b := by
  simp [State.hdrCmd, storeHeader]

/-- The ninth byte is the command of the header that takes effect; the guard was collected before it. -/
theorem ninthByte_eq (b : Byte) (s : State) :
    ninthByte b s = headerEffect s.hdrGuard (storeHeader 8 b s).hdrSize b (storeHeader 8 b (timerRestart s)) := by
  simp only [ninthByte, hdrGuard_storeHeader_eight, hdrCmd_storeHeader_eight]
  rfl

theorem runFr_next {op : FrOp} {s t : State} (h : runFr op s = .next t) : ReceiverStep s op t := by
  cases op with
  | idle =>
    simp only [runFr, execFrIdle] at h
    split at h
    · next he =>
      cases h
      cases hq : s.link.rxQ with
      | nil => exact .idle hq (by simp_all [State.frEnabled])
      | cons b q => simp [State.frEnabled, State.rxReady, hq] at he
    · cases h
  | tmo =>
    simp only [runFr, execFrTmo] at h
    split at h
    · next he => cases h; exact .timeout he
    · cases h
  | drop =>
    obtain ⟨he, b, q, hq, rfl⟩ := withByte_next h
    simp only [State.frEnabled, Bool.and_eq_true] at he
    exact .drop hq he.2
  | hdrAcc =>
    obtain ⟨he, b, q, hq, rfl⟩ := withByte_next h
    simp only [State.frEnabled, Bool.and_eq_true, Bool.not_eq_true', decide_eq_true_eq] at he
    obtain ⟨⟨⟨-, hf⟩, hs⟩, hc⟩ := he
    exact .headerByte hq hf hs hc
  | hdrMismatch =>
    obtain ⟨he, b, q, hq, rfl⟩ := withByte_next h
    simp only [State.frEnabled, Bool.and_eq_true, Bool.not_eq_true', decide_eq_true_eq] at he
    obtain ⟨⟨⟨⟨-, hf⟩, hs⟩, hc⟩, hg⟩ := he
    have hg' : s.hdrGuard ≠ s.cfg.guard := fun e => by simp [(guardOk_iff s).mpr e] at hg
    rw [ninthByte_eq]
    rcases headerEffect_cases s.hdrGuard (storeHeader 8 b s).hdrSize b
        (storeHeader 8 b (timerRestart { s with link.rxQ := q })) with ⟨-, e⟩ | ⟨e, -⟩ | ⟨e, -⟩
    · exact e ▸ .headerRejected hq hf hs hc hg'
    · exact absurd e hg'
    · exact absurd e hg'
  | hdrMatch =>
    obtain ⟨he, b, q, hq, rfl⟩ := withByte_next h
    simp only [State.frEnabled, Bool.and_eq_true, Bool.not_eq_true', decide_eq_true_eq, guardOk_iff] at he
    obtain ⟨⟨⟨⟨-, hf⟩, hs⟩, hc⟩, hg⟩ := he
    rw [ninthByte_eq]
    rcases headerEffect_cases s.hdrGuard (storeHeader 8 b s).hdrSize b
        (storeHeader 8 b (timerRestart { s with link.rxQ := q })) with ⟨e, -⟩ | ⟨-, hz, e⟩ | ⟨-, hz, e⟩
    · exact absurd hg e
    · exact e ▸ .emptyFrame hq hf hs hc hg hz
    · exact e ▸ .bodyBegins hq hf hs hc hg hz
  | body =>
    obtain ⟨he, b, q, hq, rfl⟩ := withByte_next h
    simp only [State.frEnabled, Bool.and_eq_true, Bool.not_eq_true', decide_eq_true_eq] at he
    obtain ⟨⟨-, hf⟩, hs⟩ := he
    dsimp only
    split
    · next hc => exact .bodyEnds hq hf hs hc
    · next hc => exact .bodyByte hq hf hs hc

/-! ## Where the fields of a next state come from -/

theorem alignDown_mod (a m : Nat) : alignDown a m % m = 0 :=
  Nat.mod_eq_zero_of_dvd (Nat.dvd_sub_mod a)

theorem DispatchStep.cfg {s t : State} (h : DispatchStep s t) : t.cfg = s.cfg := by cases h <;> rfl

theorem DispatchStep.fl {s t : State} (h : DispatchStep s t) : t.fl = s.fl := by cases h <;> rfl

theorem DispatchStep.rx {s t : State} (h : DispatchStep s t) : t.rx = { s.rx with frameComplete := false } := by
  cases h <;> rfl

theorem DispatchStep.tmoFlag {s t : State} (h : DispatchStep s t) : t.tmoFlag = s.tmoFlag := by cases h <;> rfl

/-- A poll is a receiver operation. -/
theorem frPoll_next {s t : State} (h : frPoll s = .next t) : ReceiverStep s (decodePoll s.pollWord) t := runFr_next h

theorem onlyReceiver_frPoll {s t : State} (h : frPoll s = .next t) : OnlyReceiver s t := onlyReceiver_runFr h

/-- The receiver after a move, by what wrote it last. -/
inductive RxOrigin (s t : State) : Prop where
  | kept (h : t.rx = s.rx)
  | received (op : FrOp) (u : State) (hu : ReceiverStep s op u) (h : t.rx = u.rx)
  | answered (h : t.rx = { s.rx with frameComplete := false })
  | launched (h : t.rx = (State.launchOf s.cfg).rx)

/-- The session after a move, by what wrote it last. -/
inductive SesOrigin (s t : State) : Prop where
  | kept (h : t.ses = s.ses)
  | dispatched (u : State) (hu : DispatchStep s u) (h : t.ses = u.ses)
  | programmed (h : t.ses = { s.ses with stagedReady := false })
  | launched (h : t.ses = (State.launchOf s.cfg).ses)

/-- The flash array, its marks and its lock bits after a move, by what wrote them last. -/
inductive ArrayOrigin (s t : State) : Prop where
  | kept (hc : t.fl.cells = s.fl.cells) (he : t.fl.erased = s.fl.erased) (hl : t.fl.locked = s.fl.locked)
  | applied (op : FlashOp) (hi : s.fl.inFlight = some op) (ha : Applied s.cfg op s.fl t.fl)
  | launched (hc : t.fl.cells = s.fl.cells) (he : t.fl.erased = s.fl.erased)
      (hl : t.fl.locked.length = s.cfg.regionCount)

theorem ControllerStep.cfg {s t : State} (h : ControllerStep s t) : t.cfg = s.cfg := by
  cases h with
  | poll _ u hu => exact (onlyReceiver_frPoll hu).cfg
  | busy _ _ _ ht => exact (onlyReceiver_frPoll ht).cfg
  | dispatch _ _ u hu => exact hu.cfg
  | noFrame | noBlock | start | unlockLast | unlockMore | erase | pageLast | pageMore | final | wait | finish => rfl

theorem ControllerStep.rxOrigin {s t : State} (h : ControllerStep s t) : RxOrigin s t := by
  cases h with
  | poll _ u hu => exact .received _ u (frPoll_next hu) rfl
  | busy _ _ _ ht => exact .received _ t (frPoll_next ht) rfl
  | dispatch _ _ u hu => exact .answered hu.rx
  | finish => exact .launched rfl
  | noFrame | noBlock | start | unlockLast | unlockMore | erase | pageLast | pageMore | final | wait => exact .kept rfl

theorem ControllerStep.sesOrigin {s t : State} (h : ControllerStep s t) : SesOrigin s t := by
  cases h with
  | poll _ u hu => exact .kept (onlyReceiver_frPoll hu).ses
  | busy _ _ _ ht => exact .kept (onlyReceiver_frPoll ht).ses
  | dispatch _ _ u hu => exact .dispatched u hu rfl
  | final => exact .programmed rfl
  | finish => exact .launched rfl
  | noFrame | noBlock | start | unlockLast | unlockMore | erase | pageLast | pageMore | wait => exact .kept rfl

theorem arrayOrigin_of_fl_eq {s t : State} (h : t.fl = s.fl) : ArrayOrigin s t := by
  refine .kept ?_ ?_ ?_ <;> rw [h]

theorem ControllerStep.arrayOrigin {s t : State} (h : ControllerStep s t) : ArrayOrigin s t := by
  cases h with
  | poll _ u hu => exact arrayOrigin_of_fl_eq (onlyReceiver_frPoll hu).fl
  | busy _ _ _ ht => exact arrayOrigin_of_fl_eq (onlyReceiver_frPoll ht).fl
  | dispatch _ _ u hu => exact arrayOrigin_of_fl_eq hu.fl
  | noFrame | noBlock | start | unlockLast | unlockMore | erase | pageLast | pageMore | final | wait | finish =>
    exact .kept rfl rfl rfl

/-- An agent's move, enabled or not. -/
inductive AgentStep (s : State) : Move → State → Prop where
  | controller (f : Bool) : AgentStep s (.controller f) s
  | hostByte (b : Byte) : AgentStep s (.hostByte b) { s with link.rxQ := s.link.rxQ ++ [b] }
  | timerExpire : AgentStep s .timerExpire { s with tmoFlag := true }
  | flashDone (ok : Bool) (n : Nat) (op : FlashOp) (hi : s.fl.inFlight = some op) (fl' : FlashCtl)
      (ha : Applied s.cfg op s.fl fl') :
      AgentStep s (.flashDone ok n) { s with fl := { fl' with inFlight := none, status := n } }
  | flashIdle (ok : Bool) (n : Nat) (hi : s.fl.inFlight = none) : AgentStep s (.flashDone ok n) s
  | linkSent {b : Byte} {q : List Byte} (hp : s.link.txPend = b :: q) :
      AgentStep s .linkSent { s with link.txDone := s.link.txDone ++ [b], link.txPend := q }
  | linkIdle (hp : s.link.txPend = []) : AgentStep s .linkSent s
  | launch (l : List Bool) (tmo : Bool) (he : s.ended.isSome = true) (hi : s.fl.inFlight = none) :
      AgentStep s (.launch l tmo) (launch l tmo s)
  | launchDisabled (l : List Bool) (tmo : Bool) (h : s.ended = none ∨ s.fl.inFlight.isSome = true) :
      AgentStep s (.launch l tmo) s

theorem agentMove_step (m : Move) (s : State) : AgentStep s m (agentMove m s) := by
  cases m with
  | controller f => exact .controller f
  | hostByte b => exact .hostByte b
  | timerExpire => exact .timerExpire
  | flashDone ok n =>
    simp only [agentMove]
    rcases flashComplete_cases ok n s with ⟨hi, e⟩ | ⟨op, fl', hi, ha, e⟩
    · rw [e]; exact .flashIdle ok n hi
    · rw [e]; exact .flashDone ok n op hi fl' ha
  | linkSent =>
    cases hp : s.link.txPend with
    | nil => simpa [agentMove, transmit, hp] using AgentStep.linkIdle hp
    | cons b q => simpa [agentMove, transmit, hp] using AgentStep.linkSent hp
  | launch l tmo =>
    by_cases h : s.ended = none ∨ s.fl.inFlight.isSome = true
    · rw [agentMove_launch_disabled h]; exact .launchDisabled l tmo h
    · obtain ⟨he, hi⟩ : s.ended.isSome = true ∧ s.fl.inFlight = none := by
        simpa [Option.isSome_iff_ne_none] using h
      have hm : agentMove (.launch l tmo) s = launch l tmo s := by simp [agentMove, State.flBusy, he, hi]
      rw [hm]; exact .launch l tmo he hi

theorem launch_locked_length (l : List Bool) (tmo : Bool) (s : State) :
    (launch l tmo s).fl.locked.length = s.cfg.regionCount := by
  simp [launch]

theorem AgentStep.cfg {m : Move} {s t : State} (h : AgentStep s m t) : t.cfg = s.cfg := by cases h <;> rfl

theorem AgentStep.rxOrigin {m : Move} {s t : State} (h : AgentStep s m t) : RxOrigin s t := by
  cases h with
  | launch => exact .launched rfl
  | controller | hostByte | timerExpire | flashDone | flashIdle | linkSent | linkIdle | launchDisabled =>
    exact .kept rfl

theorem AgentStep.sesOrigin {m : Move} {s t : State} (h : AgentStep s m t) : SesOrigin s t := by
  cases h with
  | launch => exact .launched rfl
  | controller | hostByte | timerExpire | flashDone | flashIdle | linkSent | linkIdle | launchDisabled =>
    exact .kept rfl

theorem AgentStep.arrayOrigin {m : Move} {s t : State} (h : AgentStep s m t) : ArrayOrigin s t := by
  cases h with
  | flashDone ok n op hi fl' ha =>
    exact .applied op hi ⟨ha.cells, ha.erased, ha.lockedLength, ha.lockedMono, ha.bank⟩
  | launch l tmo => exact .launched rfl rfl (launch_locked_length l tmo s)
  | controller | hostByte | timerExpire | flashIdle | linkSent | linkIdle | launchDisabled => exact .kept rfl rfl rfl

/-! ## Every step, whichever agent moves -/

theorem step_cfg_moved {s t : State} (h : step s = .next t) : t.cfg = s.moved.cfg := by
  cases (step_next h).2 with
  | controller _ _ _ _ ht => exact ht.cfg
  | runOver => rfl
  | agent => exact (agentMove_step s.nextMove s.moved).cfg

theorem step_rxOrigin {s t : State} (h : step s = .next t) : RxOrigin s.moved t := by
  cases (step_next h).2 with
  | controller _ _ _ _ ht => exact ht.rxOrigin
  | runOver => exact .kept rfl
  | agent => exact (agentMove_step s.nextMove s.moved).rxOrigin

theorem step_sesOrigin {s t : State} (h : step s = .next t) : SesOrigin s.moved t := by
  cases (step_next h).2 with
  | controller _ _ _ _ ht => exact ht.sesOrigin
  | runOver => exact .kept rfl
  | agent => exact (agentMove_step s.nextMove s.moved).sesOrigin

theorem step_arrayOrigin {s t : State} (h : step s = .next t) : ArrayOrigin s.moved t := by
  cases (step_next h).2 with
  | controller _ _ _ _ ht => exact ht.arrayOrigin
  | runOver => exact .kept rfl rfl rfl
  | agent => exact (agentMove_step s.nextMove s.moved).arrayOrigin

/-! ## The receiver's invariant -/

theorem frInv_of_rx_eq {s t : State} (h : t.rx = s.rx) (hs : s.FrInv) : t.FrInv := by
  obtain ⟨hp, hh, hb⟩ := hs
  constructor <;> rwa [h]

/-- A cursor below `f_size` that does not reach it with the next byte stays below it. -/
theorem cursor_succ_lt {c z : Word} (h : c.toNat < z.toNat) (hne : c + 1 ≠ z) : (c + 1).toNat < z.toNat := by
  bv_omega

theorem ReceiverStep.frInv {op : FrOp} {s t : State} (h : ReceiverStep s op t) (hs : s.FrInv) : t.FrInv := by
  cases h with
  | idle => exact hs
  | drop => exact frInv_of_rx_eq (s := s) rfl hs
  | timeout => exact ⟨fun _ => ⟨rfl, rfl⟩, fun _ => Nat.zero_le 8, nofun⟩
  | headerByte _ hf hst hc =>
    exact ⟨fun hp => absurd hp (by simp [hf]), fun _ => by dsimp only; bv_omega, fun hb => absurd hb (by simp [hst])⟩
  | headerRejected _ hf hst =>
    exact ⟨fun _ => ⟨hst, rfl⟩, fun _ => Nat.zero_le 8, fun hb => absurd hb (by simp [hst])⟩
  | emptyFrame _ _ hst =>
    exact ⟨fun _ => ⟨hst, rfl⟩, fun _ => Nat.zero_le 8, fun hb => absurd hb (by simp [hst])⟩
  | bodyBegins _ hf _ _ _ hz =>
    exact ⟨fun hp => absurd hp (by simp [hf]), nofun, fun _ => by dsimp only; bv_omega⟩
  | bodyByte _ hf hst hc =>
    exact ⟨fun hp => absurd hp (by simp [hf]), fun hh => absurd hh (by simp [hst]),
      fun _ => cursor_succ_lt (hs.body hst) hc⟩
  | bodyEnds => exact ⟨fun _ => ⟨rfl, rfl⟩, fun _ => Nat.zero_le 8, nofun⟩

theorem frInv_launchOf (cfg : Config) : (State.launchOf cfg).FrInv := ⟨nofun, fun _ => Nat.zero_le 8, nofun⟩

theorem RxOrigin.frInv {s t : State} (h : RxOrigin s t) (hs : s.FrInv) : t.FrInv := by
  cases h with
  | kept e => exact frInv_of_rx_eq e hs
  | received op u hu e => exact frInv_of_rx_eq e (hu.frInv hs)
  | answered e =>
    have hr : ({ s with rx.frameComplete := false } : State).FrInv := ⟨nofun, hs.header, hs.body⟩
    exact frInv_of_rx_eq e hr
  | launched e => exact frInv_of_rx_eq e (frInv_launchOf s.cfg)

/-! ## The window's invariant -/

theorem winInv_of_bounds_eq {s t : State} (hc : t.cfg = s.cfg) (hb : t.ses.winBegin = s.ses.winBegin)
    (he : t.ses.winEnd = s.ses.winEnd) (hs : s.WinInv) : t.WinInv := by
  obtain ⟨hw, ha, hz⟩ := hs
  constructor
  · rwa [hc, hb, he]
  · rwa [hc, hb]
  · rwa [hc, he]

theorem winInv_empty {s : State} (hb : s.ses.winBegin = 0) (he : s.ses.winEnd = 0) : s.WinInv :=
  ⟨.inr ⟨hb, he⟩, by simp [hb], by simp [he]⟩

/-- The bounds of R94 are multiples of `EB_SIZE`. -/
theorem unlockAlign_aligned (c : Config) (addr size : Word) :
    (c.unlockAlign addr size).1 % c.ebSize = 0 ∧ (c.unlockAlign addr size).2 % c.ebSize = 0 := by
  simp [Config.unlockAlign, Nat.add_mod, alignDown_mod]

theorem flashLimit_lt {c : Config} (h : c.valid = true) : c.flashLimit < 2 ^ 32 := by
  simp only [Config.valid, decide_eq_true_eq] at h
  omega

theorem DispatchStep.winInv {s t : State} (h : DispatchStep s t) (hv : s.cfg.valid = true) (hs : s.WinInv) :
    t.WinInv := by
  cases h with
  | answer | staged | action => exact winInv_of_bounds_eq (s := s) rfl rfl rfl hs
  | cleared => exact winInv_empty rfl rfl
  | window b e addr size hw hbe he =>
    have hlim := flashLimit_lt hv
    obtain ⟨hab, hae⟩ := unlockAlign_aligned s.cfg addr size
    rw [hw] at hab hae
    have hb : (BitVec.ofNat 32 b).toNat = b := Nat.mod_eq_of_lt (by omega)
    have he' : (BitVec.ofNat 32 e).toNat = e := Nat.mod_eq_of_lt (by omega)
    constructor <;> simp only [respond_ses, respond_cfg, hb, he']
    · exact .inl ⟨hbe, he⟩
    · exact hab
    · exact hae

theorem SesOrigin.winInv {s t : State} (h : SesOrigin s t) (hc : t.cfg = s.cfg) (hv : s.cfg.valid = true)
    (hs : s.WinInv) : t.WinInv := by
  cases h with
  | kept e => exact winInv_of_bounds_eq hc (by rw [e]) (by rw [e]) hs
  | dispatched u hu e => exact winInv_of_bounds_eq (hc.trans hu.cfg.symm) (by rw [e]) (by rw [e]) (hu.winInv hv hs)
  | programmed e => exact winInv_of_bounds_eq hc (by rw [e]) (by rw [e]) hs
  | launched e => exact winInv_empty (by rw [e]; rfl) (by rw [e]; rfl)

/-! ## The buffers' sizes, the lock bits and the flash array's representation -/

theorem ReceiverStep.payBuf_length {op : FrOp} {s t : State} (h : ReceiverStep s op t) :
    t.rx.payBuf.length = s.rx.payBuf.length := by
  cases h with
  | bodyByte | bodyEnds => dsimp only; split <;> simp
  | idle | timeout | drop | headerByte | headerRejected | emptyFrame | bodyBegins => rfl

theorem RxOrigin.payBuf_length {s t : State} (h : RxOrigin s t) (hs : s.rx.payBuf.length = s.cfg.maxPayload) :
    t.rx.payBuf.length = s.cfg.maxPayload := by
  cases h with
  | kept e => rw [e, hs]
  | received op u hu e => rw [e, hu.payBuf_length, hs]
  | answered e => rw [e, hs]
  | launched e => rw [e]; exact List.length_replicate

theorem DispatchStep.stagedData_length {s t : State} (h : DispatchStep s t)
    (hs : s.ses.stagedData.length = s.cfg.ebSize) : t.ses.stagedData.length = s.cfg.ebSize := by
  cases h with
  | staged _ _ _ hl => exact hl
  | answer | window | cleared | action => exact hs

theorem SesOrigin.stagedData_length {s t : State} (h : SesOrigin s t)
    (hs : s.ses.stagedData.length = s.cfg.ebSize) : t.ses.stagedData.length = s.cfg.ebSize := by
  cases h with
  | kept e => rw [e, hs]
  | dispatched u hu e => rw [e, hu.stagedData_length hs]
  | programmed e => rw [e, hs]
  | launched e => rw [e]; exact List.length_replicate

theorem ArrayOrigin.locked_length {s t : State} (h : ArrayOrigin s t)
    (hs : s.fl.locked.length = s.cfg.regionCount) : t.fl.locked.length = s.cfg.regionCount := by
  cases h with
  | kept _ _ hl => rw [hl, hs]
  | applied op _ ha => rw [ha.lockedLength, hs]
  | launched _ _ hl => exact hl

theorem memInv_of_array_eq {s t : State} (hcfg : t.cfg = s.cfg) (hc : t.fl.cells = s.fl.cells)
    (he : t.fl.erased = s.fl.erased) (hs : s.MemInv) : t.MemInv := by
  obtain ⟨hw, ha, hp⟩ := hs
  exact ⟨by rwa [hc], by rwa [hc, hcfg], by rwa [he]⟩

theorem ArrayOrigin.memInv {s t : State} (h : ArrayOrigin s t) (hcfg : t.cfg = s.cfg) (hs : s.MemInv) : t.MemInv := by
  cases h with
  | kept hc he => exact memInv_of_array_eq hcfg hc he hs
  | launched hc he => exact memInv_of_array_eq hcfg hc he hs
  | applied op _ ha =>
    obtain ⟨bs, -, hc⟩ := ha.cells
    constructor
    · rw [hc]; exact Memory.wf_store _ hs.cells _ _
    · rw [hc, hcfg]; exact Memory.store_inArray _ hs.inArray _ _
    · exact ha.erased hs.erased

/-! ## Every step keeps the invariants -/

theorem bufInv_moved {s : State} (hs : s.BufInv) : s.moved.BufInv := by
  have hm := sameMachine_moved s
  obtain ⟨hp, hd, hl⟩ := hs
  exact ⟨by rwa [hm.rx, hm.cfg], by rwa [hm.ses, hm.cfg], by rwa [hm.fl, hm.cfg]⟩

theorem memInv_moved {s : State} (hs : s.MemInv) : s.moved.MemInv := by
  have hm := sameMachine_moved s
  exact memInv_of_array_eq hm.cfg (by rw [hm.fl]) (by rw [hm.fl]) hs

theorem bufInv_step {s t : State} (h : step s = .next t) (hs : s.BufInv) : t.BufInv := by
  have hm := bufInv_moved hs
  have hc := step_cfg_moved h
  constructor <;> rw [hc]
  · exact (step_rxOrigin h).payBuf_length hm.payBuf
  · exact (step_sesOrigin h).stagedData_length hm.stagedData
  · exact (step_arrayOrigin h).locked_length hm.locked

theorem memInv_step {s t : State} (h : step s = .next t) (hs : s.MemInv) : t.MemInv :=
  (step_arrayOrigin h).memInv (step_cfg_moved h) (memInv_moved hs)

theorem frInv_step {s t : State} (h : step s = .next t) (hs : s.FrInv) : t.FrInv :=
  (step_rxOrigin h).frInv (frInv_of_rx_eq (sameMachine_moved s).rx hs)

theorem winInv_step {s t : State} (h : step s = .next t) (hs : s.WinInv) : t.WinInv := by
  have hm := sameMachine_moved s
  have hv : s.moved.cfg.valid = true := by rw [hm.cfg]; exact (step_next h).1
  exact (step_sesOrigin h).winInv (step_cfg_moved h) hv (winInv_of_bounds_eq hm.cfg (by rw [hm.ses]) (by rw [hm.ses]) hs)

/-- Settles O52, by what the receiver of a next state comes from: a receiver operation, an answer, or a launch. -/
theorem stepKeepsReceiverInvariant : Obligations.StepKeepsReceiverInvariant := fun _ _ hs h => frInv_step h hs

/-- Settles O53: only a dispatched UNLOCK, the end of a run and a launch write the window. -/
theorem stepKeepsWindowInvariant : Obligations.StepKeepsWindowInvariant := fun _ _ hs h => winInv_step h hs

/-- Settles O54, part by part: the payload buffer from the receiver's origin, the staged data from the session's, lock bits
and cells from the array's. -/
theorem stepKeepsStorageShape : Obligations.StepKeepsStorageShape := fun _ _ hb hm h =>
  ⟨bufInv_step h hb, memInv_step h hm⟩

/-! ## The state after reset -/

theorem winInv_launchOf (cfg : Config) : (State.launchOf cfg).WinInv := winInv_empty rfl rfl

theorem bufInv_launchOf (cfg : Config) : (State.launchOf cfg).BufInv :=
  ⟨List.length_replicate, List.length_replicate, List.length_replicate⟩

theorem memInv_launchOf (cfg : Config) : (State.launchOf cfg).MemInv := ⟨rfl, nofun, .nil⟩

theorem seqInv_launchOf (cfg : Config) : (State.launchOf cfg).SeqInv := ⟨nofun, nofun, nofun, nofun, nofun, nofun⟩

/-- Settles O51: the launch state meets the invariants under every configuration. -/
theorem resetMeetsTheInvariants : Obligations.ResetMeetsTheInvariants :=
  ⟨frInv_launchOf _, winInv_launchOf _, bufInv_launchOf _, memInv_launchOf _, seqInv_launchOf _⟩

/-! ## The timer's flag -/

/-- The instructions that may clear the timer's flag: those that restart the timer, and those that contain a poll. -/
def timerClearers : List Instr :=
  [.frTmo, .frHdrByteAcc, .frHdrByteMismatch, .frHdrByteMatch, .frBodyByte, .sPoll, .sUnlock, .sErase, .sPage, .sFinal]

theorem ReceiverStep.tmoFlag {op : FrOp} {s t : State} (h : ReceiverStep s op t) :
    t.tmoFlag = s.tmoFlag ∨ (op.instr ∈ timerClearers ∧ t.tmoFlag = false) := by
  cases h with
  | idle | drop => exact .inl rfl
  | timeout | headerByte | headerRejected | emptyFrame | bodyBegins | bodyByte | bodyEnds =>
    exact .inr ⟨by decide, rfl⟩

/-- A receiver operation as an instruction. -/
theorem exec_frOp (op : FrOp) (s : State) : exec op.instr s = runFr op s := by cases op <;> rfl

theorem frOp_tmoFlag {op : FrOp} {s t : State} (h : exec op.instr s = .next t) :
    t.tmoFlag = s.tmoFlag ∨ (op.instr ∈ timerClearers ∧ t.tmoFlag = false) :=
  (runFr_next (exec_frOp op s ▸ h)).tmoFlag

theorem frPoll_tmoFlag {i : Instr} {s t : State} (hi : i ∈ timerClearers) (h : frPoll s = .next t) :
    t.tmoFlag = s.tmoFlag ∨ (i ∈ timerClearers ∧ t.tmoFlag = false) :=
  (frPoll_next h).tmoFlag.imp_right fun ⟨_, hf⟩ => ⟨hi, hf⟩

theorem headerEffect_tmoFlag (g z : Word) (c : Byte) (s : State) : (headerEffect g z c s).tmoFlag = s.tmoFlag := by
  rcases headerEffect_cases g z c s with ⟨-, e⟩ | ⟨-, -, e⟩ | ⟨-, -, e⟩ <;> simp only [e, linkWrite_tmoFlag]

/-- What an instruction can do to the timer's flag. -/
theorem exec_tmoFlag {i : Instr} {s t : State} (h : exec i s = .next t) :
    t.tmoFlag = s.tmoFlag ∨ (i ∈ timerClearers ∧ t.tmoFlag = false) := by
  cases i with
  | frameHeader g z c => cases h; exact .inl (headerEffect_tmoFlag g z c s)
  | unlock addr size =>
    simp only [exec, execUnlock] at h
    split at h <;> cases h <;> exact .inl rfl
  | data fSize addr block =>
    simp only [exec, execData] at h
    repeat' split at h
    all_goals cases h
    all_goals exact .inl rfl
  | verify | reset | bkswapReset | unknownCmd | rspOk | rspError | rspInvalid | rspCrcOk | rspCrcFail =>
    cases h; exact .inl rfl
  | frIdle => exact frOp_tmoFlag (op := .idle) h
  | frTmo => exact frOp_tmoFlag (op := .tmo) h
  | frDrop => exact frOp_tmoFlag (op := .drop) h
  | frHdrByteAcc => exact frOp_tmoFlag (op := .hdrAcc) h
  | frHdrByteMismatch => exact frOp_tmoFlag (op := .hdrMismatch) h
  | frHdrByteMatch => exact frOp_tmoFlag (op := .hdrMatch) h
  | frBodyByte => exact frOp_tmoFlag (op := .body) h
  | sPoll =>
    obtain ⟨u, hu, rfl⟩ := andThen_eq_next h
    simpa only [goto_tmoFlag] using frPoll_tmoFlag (i := .sPoll) (by decide) hu
  | sDispatch =>
    simp only [exec, execSDispatch] at h
    split at h
    · obtain ⟨u, hu, rfl⟩ := andThen_eq_next h
      exact .inl (dispatch_next hu).tmoFlag
    · cases h; exact .inl rfl
  | sCheck =>
    simp only [exec, execSCheck] at h
    repeat' split at h
    all_goals cases h
    all_goals exact .inl rfl
  | sUnlock =>
    simp only [exec, execSUnlock] at h
    split at h
    · exact frPoll_tmoFlag (by decide) h
    · split at h <;> cases h <;> exact .inl rfl
  | sErase =>
    simp only [exec, execSErase] at h
    split at h
    · exact frPoll_tmoFlag (by decide) h
    · cases h; exact .inl rfl
  | sPage =>
    simp only [exec, execSPage] at h
    split at h
    · exact frPoll_tmoFlag (by decide) h
    · split at h <;> cases h <;> exact .inl rfl
  | sFinal =>
    simp only [exec, execSFinal] at h
    split at h
    · exact frPoll_tmoFlag (by decide) h
    · cases h; exact .inl rfl
  | sTxwait =>
    simp only [exec, execSTxwait] at h
    repeat' split at h
    all_goals cases h
    all_goals exact .inl rfl

theorem exec_keeps_tmoFlag_clear {i : Instr} {s t : State} (h : exec i s = .next t) (hs : s.tmoFlag = false) :
    t.tmoFlag = false :=
  (exec_tmoFlag h).elim (·.trans hs) (·.2)

theorem AgentStep.raises_tmoFlag {m : Move} {s t : State} (h : AgentStep s m t) (hs : s.tmoFlag = false)
    (ht : t.tmoFlag = true) : m = .timerExpire ∨ (s.ended.isSome = true ∧ ∃ l, m = .launch l true) := by
  cases h with
  | timerExpire => exact .inl rfl
  | launch l tmo he => cases ht; exact .inr ⟨he, l, rfl⟩
  | controller | hostByte | flashDone | flashIdle | linkSent | linkIdle | launchDisabled =>
    exact absurd ht (by simp [hs])

theorem step_raises_tmoFlag {s t : State} (h : step s = .next t) (hs : s.tmoFlag = false) (ht : t.tmoFlag = true) :
    s.nextMove = .timerExpire ∨ (s.ended.isSome = true ∧ ∃ l, s.nextMove = .launch l true) := by
  have hm := sameMachine_moved s
  have hs' : s.moved.tmoFlag = false := hm.tmoFlag.trans hs
  obtain ⟨hv, hstep⟩ := step_next h
  cases hstep with
  | controller f hn he =>
    rw [step_controller hv hn he] at h
    exact absurd ht (by simp [exec_keeps_tmoFlag_clear h hs'])
  | runOver => exact absurd ht (by simp [hs'])
  | agent => exact hm.ended ▸ (agentMove_step s.nextMove s.moved).raises_tmoFlag hs' ht

/-- Settles O49: an instruction leaves the flag or clears it, so a step that raises it is an agent's. -/
theorem timerFlagSetByTimerOnly : Obligations.TimerFlagSetByTimerOnly :=
  ⟨fun _ _ _ h => ⟨exec_keeps_tmoFlag_clear h, fun hi => (exec_tmoFlag h).resolve_right fun hc => hi hc.1⟩,
    fun _ _ => step_raises_tmoFlag⟩

/-! ## The status word of the flash controller -/

/-- The state with this status word. -/
def State.withStatus (n : Nat) (s : State) : State := { s with fl.status := n }

/-- An operation that neither reads the status word nor writes it. -/
def IgnoresStatus (f : State → Result) : Prop := ∀ n s, f (s.withStatus n) = andThen (f s) (State.withStatus n)

theorem andThen_ite (c : Prop) [Decidable c] (a b : Result) (f : State → State) :
    andThen (if c then a else b) f = if c then andThen a f else andThen b f := apply_ite (andThen · f) c a b

theorem ignoresStatus_next {f : State → State} (h : ∀ n s, f (s.withStatus n) = (f s).withStatus n) :
    IgnoresStatus fun s => .next (f s) := fun n s => congrArg Host.Outcome.next (h n s)

theorem ignoresStatus_refused (e : Refusal) : IgnoresStatus fun _ => .refused e := fun _ _ => rfl

theorem ignoresStatus_fault (e : Fault) : IgnoresStatus fun _ => .fault e := fun _ _ => rfl

theorem IgnoresStatus.ite {c : State → Prop} [∀ s, Decidable (c s)] {f g : State → Result}
    (hc : ∀ n s, c (s.withStatus n) ↔ c s) (hf : IgnoresStatus f) (hg : IgnoresStatus g) :
    IgnoresStatus fun s => if c s then f s else g s := fun n s => by
  simp only [andThen_ite, hc, hf n s, hg n s]

theorem IgnoresStatus.andThen {f : State → Result} {g : State → State → State} (hf : IgnoresStatus f)
    (hg : ∀ n s t, g (s.withStatus n) (t.withStatus n) = (g s t).withStatus n) :
    IgnoresStatus fun s => andThen (f s) (g s) := fun n s => by
  simp only [hf n s]
  cases f s with
  | next t => exact congrArg Host.Outcome.next (hg n s t)
  | fault | refused => rfl

theorem ignoresStatus_withByte {op : FrOp} {f : Byte → State → State}
    (hf : ∀ b n s, f b (s.withStatus n) = (f b s).withStatus n) : IgnoresStatus fun s => withByte op s f := fun n s => by
  have he : (s.withStatus n).frEnabled op = s.frEnabled op := by cases op <;> rfl
  have hq : (s.withStatus n).link = s.link := rfl
  cases hb : s.link.rxQ with
  | nil => simp only [withByte, linkRead, he, hq, hb, andThen_ite, andThen_refused]
  | cons b q =>
    simp only [withByte, linkRead, he, hq, hb, andThen_ite, andThen_refused, andThen_next, ← hf]
    rfl

theorem headerEffect_withStatus (g z : Word) (c : Byte) (n : Nat) (s : State) :
    headerEffect g z c (s.withStatus n) = (headerEffect g z c s).withStatus n := by
  simp only [headerEffect, apply_ite (State.withStatus n)]
  rfl

theorem ninthByte_withStatus (b : Byte) (n : Nat) (s : State) :
    ninthByte b (s.withStatus n) = (ninthByte b s).withStatus n :=
  headerEffect_withStatus (storeHeader 8 b (timerRestart s)).hdrGuard (storeHeader 8 b (timerRestart s)).hdrSize
    (storeHeader 8 b (timerRestart s)).hdrCmd n (storeHeader 8 b (timerRestart s))

theorem ignoresStatus_runFr (op : FrOp) : IgnoresStatus (runFr op) := by
  cases op with
  | idle => exact .ite (fun _ _ => .rfl) (ignoresStatus_next fun _ _ => rfl) (ignoresStatus_refused _)
  | tmo => exact .ite (fun _ _ => .rfl) (ignoresStatus_next fun _ _ => rfl) (ignoresStatus_refused _)
  | drop => exact ignoresStatus_withByte fun _ _ _ => rfl
  | hdrAcc => exact ignoresStatus_withByte fun _ _ _ => rfl
  | hdrMismatch => exact ignoresStatus_withByte ninthByte_withStatus
  | hdrMatch => exact ignoresStatus_withByte ninthByte_withStatus
  | body =>
    refine ignoresStatus_withByte fun b n s => ?_
    rw [apply_ite (State.withStatus n)]
    rfl

theorem ignoresStatus_frPoll : IgnoresStatus frPoll := fun n s => ignoresStatus_runFr (decodePoll s.pollWord) n s

theorem ignoresStatus_execUnlock (addr size : Word) : IgnoresStatus (execUnlock addr size) :=
  .ite (fun _ _ => .rfl) (ignoresStatus_next fun _ _ => rfl) (ignoresStatus_next fun _ _ => rfl)

theorem ignoresStatus_execData (fSize addr : Word) (block : List Byte) : IgnoresStatus (execData fSize addr block) :=
  .ite (fun _ _ => .rfl) (ignoresStatus_next fun _ _ => rfl) <|
    .ite (fun _ _ => .rfl)
      (.ite (fun _ _ => .rfl) (ignoresStatus_fault _) (ignoresStatus_next fun _ _ => rfl))
      (ignoresStatus_next fun _ _ => rfl)

theorem ignoresStatus_dispatch : IgnoresStatus dispatch :=
  .ite (fun _ _ => .rfl) (fun n s => ignoresStatus_execUnlock (s.payWord 0) (s.payWord 4) n s) <|
  .ite (fun _ _ => .rfl) (fun n s => ignoresStatus_execData s.rx.fSize (s.payWord 0) s.payBlock n s) <|
  .ite (fun _ _ => .rfl) (ignoresStatus_next fun _ _ => rfl) <|
  .ite (fun _ _ => .rfl) (ignoresStatus_next fun _ _ => rfl) <|
  .ite (fun _ _ => .rfl) (ignoresStatus_next fun _ _ => rfl) (ignoresStatus_next fun _ _ => rfl)

theorem exec_ignoresStatus {i : Instr} (hi : i ≠ .sTxwait) : IgnoresStatus (exec i) := by
  cases i with
  | frameHeader g z c => exact ignoresStatus_next (headerEffect_withStatus g z c)
  | unlock addr size => exact ignoresStatus_execUnlock addr size
  | data fSize addr block => exact ignoresStatus_execData fSize addr block
  | verify | reset | bkswapReset | unknownCmd | rspOk | rspError | rspInvalid | rspCrcOk | rspCrcFail =>
    exact ignoresStatus_next fun _ _ => rfl
  | frIdle => exact ignoresStatus_runFr .idle
  | frTmo => exact ignoresStatus_runFr .tmo
  | frDrop => exact ignoresStatus_runFr .drop
  | frHdrByteAcc => exact ignoresStatus_runFr .hdrAcc
  | frHdrByteMismatch => exact ignoresStatus_runFr .hdrMismatch
  | frHdrByteMatch => exact ignoresStatus_runFr .hdrMatch
  | frBodyByte => exact ignoresStatus_runFr .body
  | sPoll => exact ignoresStatus_frPoll.andThen fun _ _ _ => rfl
  | sDispatch =>
    exact .ite (fun _ _ => .rfl) (ignoresStatus_dispatch.andThen fun _ _ _ => rfl) (ignoresStatus_next fun _ _ => rfl)
  | sCheck =>
    exact .ite (fun _ _ => .rfl)
      (.ite (fun _ _ => .rfl) (ignoresStatus_fault _)
        (.ite (fun _ _ => .rfl) (ignoresStatus_fault _) (ignoresStatus_next fun _ _ => rfl)))
      (ignoresStatus_next fun _ _ => rfl)
  | sUnlock =>
    exact .ite (fun _ _ => .rfl) ignoresStatus_frPoll
      (.ite (fun _ _ => .rfl) (ignoresStatus_next fun _ _ => rfl) (ignoresStatus_next fun _ _ => rfl))
  | sErase => exact .ite (fun _ _ => .rfl) ignoresStatus_frPoll (ignoresStatus_next fun _ _ => rfl)
  | sPage =>
    exact .ite (fun _ _ => .rfl) ignoresStatus_frPoll
      (.ite (fun _ _ => .rfl) (ignoresStatus_next fun _ _ => rfl) (ignoresStatus_next fun _ _ => rfl))
  | sFinal => exact .ite (fun _ _ => .rfl) ignoresStatus_frPoll (ignoresStatus_next fun _ _ => rfl)
  | sTxwait => exact absurd rfl hi

/-- How the run ends under an action (R116, R149). -/
def TxAction.endKind : TxAction → EndKind
  | .systemReset => .systemReset
  | .bankSwap => .bankSwapRestart

theorem exec_sTxwait_of_pending {s : State} (h : s.link.txPend ≠ []) : exec .sTxwait s = .next s :=
  if_neg fun hc => h ((txComplete_iff s).mp hc)

theorem exec_sTxwait_of_transmitted {s : State} (h : s.link.txPend = []) :
    exec .sTxwait s = .next (endRun s.fps.txAction.endKind s) := by
  simp only [exec, execSTxwait, (txComplete_iff s).mpr h, if_true]
  cases s.fps.txAction <;> rfl

/-- The end of a run loses the status word. -/
theorem endRun_withStatus (k : EndKind) (n : Nat) (s : State) : endRun k (s.withStatus n) = endRun k s := rfl

/-- Settles O50: every instruction but S_TXWAIT commutes with setting the word; S_TXWAIT does while it waits, and else
ends the run, which loses the word. -/
theorem flashStatusInfluencesNothing : Obligations.FlashStatusInfluencesNothing := fun i s n => by
  refine ⟨fun h => ?_, fun h => ?_⟩
  · by_cases hi : i = .sTxwait
    · subst hi
      have hp : s.link.txPend ≠ [] := h.resolve_left (absurd rfl)
      rw [exec_sTxwait_of_pending hp]
      exact exec_sTxwait_of_pending (s := s.withStatus n) hp
    · exact exec_ignoresStatus hi n s
  · calc exec .sTxwait (s.withStatus n)
      _ = .next (endRun s.fps.txAction.endKind (s.withStatus n)) := exec_sTxwait_of_transmitted h
      _ = .next (endRun s.fps.txAction.endKind s) := by rw [endRun_withStatus]
      _ = exec .sTxwait s := (exec_sTxwait_of_transmitted h).symm

end Sys2Proof.Machine
end

section
/-! SUPPORT. The memory of 20_memory.md: what a completed flash operation leaves in the array, what a step does to the lock bits
and to the link's two streams, and the family's obligations from these. -/

namespace Sys2Proof.Machine

/-! ## The completion of each operation -/

theorem containsRange_eq_false_iff {l : List Nat} {a n : Nat} : containsRange l a n = false ↔ ∃ i < n, a + i ∉ l := by
  simp [containsRange]

/-- The state after a step that completes an operation whose effect is `fl'`: the controller idle, the move's status word. -/
def State.completed (n : Nat) (fl' : FlashCtl) (s : State) : State :=
  { s.begin with fl := { fl' with inFlight := none, status := n } }

theorem step_unlock_completes {s : State} {r : Word} {ok : Bool} {n : Nat} (hv : s.cfg.valid = true)
    (hn : s.nextMove = .flashDone ok n) (hi : s.fl.inFlight = some (.unlock r)) :
    step s = .next (s.completed n (applyUnlock (s.clock + 1) ok r s.fl)) := by
  simp only [step_flashDone hv hn, flashComplete, State_begin_fl, hi]
  rfl

theorem step_erase_completes {s : State} {w : Word} {ok : Bool} {n : Nat} (hv : s.cfg.valid = true)
    (hn : s.nextMove = .flashDone ok n) (hi : s.fl.inFlight = some (.erase w)) :
    step s = .next (s.completed n (applyErase s.cfg (s.clock + 1) ok w s.fl)) := by
  simp only [step_flashDone hv hn, flashComplete, State_begin_fl, hi]
  rfl

theorem step_pageWrite_completes {s : State} {w : Word} {d : List Byte} {ok : Bool} {n : Nat} (hv : s.cfg.valid = true)
    (hn : s.nextMove = .flashDone ok n) (hi : s.fl.inFlight = some (.pageWrite w d)) :
    step s = .next (s.completed n (applyPageWrite s.cfg (s.clock + 1) ok w d s.fl)) := by
  simp only [step_flashDone hv hn, flashComplete, State_begin_fl, hi]
  rfl

/-- The operation does not do what it was issued for: it fails, meets a locked region, or writes a page not freshly erased. -/
def State.goesWrong (op : FlashOp) (ok : Bool) (s : State) : Prop :=
  ok = false ∨ targetLocked s.cfg s.fl.locked (op.target s.cfg).1 (op.target s.cfg).2 = true ∨
    ((∃ w d, op = .pageWrite w d) ∧ containsRange s.fl.erased (op.target s.cfg).1 (op.target s.cfg).2 = false)

theorem step_scrambles_of_goesWrong {s : State} {op : FlashOp} {ok : Bool} {n : Nat} (hv : s.cfg.valid = true)
    (hn : s.nextMove = .flashDone ok n) (hi : s.fl.inFlight = some op) (hop : ∀ r, op ≠ .unlock r)
    (h : s.goesWrong op ok) :
    step s = .next (s.completed n
      (scramble s.cfg (s.clock + 1) (op.target s.cfg).1 (op.target s.cfg).2 s.fl)) := by
  cases op with
  | unlock r => exact absurd rfl (hop r)
  | erase w =>
    have he : ok = false ∨ targetLocked s.cfg s.fl.locked w.toNat s.cfg.ebSize = true :=
      h.imp_right (·.resolve_right (by simp))
    rw [step_erase_completes hv hn hi, applyErase_scrambles he]
    rfl
  | pageWrite w d =>
    have he : ok = false ∨ targetLocked s.cfg s.fl.locked w.toNat d.length = true ∨
        containsRange s.fl.erased w.toNat d.length = false := h.imp_right (·.imp_right (·.2))
    rw [step_pageWrite_completes hv hn hi, applyPageWrite_scrambles he]
    rfl

/-! ## What the array reads as after a completion -/

theorem flashByte_completed_inside {s : State} {n lo i : Nat} {bs : List Byte} {fl' : FlashCtl} (hm : s.MemInv)
    (hc : fl'.cells = s.fl.cells.store s.cfg lo bs) (h : i < bs.length) (ha : s.cfg.inArray (lo + i) = true) :
    (s.completed n fl').flashByte (lo + i) = bs[i] := by
  calc (s.completed n fl').flashByte (lo + i)
    _ = if s.cfg.inArray (lo + i) then fl'.cells.read (lo + i) else Config.unmappedByte (lo + i) :=
      flashByte_settled (inFlightAt_none rfl _)
    _ = bs[i] := by rw [if_pos ha, hc, Memory.read_store_inside s.cfg hm.cells h ha]

/-- The view of a settled byte when a step begins: the step count does not show. -/
theorem flashByte_begin {s : State} {a : Nat} (h : s.inFlightAt a = false) : s.begin.flashByte a = s.flashByte a :=
  flashByte_congr_settled rfl rfl h h

/-- A completion leaves what the bytes outside its target read as. -/
theorem flashByte_step_flashDone_outside {s t : State} {op : FlashOp} {ok : Bool} {n a : Nat} (hv : s.cfg.valid = true)
    (hm : s.MemInv) (hn : s.nextMove = .flashDone ok n) (hi : s.fl.inFlight = some op) (ht : step s = .next t)
    (ha : ¬((op.target s.cfg).1 ≤ a ∧ a < (op.target s.cfg).1 + (op.target s.cfg).2)) :
    t.flashByte a = s.flashByte a := by
  rw [step_flashDone hv hn] at ht
  cases ht
  calc (flashComplete ok n s.begin).flashByte a
    _ = s.begin.flashByte a := flashByte_flashComplete_outside (s := s.begin) hm.cells hi ha
    _ = s.flashByte a := flashByte_begin (by rw [inFlightAt_some hi]; exact decide_eq_false ha)

/-- Settles O41: the completion stores the erased byte over the block and marks it. -/
theorem eraseCompletes : Obligations.EraseCompletes := fun s w n hv hm hn hi hl => by
  have hstep := step_erase_completes hv hn hi
  rw [applyErase_success (targetLocked_eq_false_iff.mpr hl)] at hstep
  refine ⟨_, hstep, rfl, rfl, rfl, rfl, rfl, fun i hlt ha => ?_, fun a ha => ?_, fun a => mem_insertRange⟩
  · rw [flashByte_completed_inside hm rfl (by simpa using hlt) ha, List.getElem_replicate]
    rfl
  · exact flashByte_step_flashDone_outside hv hm hn hi hstep ha

/-- Settles O42: the completion stores the data over the page and takes its marks away. -/
theorem pageWriteCompletes : Obligations.PageWriteCompletes := fun s w d n hv hm hn hi hl he => by
  have hstep := step_pageWrite_completes hv hn hi
  rw [applyPageWrite_success (targetLocked_eq_false_iff.mpr hl) (containsRange_iff.mpr he)] at hstep
  refine ⟨_, hstep, rfl, rfl, rfl, rfl, rfl, fun i hlt ha => ?_, fun a ha => ?_, fun a => mem_removeRange⟩
  · rw [flashByte_completed_inside hm rfl hlt ha, List.getElem?_eq_getElem hlt]
  · exact flashByte_step_flashDone_outside hv hm hn hi hstep ha

/-- Settles O43: whichever the reason, the completion stores its draws over the target and takes its marks away. -/
theorem failedOperationLeavesFreeBytes : Obligations.FailedOperationLeavesFreeBytes := by
  intro s op ok n hv hm hn hi hop lo len h
  have hw : s.goesWrong op ok :=
    h.imp_right (Or.imp targetLocked_iff.mpr (And.imp_right containsRange_eq_false_iff.mpr))
  have hstep := step_scrambles_of_goesWrong hv hn hi hop hw
  refine ⟨_, hstep, rfl, rfl, rfl, rfl, rfl, fun i hlt ha => ?_, fun a ha => ?_, fun a => mem_removeRange⟩
  · rw [flashByte_completed_inside hm rfl (by simpa using hlt) ha, List.getElem_map, List.getElem_range]
  · exact flashByte_step_flashDone_outside hv hm hn hi hstep ha

/-! ## Lock bits -/

/-- The bit an unlock leaves: clear after a success, else free if it was set (log 9). -/
theorem applyUnlock_eq (clock : Nat) (ok : Bool) (r : Word) (fl : FlashCtl) :
    applyUnlock clock ok r fl =
      { fl with locked :=
          fl.locked.set r.toNat (!ok && fl.locked.getD r.toNat false && Config.freeLockBit clock r.toNat) } := by
  cases ok <;> rfl

/-- A region unlock targets no byte (log 7). -/
theorem inFlightAt_of_unlock {s : State} {r : Word} (hi : s.fl.inFlight = some (.unlock r)) (a : Nat) :
    s.inFlightAt a = false := by
  rw [inFlightAt_some hi]
  simp [FlashOp.target]

/-- Settles O44: the completion writes one lock bit and no cell, and no byte was in flight before it. -/
theorem regionUnlockCompletes : Obligations.RegionUnlockCompletes := by
  intro s r ok n hv hn hi bit
  have hstep := step_unlock_completes hv hn hi
  rw [applyUnlock_eq] at hstep
  refine ⟨_, hstep, rfl, getD_set_self fun h => ?_, fun k hk => getD_set_ne hk, fun a => ?_⟩
  · simp only [h, Bool.and_false, Bool.false_and]
  · exact flashByte_congr_settled rfl rfl (inFlightAt_of_unlock hi a) (inFlightAt_none rfl a)

theorem ControllerStep.locked {s t : State} (h : ControllerStep s t) : t.fl.locked = s.fl.locked := by
  cases h with
  | poll _ u hu => exact congrArg FlashCtl.locked (onlyReceiver_frPoll hu).fl
  | busy _ _ _ ht => exact congrArg FlashCtl.locked (onlyReceiver_frPoll ht).fl
  | dispatch _ _ u hu => exact congrArg FlashCtl.locked hu.fl
  | noFrame | noBlock | start | unlockLast | unlockMore | erase | pageLast | pageMore | final | wait | finish => rfl

/-- The move is no launch that takes effect (log 3). -/
def Move.noLaunch (m : Move) (s : State) : Prop :=
  ∀ l tmo, m = .launch l tmo → s.ended = none ∨ s.fl.inFlight.isSome = true

theorem Move.not_noLaunch {s : State} {l : List Bool} {tmo : Bool} (he : s.ended.isSome = true)
    (hi : s.fl.inFlight = none) : ¬(Move.launch l tmo).noLaunch s := fun h => by
  simpa [hi, Option.isSome_iff_ne_none.mp he] using h l tmo rfl

theorem noLaunch_moved {m : Move} {s : State} (h : m.noLaunch s) : m.noLaunch s.moved := by
  have hm := sameMachine_moved s
  unfold Move.noLaunch
  rwa [hm.ended, hm.fl]

theorem AgentStep.lockedMono {m : Move} {s t : State} (h : AgentStep s m t) (hm : m.noLaunch s) {r : Nat}
    (hr : s.fl.locked.getD r false = false) : t.fl.locked.getD r false = false := by
  cases h with
  | flashDone ok n op hi fl' ha => exact ha.lockedMono r hr
  | launch l tmo he hi => exact absurd hm (Move.not_noLaunch he hi)
  | controller | hostByte | timerExpire | flashIdle | linkSent | linkIdle | launchDisabled => exact hr

/-- Settles O45: the controller writes no lock bit, and of the agents only a completed unlock does, which never sets one. -/
theorem unlockedRegionStaysUnlocked : Obligations.UnlockedRegionStaysUnlocked := fun s t r h hl hr => by
  have hr' : s.moved.fl.locked.getD r false = false := by rwa [(sameMachine_moved s).fl]
  cases (step_next h).2 with
  | controller _ _ _ _ ht => rwa [ht.locked]
  | runOver => exact hr'
  | agent => exact (agentMove_step s.nextMove s.moved).lockedMono (noLaunch_moved hl) hr'

/-! ## The transmit stream -/

/-- The transmit stream is as before, or gained one response code at its end. -/
def TxGrows (s t : State) : Prop := t.txQ = s.txQ ∨ ∃ r ∈ [0x50, 0x51, 0x52, 0x53, 0x54], t.txQ = s.txQ ++ [r]

theorem linkWrite_txQ (b : Byte) (s : State) : (linkWrite b s).txQ = s.txQ ++ [b] := (List.append_assoc ..).symm

theorem ReceiverStep.txGrows {op : FrOp} {s t : State} (h : ReceiverStep s op t) : TxGrows s t := by
  cases h with
  | headerRejected => exact .inr ⟨rspError, by decide, linkWrite_txQ rspError s⟩
  | idle | timeout | drop | headerByte | emptyFrame | bodyBegins | bodyByte | bodyEnds => exact .inl rfl

theorem DispatchStep.txGrows {s t : State} (h : DispatchStep s t) : TxGrows s t := by
  cases h with
  | answer r hr =>
    have hcode : ∀ c ∈ [rspError, rspInvalid, rspCrcOk, rspCrcFail], c ∈ [0x50, 0x51, 0x52, 0x53, 0x54] := by decide
    exact .inr ⟨r, hcode r hr, linkWrite_txQ r s⟩
  | cleared => exact .inr ⟨rspError, by decide, linkWrite_txQ rspError s⟩
  | window | staged | action => exact .inr ⟨rspOk, by decide, linkWrite_txQ rspOk s⟩

theorem ControllerStep.txGrows {s t : State} (h : ControllerStep s t) : TxGrows s t := by
  cases h with
  | poll _ u hu => exact (frPoll_next hu).txGrows
  | busy _ _ _ ht => exact (frPoll_next ht).txGrows
  | dispatch _ _ u hu => exact hu.txGrows
  | finish _ hp => exact .inl (by simp only [State.txQ, endRun_link_txDone, endRun_link_txPend, hp])
  | noFrame | noBlock | start | unlockLast | unlockMore | erase | pageLast | pageMore | final | wait => exact .inl rfl

/-- Sending moves a byte from the pending part of the stream to the transmitted one (log 19). -/
theorem AgentStep.txQ {m : Move} {s t : State} (h : AgentStep s m t) (hm : m.noLaunch s) : t.txQ = s.txQ := by
  cases h with
  | linkSent hp => simp [State.txQ, hp]
  | launch l tmo he hi => exact absurd hm (Move.not_noLaunch he hi)
  | controller | hostByte | timerExpire | flashDone | flashIdle | linkIdle | launchDisabled => rfl

theorem step_txGrows {s t : State} (h : step s = .next t) (hl : s.nextMove.noLaunch s) : TxGrows s.moved t := by
  cases (step_next h).2 with
  | controller _ _ _ _ ht => exact ht.txGrows
  | runOver => exact .inl rfl
  | agent => exact .inl ((agentMove_step s.nextMove s.moved).txQ (noLaunch_moved hl))

/-! ## The receive stream -/

theorem ReceiverStep.rxQ {op : FrOp} {s t : State} (h : ReceiverStep s op t) :
    t.link.rxQ = s.link.rxQ ∨ ∃ b, s.link.rxQ = b :: t.link.rxQ := by
  cases h with
  | idle | timeout => exact .inl rfl
  | drop hq | headerByte hq | headerRejected hq | emptyFrame hq | bodyBegins hq | bodyByte hq | bodyEnds hq =>
    exact .inr ⟨_, hq⟩

theorem DispatchStep.rxQ {s t : State} (h : DispatchStep s t) : t.link.rxQ = s.link.rxQ := by cases h <;> rfl

/-- What a move does to the receive stream; a launch keeps it. -/
inductive RxStep (s : State) (m : Move) (t : State) : Prop where
  | kept (h : t.link.rxQ = s.link.rxQ)
  | taken (b : Byte) (h : s.link.rxQ = b :: t.link.rxQ)
  | received (b : Byte) (hm : m = .hostByte b) (h : t.link.rxQ = s.link.rxQ ++ [b])
  | lost (he : t.ended.isSome = true) (h : t.link.rxQ = [])

theorem ReceiverStep.rxStep {op : FrOp} {s u t : State} (h : ReceiverStep s op u) (ht : t.link.rxQ = u.link.rxQ)
    (m : Move) : RxStep s m t := by
  rcases h.rxQ with hk | ⟨b, hb⟩
  · exact .kept (ht.trans hk)
  · exact .taken b (ht ▸ hb)

theorem ControllerStep.rxStep {s t : State} (h : ControllerStep s t) (m : Move) : RxStep s m t := by
  cases h with
  | poll _ u hu => exact (frPoll_next hu).rxStep (t := goto .dispatch u) rfl m
  | busy _ _ _ ht => exact (frPoll_next ht).rxStep rfl m
  | dispatch _ _ u hu => exact .kept hu.rxQ
  | finish => exact .lost rfl rfl
  | noFrame | noBlock | start | unlockLast | unlockMore | erase | pageLast | pageMore | final | wait => exact .kept rfl

theorem AgentStep.rxStep {m : Move} {s t : State} (h : AgentStep s m t) : RxStep s m t := by
  cases h with
  | hostByte b => exact .received b rfl rfl
  | controller | timerExpire | flashDone | flashIdle | linkSent | linkIdle | launch | launchDisabled => exact .kept rfl

theorem step_rxStep {s t : State} (h : step s = .next t) : RxStep s.moved s.nextMove t := by
  cases (step_next h).2 with
  | controller _ _ _ _ ht => exact ht.rxStep s.nextMove
  | runOver => exact .kept rfl
  | agent => exact (agentMove_step s.nextMove s.moved).rxStep

/-- Settles O48: a response is the only write to the transmit stream; a receiver operation takes the oldest byte or none, and
the end of a run loses them all. -/
theorem linkStreamsKeepOrder : Obligations.LinkStreamsKeepOrder := fun s t h hl => by
  have hlink : s.moved.link = s.link := (sameMachine_moved s).link
  have htx := step_txGrows h hl
  have hrx := step_rxStep h
  refine ⟨by simpa only [TxGrows, State.txQ, hlink] using htx, ?_⟩
  rw [← hlink]
  cases hrx with
  | kept hq => exact .inl hq
  | taken b hq => exact .inr (.inl ⟨b, hq⟩)
  | received b hm hq => exact .inr (.inr (.inl ⟨b, hm, hq⟩))
  | lost he hq => exact .inr (.inr (.inr ⟨he, hq⟩))

end Sys2Proof.Machine
end

section
/-! SUPPORT. The encoding of 30_encoding.md: what the decoder reads from a frame, a header and a poll word that the encoder wrote,
which operations a state's poll can take, and the family's obligations from these. -/

namespace Sys2Proof

/-! ## The contract of a command byte -/

@[simp] theorem decodeCmd_cmdUnlock (cfg : Config) (z : Word) (pay : Nat → Byte) :
    decodeCmd cfg cmdUnlock z pay = .unlock (asm32At cfg.fieldOrder pay 0) (asm32At cfg.fieldOrder pay 4) := rfl

@[simp] theorem decodeCmd_cmdData (cfg : Config) (z : Word) (pay : Nat → Byte) :
    decodeCmd cfg cmdData z pay =
      .data z (asm32At cfg.fieldOrder pay 0) ((List.range cfg.ebSize).map fun i => pay (4 + i)) := rfl

@[simp] theorem decodeCmd_cmdVerify (cfg : Config) (z : Word) (pay : Nat → Byte) :
    decodeCmd cfg cmdVerify z pay = .verify (asm32At cfg.fieldOrder pay 0) := rfl

@[simp] theorem decodeCmd_cmdReset (cfg : Config) (z : Word) (pay : Nat → Byte) :
    decodeCmd cfg cmdReset z pay = .reset := rfl

@[simp] theorem decodeCmd_cmdBkswapReset (cfg : Config) (z : Word) (pay : Nat → Byte) :
    decodeCmd cfg cmdBkswapReset z pay = .bkswapReset := rfl

theorem assignedCmd_eq_false_iff (c : Byte) :
    assignedCmd c = false ↔
      c ≠ cmdUnlock ∧ c ≠ cmdData ∧ c ≠ cmdVerify ∧ c ≠ cmdReset ∧ c ≠ cmdBkswapReset := by
  simp only [assignedCmd, cmdUnlock, cmdData, cmdVerify, cmdReset, cmdBkswapReset, decide_eq_false_iff_not]
  bv_omega

theorem decodeCmd_unassigned {cfg : Config} {c : Byte} {z : Word} {pay : Nat → Byte} (h : assignedCmd c = false) :
    decodeCmd cfg c z pay = .unknownCmd c := by
  obtain ⟨h0, h1, h2, h3, h4⟩ := (assignedCmd_eq_false_iff c).mp h
  simp only [decodeCmd, h0, h1, h2, h3, h4, if_false]

/-- Settles O4: an equation of `decodeCmd` for each assigned code, and one for all the others. -/
theorem commandByteSelectsContract : Obligations.CommandByteSelectsContract := by
  intro cfg c z pay
  refine ⟨?_, ?_, ?_, ?_, ?_, fun h0 h1 h2 h3 h4 => ?_⟩
  · rintro rfl; exact ⟨_, _, decodeCmd_cmdUnlock cfg z pay⟩
  · rintro rfl; exact ⟨_, _, decodeCmd_cmdData cfg z pay⟩
  · rintro rfl; exact ⟨_, decodeCmd_cmdVerify cfg z pay⟩
  · rintro rfl; exact decodeCmd_cmdReset cfg z pay
  · rintro rfl; exact decodeCmd_cmdBkswapReset cfg z pay
  · exact decodeCmd_unassigned ((assignedCmd_eq_false_iff c).mpr ⟨h0, h1, h2, h3, h4⟩)

/-! ## Headers and frames -/

/-- A header with the configured guard reads back as it was written (R64). -/
theorem decodeHeader_headerBytes (cfg : Config) (z : Word) (c : Byte) :
    decodeHeader cfg (headerBytes cfg.fieldOrder cfg.guard z c) = .ok (.frameHeader cfg.guard z c) := by
  obtain ⟨hguard, hsize, hcmd⟩ := header_fields cfg.fieldOrder cfg.guard z c []
  rw [List.append_nil] at hguard hsize hcmd
  simp [decodeHeader, headerBytes_length, Config.headerLen, hguard, hsize, hcmd]

/-- A frame whose payload length fits the size field selects its command's contract, over its own payload (R63, R73). -/
theorem decodeFrame_frameBytes (cfg : Config) (draw : Nat → Byte) (c : Byte) {p : List Byte} (hp : p.length < 2 ^ 32) :
    decodeFrame cfg draw (frameBytes cfg c p) =
      .ok (decodeCmd cfg c (BitVec.ofNat 32 p.length) (payloadByte cfg (BitVec.ofNat 32 p.length) p draw)) := by
  obtain ⟨hguard, hsize, hcmd⟩ := header_fields cfg.fieldOrder cfg.guard (BitVec.ofNat 32 p.length) c p
  have hlen : (frameBytes cfg c p).length = Config.headerLen + p.length := by
    simp [frameBytes, headerBytes_length, Config.headerLen]
  have hdrop : (frameBytes cfg c p).drop Config.headerLen = p :=
    List.drop_left' (headerBytes_length ..)
  have hn : (BitVec.ofNat 32 p.length).toNat = p.length :=
    (BitVec.toNat_ofNat ..).trans (Nat.mod_eq_of_lt hp)
  rw [← frameBytes] at hguard hsize hcmd
  simp [decodeFrame, hlen, hdrop, hguard, hsize, hcmd, hn]

/-! ## The operands of a stored payload -/

/-- A payload that fits the buffer is read byte for byte, and no draw is (10_state.md R24, 41_frame_commands.md R101). -/
theorem payloadByte_whole {cfg : Config} {p : List Byte} {draw : Nat → Byte} (hp : p.length < 2 ^ 32)
    (hm : p.length ≤ cfg.maxPayload) {i : Nat} (hi : i < p.length) :
    payloadByte cfg (BitVec.ofNat 32 p.length) p draw i = bytesAt p i := by
  have hn : (BitVec.ofNat 32 p.length).toNat = p.length :=
    (BitVec.toNat_ofNat ..).trans (Nat.mod_eq_of_lt hp)
  rw [payloadByte_stored (hn.symm ▸ hi) (hi.trans_le hm) hi]
  simp [bytesAt, hi]

/-- A field of a payload that fits the buffer is the field of its bytes. -/
theorem asm32At_payloadByte {cfg : Config} {p : List Byte} {draw : Nat → Byte} (order : FieldOrder)
    (hp : p.length < 2 ^ 32) (hm : p.length ≤ cfg.maxPayload) {i : Nat} (hi : i + 4 ≤ p.length) :
    asm32At order (payloadByte cfg (BitVec.ofNat 32 p.length) p draw) i = asm32At order (bytesAt p) i :=
  asm32At_congr order fun k hk => payloadByte_whole hp hm (by omega)

theorem bytesAt_ser32_append (order : FieldOrder) (v : Word) (q : List Byte) (i : Nat) :
    bytesAt (ser32 order v ++ q) (4 + i) = bytesAt q i := by
  simp [bytesAt, List.getElem?_append_right, ser32_length]

/-- A field with nothing after it. -/
theorem asm32_ser32_alone (order : FieldOrder) (v : Word) : asm32At order (bytesAt (ser32 order v)) 0 = v := by
  simpa only [List.append_nil] using asm32_ser32 order v []

/-- The second of two serialised fields. -/
theorem asm32_ser32_second (order : FieldOrder) (u v : Word) :
    asm32At order (bytesAt (ser32 order u ++ ser32 order v)) 4 = v := by
  refine (asm32At_congr order fun k _ => ?_).trans (asm32_ser32_alone order v)
  rw [bytesAt_ser32_append, Nat.zero_add]

theorem map_bytesAt_range (l : List Byte) : (List.range l.length).map (bytesAt l) = l :=
  List.ext_getElem (by simp) fun i _ hi => by simp [bytesAt, hi]

/-! ## Each command's frame reads back -/

theorem decode_encode_unlock (cfg : Config) (draw : Nat → Byte) (addr size : Word) (hm : 8 ≤ cfg.maxPayload) :
    decode cfg draw (encode cfg (.unlock addr size)) = .ok (.unlock addr size) := by
  have hlen : (ser32 cfg.fieldOrder addr ++ ser32 cfg.fieldOrder size).length = 8 := by simp [ser32_length]
  simp only [encode, decode]
  rw [decodeFrame_frameBytes _ _ _ (by omega), decodeCmd_cmdUnlock,
    asm32At_payloadByte _ (by omega) (by omega) (by omega), asm32_ser32,
    asm32At_payloadByte _ (by omega) (by omega) (by omega), asm32_ser32_second]

theorem decode_encode_data (cfg : Config) (draw : Nat → Byte) (fSize addr : Word) (block : List Byte)
    (hb : block.length = cfg.ebSize) (hz : fSize.toNat = 4 + cfg.ebSize) :
    decode cfg draw (encode cfg (.data fSize addr block)) = .ok (.data fSize addr block) := by
  have hlen : (ser32 cfg.fieldOrder addr ++ block).length = fSize.toNat := by simp [ser32_length, hb, hz]
  have hp : (ser32 cfg.fieldOrder addr ++ block).length < 2 ^ 32 := hlen ▸ fSize.isLt
  have hm : (ser32 cfg.fieldOrder addr ++ block).length ≤ cfg.maxPayload := (hlen.trans hz).le
  have hblock : ∀ i ∈ List.range cfg.ebSize,
      payloadByte cfg (BitVec.ofNat 32 (ser32 cfg.fieldOrder addr ++ block).length) (ser32 cfg.fieldOrder addr ++ block)
        draw (4 + i) = bytesAt block i := fun i hi => by
    rw [payloadByte_whole hp hm (by rw [List.mem_range] at hi; omega), bytesAt_ser32_append]
  simp only [encode, decode]
  rw [decodeFrame_frameBytes _ _ _ hp, decodeCmd_cmdData, asm32At_payloadByte _ hp hm (by omega), asm32_ser32,
    List.map_congr_left hblock, ← hb, map_bytesAt_range, hlen, BitVec.ofNat_toNat, BitVec.setWidth_eq]

theorem decode_encode_verify (cfg : Config) (draw : Nat → Byte) (crc : Word) :
    decode cfg draw (encode cfg (.verify crc)) = .ok (.verify crc) := by
  have hlen : (ser32 cfg.fieldOrder crc).length = 4 := ser32_length ..
  have hm : (ser32 cfg.fieldOrder crc).length ≤ cfg.maxPayload := hlen.trans_le (Nat.le_add_right ..)
  simp only [encode, decode]
  rw [decodeFrame_frameBytes _ _ _ (by omega), decodeCmd_cmdVerify, asm32At_payloadByte _ (by omega) hm (by omega),
    asm32_ser32_alone]

/-- A frame with no payload selects its command's contract; no command of this kind has operands. -/
theorem decode_frame_empty (cfg : Config) (draw : Nat → Byte) (c : Byte) :
    decode cfg draw (.frame (frameBytes cfg c [])) = .ok (decodeCmd cfg c 0 (payloadByte cfg 0 [] draw)) :=
  decodeFrame_frameBytes cfg draw c (Nat.two_pow_pos 32)

/-! ## Poll words -/

/-- The canonical word of an operation selects it. -/
theorem decodePoll_encodePoll (op : FrOp) : decodePoll (encodePoll op) = op := by cases op <;> decide

theorem decode_encodePoll (cfg : Config) (draw : Nat → Byte) (op : FrOp) :
    decode cfg draw (.poll (encodePoll op)) = .ok op.instr :=
  congrArg (fun o => Except.ok (FrOp.instr o)) (decodePoll_encodePoll op)

/-- Settles O1: a frame's fields and payload are read where they were written, a poll word selects its row's operation, and
response bytes and state codes are distinct. -/
theorem decodeOfEncode : Obligations.DecodeOfEncode := by
  intro cfg draw i hwf
  cases i with
  | frameHeader guard size cmd =>
    obtain rfl : guard = cfg.guard := of_decide_eq_true hwf
    exact decodeHeader_headerBytes cfg size cmd
  | unlock addr size => exact decode_encode_unlock cfg draw addr size (of_decide_eq_true hwf)
  | data fSize addr block =>
    obtain ⟨hb, hz⟩ : block.length = cfg.ebSize ∧ fSize.toNat = 4 + cfg.ebSize := of_decide_eq_true hwf
    exact decode_encode_data cfg draw fSize addr block hb hz
  | verify crc => exact decode_encode_verify cfg draw crc
  | reset => exact decode_frame_empty cfg draw cmdReset
  | bkswapReset => exact decode_frame_empty cfg draw cmdBkswapReset
  | unknownCmd cmd =>
    have hcmd : assignedCmd cmd = false := by simpa [Instr.wf] using hwf
    exact (decode_frame_empty cfg draw cmd).trans (congrArg _ (decodeCmd_unassigned hcmd))
  | rspOk | rspError | rspInvalid | rspCrcOk | rspCrcFail => rfl
  | frIdle => exact decode_encodePoll cfg draw .idle
  | frTmo => exact decode_encodePoll cfg draw .tmo
  | frDrop => exact decode_encodePoll cfg draw .drop
  | frHdrByteAcc => exact decode_encodePoll cfg draw .hdrAcc
  | frHdrByteMismatch => exact decode_encodePoll cfg draw .hdrMismatch
  | frHdrByteMatch => exact decode_encodePoll cfg draw .hdrMatch
  | frBodyByte => exact decode_encodePoll cfg draw .body
  | sPoll | sDispatch | sCheck | sUnlock | sErase | sPage | sFinal | sTxwait => rfl

/-- What a well-formed instruction encodes to decodes to it. -/
theorem decode_of_encode_eq {cfg : Config} {i : Instr} {code : Code} (draw : Nat → Byte) (hwf : i.wf cfg = true)
    (h : encode cfg i = code) : encode cfg i = code ∧ decode cfg draw code = .ok i :=
  ⟨h, h ▸ decodeOfEncode cfg draw i hwf⟩

/-- A DATA frame of the test configuration, with any block (R74). -/
theorem encode_test_data {block : List Byte} (h : block.length = 16) :
    encode Config.test (.data 20 0x20 block) =
      .frame ([0x44, 0x33, 0x22, 0x11, 0x14, 0, 0, 0, 0xA1, 0x20, 0, 0, 0] ++ block) := by
  have hlen : (ser32 Config.test.fieldOrder 0x20 ++ block).length = 20 := by simp [ser32_length, h]
  simp only [encode, frameBytes, hlen]
  rfl

/-- Settles O2: the encodings are computed, and each decodes by the round trip of O1. -/
theorem exampleFramesEncodeAndDecode : Obligations.ExampleFramesEncodeAndDecode := by
  intro draw block hblock
  have hdata : (Instr.data 20 0x20 block).wf Config.test = true := by simp [Instr.wf, Config.test, hblock]
  exact ⟨decode_of_encode_eq draw rfl rfl, decode_of_encode_eq draw rfl rfl,
    decode_of_encode_eq draw (by decide) rfl, decode_of_encode_eq draw hdata (encode_test_data hblock)⟩

/-! ## Which operations a poll word admits -/

/-- What a row's `match` and `mask` ask of the four bits of the vector (R71): receive ready, timeout, frame complete, in body. -/
def FrOp.rowHolds : FrOp → (rxReady tmoFlag frameComplete inBody : Bool) → Bool
  | .idle, r, t, _, _ => !r && !t
  | .tmo, _, t, _, _ => t
  | .drop, r, _, c, _ => r && c
  | .hdrAcc, r, _, c, b => r && !c && !b
  | .hdrMismatch, r, _, c, b => r && !c && !b
  | .hdrMatch, r, _, c, b => r && !c && !b
  | .body, r, _, c, b => r && !c && b

theorem pcvOf_matches_row (op : FrOp) :
    ∀ r t c b : Bool, decide (pcvOf r t c b &&& op.row.2 = op.row.1) = op.rowHolds r t c b := by
  cases op <;> decide

/-- A poll takes an operation that its word admits: every vector matches a row. -/
theorem admits_decodePoll (w : PollWord) : w.admits (decodePoll w) = true := by
  have hall : ∀ (v : BitVec 4) (n g f : Bool), PollWord.admits ⟨v, n, g, f⟩ (decodePoll ⟨v, n, g, f⟩) = true := by
    decide
  exact hall w.pcv w.ninth w.guardOk w.tmoFirst

/-- Only the timeout row meets others in one word: with the timeout first it is taken, else the other admitted operation. -/
theorem decodePoll_of_admits {w : PollWord} {op : FrOp} (h : w.admits op = true) :
    decodePoll { w with tmoFirst := decide (op = .tmo) } = op := by
  have hall : ∀ (v : BitVec 4) (n g f : Bool), PollWord.admits ⟨v, n, g, f⟩ op = true →
      decodePoll ⟨v, n, g, decide (op = .tmo)⟩ = op := by
    cases op <;> decide
  exact hall w.pcv w.ninth w.guardOk w.tmoFirst h

/-- The race choice is no part of what a word admits. -/
theorem admits_tmoFirst (w : PollWord) (f : Bool) (op : FrOp) :
    PollWord.admits { w with tmoFirst := f } op = w.admits op := by cases op <;> rfl

/-- Over the race choice, a poll takes exactly the operations its word admits. -/
theorem decodePoll_takes_iff_admits (w : PollWord) (op : FrOp) :
    (∃ f, decodePoll { w with tmoFirst := f } = op) ↔ w.admits op = true := by
  constructor
  · rintro ⟨f, rfl⟩
    rw [← admits_tmoFirst w f]
    exact admits_decodePoll _
  · exact fun h => ⟨_, decodePoll_of_admits h⟩

end Sys2Proof

namespace Sys2Proof.Machine

/-! ## Which operations a state's poll can take -/

theorem rxReady_iff_ne_nil (s : State) : s.rxReady = true ↔ s.link.rxQ ≠ [] := by simp [State.rxReady]

theorem rxReady_eq_false_iff (s : State) : s.rxReady = false ↔ s.link.rxQ = [] := by simp [State.rxReady]

/-- With the cursor within the header, the word of a state admits an operation exactly where the operation's own condition
holds (40_frame_receiver.md R76). -/
theorem admits_pollWord {s : State} (h : s.rx.rxState = .awaitingHeader → s.rx.cursor.toNat ≤ 8) (op : FrOp) :
    s.pollWord.admits op = s.frEnabled op := by
  have hrow : s.pollWord.admits op =
      (op.rowHolds s.rxReady s.tmoFlag s.rx.frameComplete s.rx.rxState.bit && op.side s.pollWord) :=
    congrArg (· && _) (pcvOf_matches_row op ..)
  rw [hrow]
  cases op with
  | idle | tmo | drop => simp [FrOp.rowHolds, FrOp.side, State.frEnabled]
  | body => cases hst : s.rx.rxState <;> simp [FrOp.rowHolds, FrOp.side, State.frEnabled, RxState.bit, hst]
  | hdrAcc | hdrMismatch | hdrMatch =>
    cases hst : s.rx.rxState with
    | awaitingBody => simp [FrOp.rowHolds, State.frEnabled, RxState.bit, hst]
    | awaitingHeader =>
      have hcursor := h hst
      have hninth : decide (8 ≤ s.rx.cursor.toNat) = decide (s.rx.cursor.toNat = 8) := by
        rw [decide_eq_decide]
        omega
      have hacc : (!decide (s.rx.cursor.toNat = 8)) = decide (s.rx.cursor.toNat ≤ 7) := by
        rw [← decide_not, decide_eq_decide]
        omega
      simp [FrOp.rowHolds, FrOp.side, State.frEnabled, RxState.bit, hst, State.pollWord, hninth, hacc, Bool.and_assoc]

/-- Over the race choice, the poll of a state of the receiver's invariant takes exactly the enabled operations. -/
theorem poll_takes_iff_frEnabled {s : State} (hs : s.FrInv) (op : FrOp) :
    (∃ f, decodePoll { s with pollTmoFirst := f }.pollWord = op) ↔ s.frEnabled op = true := by
  rw [← admits_pollWord hs.header op]
  exact decodePoll_takes_iff_admits s.pollWord op

/-- Settles O3: over the race choice a poll takes what its word admits, which for a state are the operations whose condition
holds. -/
theorem pollTakesAnyAdmittedRow : Obligations.PollTakesAnyAdmittedRow := by
  refine ⟨admits_decodePoll, fun w op h => ⟨_, decodePoll_of_admits h⟩, fun s hs => ?_⟩
  dsimp only
  simp only [poll_takes_iff_frEnabled hs, State.frEnabled, State.guardOk, Bool.and_eq_true, Bool.not_eq_true',
    rxReady_iff_ne_nil, rxReady_eq_false_iff, decide_eq_true_eq, decide_eq_false_iff_not, and_assoc, ne_eq, and_self]

/-! ## What a step selects -/

/-- Settles O5: a controller's step is its selected operation's, and the codes are computed. -/
theorem stepRunsSelectedInstruction : Obligations.StepRunsSelectedInstruction := by
  refine ⟨fun s f hv he hm => ?_, ?_⟩
  · have hmoved : s.moved = { s with sched := s.sched.tail, clock := s.clock + 1, pollTmoFirst := f } := by
      simp only [State.moved, hm, State.begin]
    rw [step_controller hv hm he, hmoved]
    rfl
  · decide

/-! ## Headers and responses take effect -/

/-- Settles O17: the three outcomes of a complete header exclude each other by guard and size. -/
theorem headerTakesEffect : Obligations.HeaderTakesEffect := by
  intro s g z c
  rcases headerEffect_cases g z c s with ⟨hg, he⟩ | ⟨hg, rfl, he⟩ | ⟨hg, hz, he⟩
  · exact ⟨fun _ => congrArg _ he, fun h => absurd h hg, fun h => absurd h hg⟩
  · exact ⟨fun h => absurd hg h, fun _ _ => congrArg _ he, fun _ h => absurd rfl h⟩
  · exact ⟨fun h => absurd hg h, fun _ h => absurd h hz, fun _ _ => congrArg _ he⟩

theorem txComplete_linkWrite (b : Byte) (s : State) : (linkWrite b s).txComplete = false := by
  simp [State.txComplete, linkWrite]

/-- Settles O30: each row is the write of its code. -/
theorem responseRowsWriteTheirByte : Obligations.ResponseRowsWriteTheirByte := fun s =>
  ⟨rfl, rfl, rfl, rfl, rfl, fun r => txComplete_linkWrite r s⟩

end Sys2Proof.Machine
end

section
/-! SUPPORT. The receiver of 40_frame_receiver.md: a receiver operation answers next exactly where its condition holds, a poll takes
that operation's step, a run of polls collects a header and a payload, and the family's obligations from these. -/

namespace Sys2Proof.Machine

/-! ## Where an operation answers -/

theorem withByte_refused {op : FrOp} {s : State} (f : Byte → State → State) (h : s.frEnabled op = false) :
    withByte op s f = .refused .notEnabled := by
  simp [withByte, h]

/-- With a byte ready, an operation that takes one answers next where its condition holds. -/
theorem withByte_answers {op : FrOp} {s : State} (f : Byte → State → State) (hr : s.rxReady = true)
    (h : s.frEnabled op = true) : ∃ t, withByte op s f = .next t := by
  obtain ⟨b, q, hq⟩ := (rxReady_iff s).mp hr
  exact ⟨_, withByte_eq f h hq⟩

/-- Every condition but those of FR_IDLE and FR_TMO asks for a byte. -/
theorem rxReady_of_frEnabled {op : FrOp} {s : State} (h : s.frEnabled op = true) (hi : op ≠ .idle) (ht : op ≠ .tmo) :
    s.rxReady = true := by
  cases op with
  | idle => exact absurd rfl hi
  | tmo => exact absurd rfl ht
  | drop => exact (Bool.and_eq_true_iff.mp h).1
  | hdrAcc | hdrMismatch | hdrMatch | body =>
    simp only [State.frEnabled, Bool.and_eq_true] at h
    tauto

theorem runFr_answers {op : FrOp} {s : State} (h : s.frEnabled op = true) : ∃ t, runFr op s = .next t := by
  have hr := rxReady_of_frEnabled h
  cases op with
  | idle => exact ⟨_, if_pos h⟩
  | tmo => exact ⟨_, if_pos h⟩
  | drop | hdrAcc | hdrMismatch | hdrMatch | body => exact withByte_answers _ (hr nofun nofun) h

theorem runFr_refused {op : FrOp} {s : State} (h : s.frEnabled op = false) : runFr op s = .refused .notEnabled := by
  cases op with
  | idle | tmo => exact if_neg (by simp [h])
  | drop | hdrAcc | hdrMismatch | hdrMatch | body => exact withByte_refused _ h

/-- Settles O18: an operation that needs a byte finds one where its condition holds. -/
theorem receiverOperationNeedsItsCondition : Obligations.ReceiverOperationNeedsItsCondition := fun op s =>
  exec_frOp op s ▸ ⟨runFr_answers, runFr_refused⟩

/-! ## The converse of `runFr_next`: a step that can be taken is the operation's answer -/

theorem ReceiverStep.frEnabled {op : FrOp} {s t : State} (h : ReceiverStep s op t) : s.frEnabled op = true := by
  cases h with
  | idle hq ht => simp [State.frEnabled, (rxReady_eq_false_iff s).mpr hq, ht]
  | timeout ht => exact ht
  | drop hq hf => simp [State.frEnabled, rxReady_cons hq, hf]
  | headerByte hq hf hs hc => simp [State.frEnabled, rxReady_cons hq, hf, hs, hc]
  | headerRejected hq hf hs hc hg =>
    have hg' : s.guardOk = false := Bool.eq_false_iff.mpr (mt (guardOk_iff s).mp hg)
    simp [State.frEnabled, rxReady_cons hq, hf, hs, hc, hg']
  | emptyFrame hq hf hs hc hg | bodyBegins hq hf hs hc hg =>
    simp [State.frEnabled, rxReady_cons hq, hf, hs, hc, (guardOk_iff s).mpr hg]
  | bodyByte hq hf hs | bodyEnds hq hf hs => simp [State.frEnabled, rxReady_cons hq, hf, hs]

theorem ninthByte_of_guard_ne {b : Byte} {s : State} (hg : s.hdrGuard ≠ s.cfg.guard) :
    ninthByte b s = linkWrite rspError { storeHeader 8 b (timerRestart s) with rx.cursor := 0 } :=
  (ninthByte_eq b s).trans (if_neg hg)

theorem ninthByte_of_size_zero {b : Byte} {s : State} (hg : s.hdrGuard = s.cfg.guard)
    (hz : (storeHeader 8 b s).hdrSize = 0) :
    ninthByte b s =
      { storeHeader 8 b (timerRestart s) with
        rx.cursor := 0
        rx.fSize := 0
        rx.fCmd := b
        rx.frameComplete := true } := by
  rw [ninthByte_eq, hz]
  exact if_pos hg

theorem ninthByte_of_size_ne_zero {b : Byte} {s : State} (hg : s.hdrGuard = s.cfg.guard)
    (hz : (storeHeader 8 b s).hdrSize ≠ 0) :
    ninthByte b s =
      { storeHeader 8 b (timerRestart s) with
        rx.cursor := 0
        rx.fSize := (storeHeader 8 b s).hdrSize
        rx.fCmd := b
        rx.rxState := .awaitingBody } := by
  simp only [ninthByte_eq, headerEffect, if_neg hz]
  exact if_pos hg

theorem ReceiverStep.runFr {op : FrOp} {s t : State} (h : ReceiverStep s op t) : runFr op s = .next t := by
  have he := h.frEnabled
  cases h with
  | idle | timeout => exact if_pos he
  | drop hq | headerByte hq => exact withByte_eq _ he hq
  | @headerRejected b q hq _ _ _ hg =>
    exact (withByte_eq ninthByte he hq).trans (congrArg _ (ninthByte_of_guard_ne (s := { s with link.rxQ := q }) hg))
  | @emptyFrame b q hq _ _ _ hg hz =>
    exact (withByte_eq ninthByte he hq).trans (congrArg _ (ninthByte_of_size_zero (s := { s with link.rxQ := q }) hg hz))
  | @bodyBegins b q hq _ _ _ hg hz =>
    exact (withByte_eq ninthByte he hq).trans
      (congrArg _ (ninthByte_of_size_ne_zero (s := { s with link.rxQ := q }) hg hz))
  | bodyByte hq _ _ hc => exact (withByte_eq _ he hq).trans (congrArg _ (if_neg hc))
  | bodyEnds hq _ _ hc => exact (withByte_eq _ he hq).trans (congrArg _ (if_pos hc))

theorem ReceiverStep.exec {op : FrOp} {s t : State} (h : ReceiverStep s op t) : exec op.instr s = .next t :=
  (exec_frOp op s).trans h.runFr

/-! ## Each operation's step -/

/-- Settles O10: FR_IDLE's step. -/
theorem idlePollChangesNothing : Obligations.IdlePollChangesNothing := fun _ hq ht => (ReceiverStep.idle hq ht).exec

/-- Settles O11: FR_TMO's step. -/
theorem timeoutResynchronises : Obligations.TimeoutResynchronises := fun _ ht => (ReceiverStep.timeout ht).exec

/-- Settles O12: FR_DROP's step. -/
theorem pendingFrameDropsByte : Obligations.PendingFrameDropsByte := fun _ _ _ hq hf => (ReceiverStep.drop hq hf).exec

/-- Settles O13: FR_HDR_BYTE's step before the ninth byte; the cursor is an index of the buffer. -/
theorem headerByteAccumulates : Obligations.HeaderByteAccumulates := by
  intro s b q hq hf hs hc
  refine ⟨(ReceiverStep.headerByte hq hf hs hc).exec, by bv_omega, by bv_omega, ?_⟩
  have hlt : s.rx.cursor.toNat < 9 := by omega
  simp [hlt]

/-- Settles O14: the step that rejects a header; the guard was collected before the ninth byte. -/
theorem ninthByteMismatchAnswersError : Obligations.NinthByteMismatchAnswersError := by
  intro s b q hq hf hs hc h hg
  have hg' : s.hdrGuard ≠ s.cfg.guard := hdrGuard_storeHeader_eight b s ▸ hg
  exact (ReceiverStep.headerRejected hq hf hs (congrArg BitVec.toNat hc) hg').exec

/-- Settles O15: the two steps that accept a header, by its size. -/
theorem ninthByteMatchLatchesHeader : Obligations.NinthByteMatchLatchesHeader := by
  intro s b q hq hf hs hc h size hg
  have hg' : s.hdrGuard = s.cfg.guard := hdrGuard_storeHeader_eight b s ▸ hg
  have hc' : s.rx.cursor.toNat = 8 := congrArg BitVec.toNat hc
  refine ⟨fun hz => ?_, fun hz => (ReceiverStep.bodyBegins hq hf hs hc' hg' hz).exec⟩
  rw [hz]
  exact (ReceiverStep.emptyFrame hq hf hs hc' hg' hz).exec

/-- Settles O16: the two steps of a body byte, by whether the count reaches `f_size`. -/
theorem bodyByteStoredAndCounted : Obligations.BodyByteStoredAndCounted := by
  intro s b q hq hf hs _ buf
  exact ⟨fun hc => (ReceiverStep.bodyByte hq hf hs (by bv_omega)).exec,
    fun hc => (ReceiverStep.bodyEnds hq hf hs (by bv_omega)).exec⟩

/-! ## What every operation leaves -/

/-- ERROR is the receiver's one write to the link, and a rejected header its one cause (R90). -/
theorem ReceiverStep.link_tx {op : FrOp} {s t : State} (h : ReceiverStep s op t) :
    t.link.txDone = s.link.txDone ∧
      t.link.txPend = if op = .hdrMismatch then s.link.txPend ++ [rspError] else s.link.txPend := by
  cases h with
  | headerRejected | idle | timeout | drop | headerByte | emptyFrame | bodyBegins | bodyByte | bodyEnds =>
    exact ⟨rfl, rfl⟩

/-- Settles O19: the frame of a receiver operation, and its writes to the link. -/
theorem receiverWritesOnlyItsOwnState : Obligations.ReceiverWritesOnlyItsOwnState := fun op s t h => by
  rw [exec_frOp] at h
  have hk := onlyReceiver_runFr h
  obtain ⟨hdone, hpend⟩ := (runFr_next h).link_tx
  exact ⟨hk.cfg, hk.fps, hk.ses, hk.fl, hk.ended, hk.sched, hk.pollTmoFirst, hk.clock, hdone,
    flashByte_congr hk.cfg (congrArg FlashCtl.cells hk.fl) (congrArg FlashCtl.inFlight hk.fl) hk.clock,
    fun he => hpend.trans (if_pos he), fun he => hpend.trans (if_neg he)⟩

/-- While a frame waits only FR_IDLE, FR_DROP and FR_TMO can run, and FR_TMO finds the receiver as it leaves it. -/
theorem ReceiverStep.rx_of_pending {op : FrOp} {s t : State} (h : ReceiverStep s op t) (hf : s.rx.frameComplete = true)
    (hs : s.rx.rxState = .awaitingHeader) (hc : s.rx.cursor = 0) : t.rx = s.rx := by
  cases h with
  | idle | drop => rfl
  | timeout => simp only [← hs, ← hc]
  | headerByte _ hn | headerRejected _ hn | emptyFrame _ hn | bodyBegins _ hn | bodyByte _ hn | bodyEnds _ hn =>
    exact absurd hf (by simp [hn])

/-- Settles O20: the receiver's invariant puts a waiting frame in header mode with the cursor at 0 (10_state.md R26). -/
theorem pendingFrameIsNotTouched : Obligations.PendingFrameIsNotTouched := fun op s t hi hf h => by
  obtain ⟨hs, hc⟩ := hi.pending hf
  exact (runFr_next (exec_frOp op s ▸ h)).rx_of_pending hf hs hc


/-! ## What a poll and a run of polls do -/

/-- With no timeout visible at most one operation's condition holds, and the poll takes it (R76). -/
theorem ReceiverStep.decodePoll_eq {op : FrOp} {s t : State} (h : ReceiverStep s op t) (ht : s.tmoFlag = false) :
    decodePoll s.pollWord = op := by
  rw [decodePoll_pollWord]
  cases h with
  | idle hq => simp [ht, (rxReady_eq_false_iff s).mpr hq]
  | timeout ht' => simp [ht] at ht'
  | drop hq hf => simp [ht, rxReady_cons hq, hf]
  | headerByte hq hf hs hc => simp [ht, rxReady_cons hq, hf, hs, RxState.bit, Nat.lt_succ_of_le hc]
  | headerRejected hq hf hs hc hg => simp [ht, rxReady_cons hq, hf, hs, RxState.bit, hc, mt (guardOk_iff s).mp hg]
  | emptyFrame hq hf hs hc hg | bodyBegins hq hf hs hc hg =>
    simp [ht, rxReady_cons hq, hf, hs, RxState.bit, hc, (guardOk_iff s).mpr hg]
  | bodyByte hq hf hs | bodyEnds hq hf hs => simp [ht, rxReady_cons hq, hf, hs, RxState.bit]

theorem ReceiverStep.frPoll {op : FrOp} {s t : State} (h : ReceiverStep s op t) (ht : s.tmoFlag = false) :
    frPoll s = .next t := by
  rw [Machine.frPoll, h.decodePoll_eq ht, h.runFr]

theorem pollRun_succ_of_frPoll {s t : State} (h : frPoll s = .next t) (n : Nat) : pollRun (n + 1) s = pollRun n t := by
  simp only [pollRun, h]

/-- One poll after another: a step the receiver can take, then the rest of the run. -/
theorem ReceiverStep.pollRun_succ {op : FrOp} {s t : State} (h : ReceiverStep s op t) (ht : s.tmoFlag = false)
    (n : Nat) : pollRun (n + 1) s = pollRun n t :=
  pollRun_succ_of_frPoll (h.frPoll ht) n

theorem pollRun_add {m : Nat} {s t : State} (h : pollRun m s = .next t) (n : Nat) : pollRun (m + n) s = pollRun n t := by
  induction m generalizing s with
  | zero =>
    cases h
    rw [Nat.zero_add]
  | succ m ih =>
    cases hp : frPoll s with
    | next u =>
      rw [pollRun_succ_of_frPoll hp] at h
      rw [Nat.succ_add, pollRun_succ_of_frPoll hp, ih h]
    | fault e => simp [pollRun, hp] at h
    | refused e => simp [pollRun, hp] at h

/-! ## Bytes stored one after the other -/

/-- The buffer after the bytes are stored at `i`, `i + 1`, ...; a byte past its end is not stored. -/
def overwrite : List Byte → Nat → List Byte → List Byte
  | buf, _, [] => buf
  | buf, i, b :: bs => overwrite (buf.set i b) (i + 1) bs

@[simp] theorem length_overwrite (bs buf : List Byte) (i : Nat) : (overwrite buf i bs).length = buf.length := by
  induction bs generalizing buf i with
  | nil => rfl
  | cons b bs ih => exact (ih _ _).trans List.length_set

theorem getElem?_overwrite_outside {bs buf : List Byte} {i j : Nat} (h : j < i ∨ i + bs.length ≤ j) :
    (overwrite buf i bs)[j]? = buf[j]? := by
  induction bs generalizing buf i with
  | nil => rfl
  | cons b bs ih =>
    rw [List.length_cons] at h
    rw [overwrite, ih (by omega), List.getElem?_set_ne (by omega)]

theorem getElem?_overwrite_inside {bs buf : List Byte} {i k : Nat} (hk : k < bs.length) (hi : i + k < buf.length) :
    (overwrite buf i bs)[i + k]? = bs[k]? := by
  induction bs generalizing buf i k with
  | nil => exact absurd hk (Nat.not_lt_zero k)
  | cons b bs ih =>
    cases k with
    | zero =>
      rw [overwrite, getElem?_overwrite_outside (by omega), Nat.add_zero, List.getElem?_set_self (by omega),
        List.getElem?_cons_zero]
    | succ k =>
      rw [List.length_cons] at hk
      rw [overwrite, List.getElem?_cons_succ, ← ih (buf := buf.set i b) (i := i + 1) (by omega)
        (by rw [List.length_set]; omega), Nat.succ_add_eq_add_succ]

theorem overwrite_append (bs cs buf : List Byte) (i : Nat) :
    overwrite buf i (bs ++ cs) = overwrite (overwrite buf i bs) (i + bs.length) cs := by
  induction bs generalizing buf i with
  | nil => rfl
  | cons b bs ih => rw [List.cons_append, overwrite, ih, overwrite, List.length_cons, Nat.succ_add_eq_add_succ]

/-- As many bytes as the buffer has replace it. -/
theorem overwrite_whole {bs buf : List Byte} (h : bs.length = buf.length) : overwrite buf 0 bs = bs := by
  refine List.ext_getElem? fun k => ?_
  by_cases hk : k < bs.length
  · simpa only [Nat.zero_add] using getElem?_overwrite_inside (buf := buf) (i := 0) hk (by omega)
  · rw [List.getElem?_eq_none (by rw [length_overwrite]; omega), List.getElem?_eq_none (by omega)]

/-! ## Polls collect a header -/

/-- The receiver waits for a header byte, and no timeout is visible. -/
structure State.AwaitsHeader (s : State) : Prop where
  mode : s.rx.rxState = .awaitingHeader
  noFrame : s.rx.frameComplete = false
  noTimeout : s.tmoFlag = false

/-- The state with this header buffer, cursor and receive stream, and no timeout. -/
def State.collected (hdr : Vector Byte 9) (k : Word) (q : List Byte) (s : State) : State :=
  { s with link.rxQ := q, tmoFlag := false, rx.hdrBuf := hdr, rx.cursor := k }

theorem State.AwaitsHeader.collected {s : State} (h : s.AwaitsHeader) (hdr : Vector Byte 9) (k : Word) (q : List Byte) :
    (s.collected hdr k q).AwaitsHeader :=
  ⟨h.mode, h.noFrame, rfl⟩

/-- One poll a byte, the bytes before the ninth are stored and counted (R81). -/
theorem pollRun_header_bytes {s : State} {bs rest : List Byte} (hs : s.AwaitsHeader)
    (hc : s.rx.cursor.toNat + bs.length ≤ 8) (hq : s.link.rxQ = bs ++ rest) :
    ∃ hdr, pollRun bs.length s = .next (s.collected hdr (s.rx.cursor + BitVec.ofNat 32 bs.length) rest) ∧
      hdr.toList = overwrite s.rx.hdrBuf.toList s.rx.cursor.toNat bs := by
  induction bs generalizing s with
  | nil =>
    refine ⟨s.rx.hdrBuf, ?_, rfl⟩
    rw [List.nil_append] at hq
    rw [State.collected, ← hq, ← hs.noTimeout, List.length_nil, BitVec.add_zero]
    rfl
  | cons b bs ih =>
    rw [List.length_cons] at hc
    have hstep := (ReceiverStep.headerByte hq hs.noFrame hs.mode (by omega)).pollRun_succ hs.noTimeout bs.length
    have hcur : (s.rx.cursor + 1).toNat = s.rx.cursor.toNat + 1 := by bv_omega
    have hnext := hs.collected (s.rx.hdrBuf.setIfInBounds s.rx.cursor.toNat b) (s.rx.cursor + 1) (bs ++ rest)
    obtain ⟨hdr, hrun, hhdr⟩ := ih hnext (by simp only [State.collected, hcur]; omega) rfl
    refine ⟨hdr, ?_, ?_⟩
    · rw [List.length_cons, BitVec.ofNat_add, BitVec.add_comm (BitVec.ofNat 32 bs.length), ← BitVec.add_assoc]
      exact hstep.trans hrun
    · simpa only [State.collected, hcur, Vector.toList_setIfInBounds, overwrite] using hhdr

/-- The fields of a buffer that holds a header (30_encoding.md R64). -/
theorem hdrFields_of_toList {s : State} {g z : Word} {c : Byte}
    (h : s.rx.hdrBuf.toList = headerBytes s.cfg.fieldOrder g z c) : s.hdrGuard = g ∧ s.hdrSize = z := by
  have hbytes : ∀ i (hi : i < 9), s.rx.hdrBuf[i] = bytesAt (headerBytes s.cfg.fieldOrder g z c) i := fun i hi => by
    simp [← h, bytesAt, hi]
  obtain ⟨hguard, hsize, -⟩ := header_fields s.cfg.fieldOrder g z c []
  rw [List.append_nil] at hguard hsize
  simp only [State.hdrGuard, State.hdrSize, hbytes]
  exact ⟨hguard, hsize⟩

/-- Eight polls before the ninth byte of a header: with it, the fields are the header's. -/
theorem pollRun_header {s : State} {g z : Word} {c : Byte} {rest : List Byte} (hs : s.AwaitsHeader) (hc : s.rx.cursor = 0)
    (hq : s.link.rxQ = headerBytes s.cfg.fieldOrder g z c ++ rest) :
    ∃ hdr, pollRun 8 s = .next (s.collected hdr 8 (c :: rest)) ∧
      (s.collected hdr 8 (c :: rest)).hdrGuard = g ∧ (storeHeader 8 c (s.collected hdr 8 (c :: rest))).hdrSize = z := by
  have hlen : (ser32 s.cfg.fieldOrder g ++ ser32 s.cfg.fieldOrder z).length = 8 := by simp [ser32_length]
  obtain ⟨hdr, hrun, hhdr⟩ := pollRun_header_bytes (bs := ser32 s.cfg.fieldOrder g ++ ser32 s.cfg.fieldOrder z)
    (rest := c :: rest) hs (by simp [hc, hlen]) (by simpa [headerBytes] using hq)
  have hnine : (hdr.setIfInBounds 8 c).toList = headerBytes s.cfg.fieldOrder g z c := by
    rw [← overwrite_whole (bs := headerBytes s.cfg.fieldOrder g z c) (buf := s.rx.hdrBuf.toList)
      (by simp [headerBytes_length]), headerBytes, overwrite_append, hlen, Vector.toList_setIfInBounds, hhdr, hc]
    rfl
  obtain ⟨hguard, hsize⟩ := hdrFields_of_toList (s := storeHeader 8 c (s.collected hdr 8 (c :: rest))) hnine
  rw [hc, hlen] at hrun
  exact ⟨hdr, hrun, (hdrGuard_storeHeader_eight c _).symm.trans hguard, hsize⟩

/-- Settles O22: eight bytes are collected and the ninth rejects the header. -/
theorem badHeaderIsDiscardedWhole : Obligations.BadHeaderIsDiscardedWhole := by
  intro s g z c rest hs hc hf ht hg hq
  have haw : s.AwaitsHeader := ⟨hs, hf, ht⟩
  obtain ⟨hdr, hrun, hguard, -⟩ := pollRun_header haw hc hq
  have hninth := ReceiverStep.headerRejected (s := s.collected hdr 8 (c :: rest)) rfl hf hs rfl (hguard ▸ hg)
  exact ⟨_, (pollRun_add hrun 1).trans (hninth.pollRun_succ rfl 0), hf, hs, rfl, rfl, rfl, rfl, rfl, rfl, rfl, rfl, rfl⟩

/-! ## Polls collect a payload -/

/-- The state with a frame completed over this payload buffer, this receive stream, and no timeout. -/
def State.received (buf q : List Byte) (s : State) : State :=
  { s with
    link.rxQ := q
    tmoFlag := false
    rx.payBuf := buf
    rx.cursor := 0
    rx.rxState := .awaitingHeader
    rx.frameComplete := true }

/-- Past the payload buffer's end there is nothing to store to. -/
theorem payBuf_stored {s : State} (hb : s.rx.payBuf.length = s.cfg.maxPayload) (b : Byte) :
    (if s.rx.cursor.toNat < s.cfg.maxPayload then s.rx.payBuf.set s.rx.cursor.toNat b else s.rx.payBuf) =
      s.rx.payBuf.set s.rx.cursor.toNat b := by
  split
  · rfl
  · next h => exact (List.set_eq_of_length_le (by omega)).symm

/-- The receiver waits for a body byte, with a payload buffer of its size (10_state.md R24), and no timeout is visible. -/
structure State.AwaitsBody (s : State) : Prop where
  mode : s.rx.rxState = .awaitingBody
  noFrame : s.rx.frameComplete = false
  noTimeout : s.tmoFlag = false
  bufSize : s.rx.payBuf.length = s.cfg.maxPayload

/-- The state with this payload buffer, cursor and receive stream, and no timeout. -/
def State.stored (buf : List Byte) (k : Word) (q : List Byte) (s : State) : State :=
  { s with link.rxQ := q, tmoFlag := false, rx.payBuf := buf, rx.cursor := k }

theorem State.AwaitsBody.stored {s : State} (h : s.AwaitsBody) (i : Nat) (b : Byte) (k : Word) (q : List Byte) :
    (s.stored (s.rx.payBuf.set i b) k q).AwaitsBody :=
  ⟨h.mode, h.noFrame, rfl, List.length_set.trans h.bufSize⟩

/-- One poll a byte, the rest of a payload is stored and its last byte completes the frame (R84). -/
theorem pollRun_body {s : State} {b : Byte} {bs rest : List Byte} (hs : s.AwaitsBody)
    (hc : s.rx.cursor.toNat + (bs.length + 1) = s.rx.fSize.toNat) (hq : s.link.rxQ = b :: (bs ++ rest)) :
    pollRun (bs.length + 1) s = .next (s.received (overwrite s.rx.payBuf s.rx.cursor.toNat (b :: bs)) rest) := by
  induction bs generalizing s b with
  | nil =>
    have hend : s.rx.cursor + 1 = s.rx.fSize := by simp only [List.length_nil] at hc; bv_omega
    have hstep := (ReceiverStep.bodyEnds hq hs.noFrame hs.mode hend).pollRun_succ hs.noTimeout 0
    rw [payBuf_stored hs.bufSize] at hstep
    exact hstep
  | cons b' bs ih =>
    rw [List.length_cons] at hc
    have hmore : s.rx.cursor + 1 ≠ s.rx.fSize := by bv_omega
    have hcur : (s.rx.cursor + 1).toNat = s.rx.cursor.toNat + 1 := by bv_omega
    have hstep := (ReceiverStep.bodyByte hq hs.noFrame hs.mode hmore).pollRun_succ hs.noTimeout (bs.length + 1)
    rw [payBuf_stored hs.bufSize] at hstep
    have hrun := ih (b := b') (hs.stored s.rx.cursor.toNat b (s.rx.cursor + 1) (b' :: (bs ++ rest)))
      (by simp only [State.stored, hcur]; omega) rfl
    rw [State.stored, hcur] at hrun
    exact hstep.trans hrun

/-! ## Polls collect a frame -/

/-- The state in which a header's size and command are latched and its payload is awaited. -/
def State.latched (hdr : Vector Byte 9) (z : Word) (c : Byte) (q : List Byte) (s : State) : State :=
  { s with
    link.rxQ := q
    tmoFlag := false
    rx.hdrBuf := hdr
    rx.fSize := z
    rx.fCmd := c
    rx.cursor := 0
    rx.rxState := .awaitingBody }

/-- Nine polls take a header that announces a payload (R83). -/
theorem pollRun_accepted_header {s : State} {z : Word} {c : Byte} {rest : List Byte} (hs : s.AwaitsHeader)
    (hc : s.rx.cursor = 0) (hz : z ≠ 0) (hq : s.link.rxQ = headerBytes s.cfg.fieldOrder s.cfg.guard z c ++ rest) :
    ∃ hdr, pollRun 9 s = .next (s.latched hdr z c rest) := by
  obtain ⟨hdr, hrun, hguard, rfl⟩ := pollRun_header hs hc hq
  have hninth := ReceiverStep.bodyBegins (s := s.collected hdr 8 (c :: rest)) rfl hs.noFrame hs.mode rfl hguard hz
  exact ⟨_, (pollRun_add hrun 1).trans (hninth.pollRun_succ rfl 0)⟩

/-- Settles O21: an empty payload's frame is complete with its header; else the header latches the size, and the payload's
polls complete the frame. -/
theorem wholeFrameIsReceived : Obligations.WholeFrameIsReceived := by
  intro s c p rest hs hc hf ht hb hp hq
  have haw : s.AwaitsHeader := ⟨hs, hf, ht⟩
  have hsize : (BitVec.ofNat 32 p.length).toNat = p.length := (BitVec.toNat_ofNat ..).trans (Nat.mod_eq_of_lt hp)
  rw [frameBytes, List.append_assoc] at hq
  cases p with
  | nil =>
    obtain ⟨hdr, hrun, hguard, hz⟩ := pollRun_header haw hc hq
    have hninth := ReceiverStep.emptyFrame (s := s.collected hdr 8 (c :: rest)) rfl hf hs rfl hguard hz
    exact ⟨_, (pollRun_add hrun 1).trans (hninth.pollRun_succ rfl 0), rfl, hs, rfl, rfl, rfl, nofun, fun _ _ => rfl, rfl,
      rfl, rfl, rfl, rfl⟩
  | cons b bs =>
    have hz : BitVec.ofNat 32 (b :: bs).length ≠ 0 := fun h0 => by
      rw [h0] at hsize
      exact absurd hsize.symm (Nat.succ_ne_zero _)
    obtain ⟨hdr, hrun⟩ := pollRun_accepted_header haw hc hz hq
    have hbody : (s.latched hdr (BitVec.ofNat 32 (b :: bs).length) c (b :: (bs ++ rest))).AwaitsBody :=
      ⟨rfl, hf, rfl, hb⟩
    have hall := (pollRun_add hrun (b :: bs).length).trans (pollRun_body hbody ((Nat.zero_add _).trans hsize.symm) rfl)
    refine ⟨_, hall, rfl, rfl, rfl, rfl, hsize, fun i hi hm => ?_, fun i hi => ?_, rfl, rfl, rfl, rfl, rfl⟩
    · have hin := getElem?_overwrite_inside (buf := s.rx.payBuf) (i := 0) hi (by omega)
      rw [Nat.zero_add] at hin
      exact hin
    · exact getElem?_overwrite_outside (.inr ((Nat.zero_add _).trans_le hi))

end Sys2Proof.Machine
end

section
/-! SUPPORT. The dispatcher contracts of 41_frame_commands.md: how a staged block passes through the sequencer's states, what
each contract answers, which bytes a dispatch reads, and the family's obligations from these. -/

namespace Sys2Proof.Machine

/-! ## Pages of a block -/

/-- What R12 says of pages, blocks and the end of the array. -/
theorem geometry_of_valid {c : Config} (h : c.valid = true) :
    1 ≤ c.pageSize ∧ 1 ≤ c.ebSize ∧ c.pageSize ∣ c.ebSize ∧ c.ebSize < 2 ^ 32 ∧
      c.flashBase + c.flashLen ≤ 2 ^ 32 := by
  obtain ⟨⟨hpage, hblock, hpages⟩, -, ⟨-, -, -, harray⟩, hpay⟩ := of_decide_eq_true h
  have hmax : c.maxPayload = 4 + c.ebSize := rfl
  exact ⟨hpage, hblock, Nat.dvd_of_mod_eq_zero hpages, by omega, harray⟩

theorem pagesPerBlock_mul_pageSize {c : Config} (h : c.valid = true) : c.pagesPerBlock * c.pageSize = c.ebSize := by
  obtain ⟨-, -, hpages, -⟩ := geometry_of_valid h
  exact Nat.div_mul_cancel hpages

theorem pagesPerBlock_pos {c : Config} (h : c.valid = true) : 0 < c.pagesPerBlock := by
  obtain ⟨hpage, hblock, hpages, -⟩ := geometry_of_valid h
  exact Nat.div_pos (Nat.le_of_dvd hblock hpages) hpage

theorem pagesPerBlock_lt {c : Config} (h : c.valid = true) : c.pagesPerBlock < 2 ^ 32 := by
  obtain ⟨-, -, -, hlt, -⟩ := geometry_of_valid h
  exact (Nat.div_le_self ..).trans_lt hlt

/-- A page of the block ends within it. -/
theorem page_end_le_ebSize {c : Config} {p : Nat} (h : c.valid = true) (hp : p < c.pagesPerBlock) :
    p * c.pageSize + c.pageSize ≤ c.ebSize := by
  calc p * c.pageSize + c.pageSize
    _ = (p + 1) * c.pageSize := (Nat.succ_mul ..).symm
    _ ≤ c.pagesPerBlock * c.pageSize := Nat.mul_le_mul_right _ hp
    _ = c.ebSize := pagesPerBlock_mul_pageSize h

/-- The page index does not wrap. -/
theorem pg_succ_toNat {c : Config} {pg : Word} (h : c.valid = true) (hp : pg.toNat < c.pagesPerBlock) :
    (pg + 1).toNat = pg.toNat + 1 := by
  have hlt := pagesPerBlock_lt h
  have hone : (1 : Word).toNat = 1 := rfl
  rw [BitVec.toNat_add, hone]
  omega

/-- Below the page count, the next index is below it or reaches it. -/
theorem pg_succ_lt {c : Config} {pg : Word} (h : c.valid = true) (hp : pg.toNat < c.pagesPerBlock)
    (hne : (pg + 1).toNat ≠ c.pagesPerBlock) : (pg + 1).toNat < c.pagesPerBlock := by
  rw [pg_succ_toNat h hp] at hne ⊢
  omega

/-- The page address of R112 does not wrap. -/
theorem pageAddr_toNat {s : State} (hv : s.cfg.valid = true) (hb : s.blockAllowed)
    (hp : s.fps.pg.toNat < s.cfg.pagesPerBlock) :
    s.pageAddr.toNat = s.fps.progAddr.toNat + s.fps.pg.toNat * s.cfg.pageSize := by
  have hend := page_end_le_ebSize hv hp
  obtain ⟨hpage, -, -, -, harray⟩ := geometry_of_valid hv
  obtain ⟨-, hout⟩ := hb
  exact Nat.mod_eq_of_lt (by omega)

/-! ## The block being programmed is the target -/

/-- Every byte the operation targets lies in the block being programmed. -/
def State.targetsBlock (op : FlashOp) (s : State) : Prop :=
  ∀ a, (op.target s.cfg).1 ≤ a → a < (op.target s.cfg).1 + (op.target s.cfg).2 → s.inBlock a

theorem targetsBlock_unlock (r : Word) (s : State) : s.targetsBlock (.unlock r) :=
  fun a _ hhi => absurd hhi (Nat.not_lt_zero a)

theorem targetsBlock_erase (s : State) : s.targetsBlock (.erase s.fps.progAddr) := fun _ hlo hhi => ⟨hlo, hhi⟩

theorem targetsBlock_pageWrite {s : State} (hv : s.cfg.valid = true) (hb : s.blockAllowed)
    (hp : s.fps.pg.toNat < s.cfg.pagesPerBlock) : s.targetsBlock (.pageWrite s.pageAddr s.pageData) := fun a hlo hhi => by
  have hend := page_end_le_ebSize hv hp
  have hlen : s.pageData.length ≤ s.cfg.pageSize := List.length_take_le ..
  simp only [FlashOp.target, pageAddr_toNat hv hb hp] at hlo hhi
  constructor <;> omega

/-! ## The sequencer's invariant -/

theorem seqInv_congr {s t : State} (hc : t.cfg = s.cfg) (hf : t.fps = s.fps) (hse : t.ses = s.ses)
    (hi : t.fl.inFlight = s.fl.inFlight) (hs : s.SeqInv) : t.SeqInv := by
  obtain ⟨hst, ha, hp, hpg, hfin, hop⟩ := hs
  exact ⟨by rwa [hse, hf], by rwa [hse, hc], by rwa [State.blockAllowed, hc, hf, hse], by rwa [hf, hc], by rwa [hf, hc],
    by simpa only [State.inBlock, hc, hf, hi] using hop⟩

/-- Outside the programming states no operation is in flight (R58). -/
theorem State.SeqInv.inFlight_none {s : State} (hs : s.SeqInv) (hq : s.fps.seqState.programming = false) :
    s.fl.inFlight = none :=
  Option.eq_none_iff_forall_ne_some.mpr fun op ho => absurd (hs.inFlight op ho).1 (by simp [hq])

/-- Only S_CHECK and the programming states see a staged block (R102). -/
theorem State.SeqInv.not_staged {s : State} (hs : s.SeqInv) (hq : s.fps.seqState.programming = false)
    (hc : s.fps.seqState ≠ .check) : s.ses.stagedReady = false :=
  Bool.eq_false_iff.mpr fun hr => (hs.staged hr).elim hc (by simp [hq])

/-- In S_CHECK the invariant asks for an aligned block and an idle controller. -/
theorem seqInv_check {s : State} (hq : s.fps.seqState = .check) (hi : s.fl.inFlight = none)
    (ha : s.ses.stagedReady = true → s.ses.stagedAddr.toNat % s.cfg.ebSize = 0) : s.SeqInv := by
  constructor
  case aligned => exact ha
  all_goals simp [hq, hi, SeqState.programming]

/-- Outside the programming states the invariant holds with no staged block and an idle controller. -/
theorem seqInv_unstaged {s : State} (hq : s.fps.seqState.programming = false) (hi : s.fl.inFlight = none)
    (hr : s.ses.stagedReady = false) : s.SeqInv := by
  constructor
  case page | final => intro h; simp [h, SeqState.programming] at hq
  all_goals simp [hq, hi, hr]

/-- Programming starts with the staged block, allowed by S_CHECK (R109). -/
theorem seqInv_unlock {s : State} (hq : s.fps.seqState = .unlock) (hi : s.fl.inFlight = none)
    (hr : s.ses.stagedReady = true) (ha : s.ses.stagedAddr.toNat % s.cfg.ebSize = 0)
    (hp : s.fps.progAddr = s.ses.stagedAddr) (hb : s.blockAllowed) : s.SeqInv := by
  constructor <;> simp [hq, hi, hr, ha, hp, hb, SeqState.programming]

/-- Programming goes on with an operation on the block and the page index its state asks for (R117, R122). -/
theorem State.SeqInv.issue {s t : State} {op : FlashOp} (hs : s.SeqInv) (hq : s.fps.seqState.programming = true)
    (hop : s.targetsBlock op) (hcfg : t.cfg = s.cfg) (hses : t.ses = s.ses) (hprog : t.fps.progAddr = s.fps.progAddr)
    (hi : t.fl.inFlight = some op) (hq' : t.fps.seqState.programming = true)
    (hpage : t.fps.seqState = .page → t.fps.pg.toNat < s.cfg.pagesPerBlock)
    (hfinal : t.fps.seqState = .final → t.fps.pg.toNat = s.cfg.pagesPerBlock) : t.SeqInv := by
  constructor <;> simp only [State.blockAllowed, State.inBlock, hcfg, hses, hprog, hi]
  · exact fun _ => .inr hq'
  · exact hs.aligned
  · exact fun _ => hs.programming hq
  · exact hpage
  · exact hfinal
  · rintro op' ⟨⟩
    exact ⟨hq', hop⟩

/-- In S_PAGE the page about to be written lies in the block. -/
theorem State.SeqInv.targetsBlock_page {s : State} (hs : s.SeqInv) (hv : s.cfg.valid = true)
    (hq : s.fps.seqState = .page) : s.targetsBlock (.pageWrite s.pageAddr s.pageData) := by
  obtain ⟨-, -, hallowed⟩ := hs.programming (by rw [hq]; rfl)
  exact targetsBlock_pageWrite hv hallowed (hs.page hq)

/-- With no block pending, a dispatch leaves an aligned one or none (R44). -/
theorem DispatchStep.aligned {s t : State} (h : DispatchStep s t) (hr : s.ses.stagedReady = false) :
    t.ses.stagedReady = true → t.ses.stagedAddr.toNat % s.cfg.ebSize = 0 := by
  cases h with
  | staged _ addr =>
    have hle : alignDown addr.toNat s.cfg.ebSize ≤ addr.toNat := Nat.sub_le ..
    intro _
    simp only [respond_ses, BitVec.toNat_ofNat, Nat.mod_eq_of_lt (hle.trans_lt addr.isLt), alignDown_mod]
  | answer | window | cleared | action => exact fun h => absurd h (by simp [hr])

/-- Only a DATA frame leaves a staged block. -/
theorem DispatchStep.not_staged {s t : State} (h : DispatchStep s t) (hr : s.ses.stagedReady = false)
    (hc : s.rx.fCmd ≠ cmdData) : t.ses.stagedReady = false := by
  cases h with
  | staged hd => exact absurd hd hc
  | answer | window | cleared | action => exact hr

/-- After a dispatch the sequencer enters S_CHECK, or S_TXWAIT with no block staged (R108). -/
theorem DispatchStep.seqInv {s t : State} (h : DispatchStep s t) (hi : s.fl.inFlight = none)
    (hr : s.ses.stagedReady = false) :
    (goto (if s.rx.fCmd = cmdReset ∨ s.rx.fCmd = cmdBkswapReset then .txwait else .check) t).SeqInv := by
  have hi' : t.fl.inFlight = none := h.fl ▸ hi
  split
  · next hc =>
    have hd : s.rx.fCmd ≠ cmdData := by rcases hc with hc | hc <;> rw [hc] <;> decide
    exact seqInv_unstaged rfl hi' (h.not_staged hr hd)
  · exact seqInv_check rfl hi' (h.cfg ▸ h.aligned hr)

theorem ControllerStep.seqInv {s t : State} (h : ControllerStep s t) (hv : s.cfg.valid = true) (hs : s.SeqInv) :
    t.SeqInv := by
  have hidle := hs.inFlight_none
  have hnot := hs.not_staged
  cases h with
  | poll hq u hu =>
    have ho := onlyReceiver_frPoll hu
    rw [hq] at hidle hnot
    exact seqInv_unstaged rfl (ho.fl ▸ hidle rfl) (ho.ses ▸ hnot rfl nofun)
  | noFrame hq =>
    rw [hq] at hidle
    exact seqInv_check rfl (hidle rfl) hs.aligned
  | dispatch hq _ u hu =>
    rw [hq] at hidle hnot
    exact hu.seqInv (hidle rfl) (hnot rfl nofun)
  | noBlock hq hr =>
    rw [hq] at hidle
    exact seqInv_unstaged rfl (hidle rfl) hr
  | start hq hr hin hout =>
    rw [hq] at hidle
    exact seqInv_unlock rfl (hidle rfl) hr (hs.aligned hr) rfl ⟨hin, hout⟩
  | busy _ _ _ ht =>
    have ho := onlyReceiver_frPoll ht
    exact seqInv_congr ho.cfg ho.fps ho.ses (congrArg _ ho.fl) hs
  | unlockLast hq | unlockMore hq =>
    exact hs.issue (by rw [hq]; rfl) (targetsBlock_unlock _ s) rfl rfl rfl rfl (by simp [hq, SeqState.programming])
      (by simp [hq]) (by simp [hq])
  | erase hq =>
    exact hs.issue (by rw [hq]; rfl) (targetsBlock_erase s) rfl rfl rfl rfl rfl (fun _ => pagesPerBlock_pos hv) nofun
  | pageLast hq _ hp =>
    exact hs.issue (by rw [hq]; rfl) (hs.targetsBlock_page hv hq) rfl rfl rfl rfl rfl nofun fun _ => hp
  | pageMore hq _ hp =>
    exact hs.issue (by rw [hq]; rfl) (hs.targetsBlock_page hv hq) rfl rfl rfl rfl (by simp [hq, SeqState.programming])
      (fun _ => pg_succ_lt hv (hs.page hq) hp) (by simp [hq])
  | final _ hb => exact seqInv_unstaged rfl hb rfl
  | wait => exact hs
  | finish hq =>
    rw [hq] at hidle
    exact seqInv_unstaged rfl (hidle rfl) rfl

theorem AgentStep.seqInv {m : Move} {s t : State} (h : AgentStep s m t) (hs : s.SeqInv) : t.SeqInv := by
  cases h with
  | flashDone =>
    obtain ⟨hst, ha, hp, hpg, hfin, -⟩ := hs
    exact ⟨hst, ha, hp, hpg, hfin, nofun⟩
  | launch _ _ _ hi => exact seqInv_unstaged rfl hi rfl
  | controller | flashIdle | linkIdle | launchDisabled => exact hs
  | hostByte | timerExpire | linkSent => exact seqInv_congr (s := s) rfl rfl rfl rfl hs

theorem seqInv_moved {s : State} (hs : s.SeqInv) : s.moved.SeqInv := by
  have hm := sameMachine_moved s
  exact seqInv_congr hm.cfg hm.fps hm.ses (congrArg _ hm.fl) hs

theorem seqInv_step {s t : State} (h : step s = .next t) (hs : s.SeqInv) : t.SeqInv := by
  obtain ⟨hv, hstep⟩ := step_next h
  have hs' := seqInv_moved hs
  cases hstep with
  | controller _ _ _ _ ht => exact ht.seqInv ((sameMachine_moved s).cfg ▸ hv) hs'
  | runOver => exact hs'
  | agent => exact (agentMove_step s.nextMove s.moved).seqInv hs'

/-- Settles O55: a dispatch stages an aligned block and S_CHECK allows it, each programming state issues an operation on that
block, and S_FINAL lets it go. -/
theorem stepKeepsSequencerInvariant : Obligations.StepKeepsSequencerInvariant := fun _ _ hs h => seqInv_step h hs

/-! ## What every dispatch does -/

theorem DispatchStep.txPend {s t : State} (h : DispatchStep s t) :
    ∃ r ∈ [0x50, 0x51, 0x52, 0x53, 0x54], t.link.txPend = s.link.txPend ++ [r] := by
  cases h with
  | answer r hr =>
    have hcode : ∀ c ∈ [rspError, rspInvalid, rspCrcOk, rspCrcFail], c ∈ [0x50, 0x51, 0x52, 0x53, 0x54] := by decide
    exact ⟨r, hcode r hr, rfl⟩
  | cleared => exact ⟨rspError, by decide, rfl⟩
  | window | staged | action => exact ⟨rspOk, by decide, rfl⟩

theorem DispatchStep.txDone {s t : State} (h : DispatchStep s t) : t.link.txDone = s.link.txDone := by cases h <;> rfl

theorem DispatchStep.clock {s t : State} (h : DispatchStep s t) : t.clock = s.clock := by cases h <;> rfl

theorem DispatchStep.flashByte {s t : State} (h : DispatchStep s t) (a : Nat) : t.flashByte a = s.flashByte a :=
  flashByte_congr h.cfg (congrArg _ h.fl) (congrArg _ h.fl) h.clock a

/-- S_DISPATCH runs the contract of a completed frame and enters its next state (R108). -/
theorem exec_sDispatch_frame {s : State} (h : s.rx.frameComplete = true) :
    exec .sDispatch s =
      andThen (dispatch s) (goto (if s.rx.fCmd = cmdReset ∨ s.rx.fCmd = cmdBkswapReset then .txwait else .check)) :=
  if_pos h

/-- Settles O28: each contract ends in one response and writes neither the received bytes nor the flash controller. -/
theorem everyDispatchAnswersOnce : Obligations.EveryDispatchAnswersOnce := fun s t hf h => by
  rw [exec_sDispatch_frame hf] at h
  obtain ⟨u, hu, rfl⟩ := andThen_eq_next h
  have hd := dispatch_next hu
  exact ⟨hd.rx, hd.txPend, hd.txDone, hd.rxQ, hd.tmoFlag, hd.fl, hd.flashByte⟩

/-! ## Each contract -/

theorem execUnlock_accepts {addr size : Word} {s : State} {b e : Nat} (hw : s.cfg.unlockAlign addr size = (b, e))
    (hbe : b < e) (he : e ≤ s.cfg.flashLimit) :
    execUnlock addr size s =
      .next (respond rspOk { s with ses.winBegin := BitVec.ofNat 32 b, ses.winEnd := BitVec.ofNat 32 e }) := by
  simp only [execUnlock, hw]
  exact if_pos ⟨hbe, he⟩

theorem execUnlock_rejects {addr size : Word} {s : State} {b e : Nat} (hw : s.cfg.unlockAlign addr size = (b, e))
    (h : ¬(b < e ∧ e ≤ s.cfg.flashLimit)) :
    execUnlock addr size s = .next (respond rspError { s with ses.winBegin := 0, ses.winEnd := 0 }) := by
  simp only [execUnlock, hw]
  exact if_neg h

/-- Settles O23: the bounds are those of `unlockAlign`; an accepted end is within the limit, so both fit a word. -/
theorem unlockSetsOrClearsTheWindow : Obligations.UnlockSetsOrClearsTheWindow := by
  intro s addr size hv b e
  have hw : s.cfg.unlockAlign addr size = (b, e) := rfl
  refine ⟨fun hbe he => ?_, execUnlock_rejects hw⟩
  have hlim := flashLimit_lt hv
  have hb : (BitVec.ofNat 32 b).toNat = b := Nat.mod_eq_of_lt (by omega)
  have he' : (BitVec.ofNat 32 e).toNat = e := Nat.mod_eq_of_lt (by omega)
  exact ⟨_, _, hb, he', execUnlock_accepts hw hbe he⟩

/-- DATA's window test (R96). -/
def State.inWindow (a : Nat) (s : State) : Prop := s.ses.winBegin.toNat ≤ a ∧ a < s.ses.winEnd.toNat

theorem execData_wrong_size {z addr : Word} {block : List Byte} {s : State} (hz : z.toNat ≠ 4 + s.cfg.ebSize) :
    execData z addr block s = .next (respond rspError s) := if_pos hz

theorem execData_outside {z addr : Word} {block : List Byte} {s : State} (hz : z.toNat = 4 + s.cfg.ebSize)
    (ha : ¬s.inWindow (alignDown addr.toNat s.cfg.ebSize)) : execData z addr block s = .next (respond rspError s) :=
  (if_neg (not_not_intro hz)).trans (if_neg ha)

theorem execData_inside {z addr : Word} {block : List Byte} {s : State} (hz : z.toNat = 4 + s.cfg.ebSize)
    (ha : s.inWindow (alignDown addr.toNat s.cfg.ebSize)) :
    execData z addr block s =
      if s.ses.stagedReady then .fault .stagedOverwrite
      else .next (respond rspOk
        { s with
          ses.stagedAddr := BitVec.ofNat 32 (alignDown addr.toNat s.cfg.ebSize)
          ses.stagedData := block
          ses.stagedReady := true }) :=
  (if_neg (not_not_intro hz)).trans (if_pos ha)

theorem alignDown_toNat (v : Word) (m : Nat) : (BitVec.ofNat 32 (alignDown v.toNat m)).toNat = alignDown v.toNat m :=
  Nat.mod_eq_of_lt ((Nat.sub_le ..).trans_lt v.isLt)

/-- Settles O24: the size, then the window, then the pending block decide. -/
theorem dataStagesOrRejects : Obligations.DataStagesOrRejects := by
  intro s z addr block a rejected
  refine ⟨execData_wrong_size, execData_outside, fun hz hlo hhi hr => ?_, fun hz hlo hhi hr => ?_⟩
  · exact (execData_inside hz ⟨hlo, hhi⟩).trans (if_pos hr)
  · exact ⟨_, alignDown_toNat addr s.cfg.ebSize, (execData_inside hz ⟨hlo, hhi⟩).trans (if_neg (by simp [hr]))⟩

/-- An answer changes nothing a VERIFY reads. -/
theorem windowBytes_respond (r : Byte) (s : State) : (respond r s).windowBytes = s.windowBytes := rfl

/-- Answering again writes the byte again. -/
theorem respond_respond (r : Byte) (s : State) : respond r (respond r s) = linkWrite r (respond r s) := rfl

/-- VERIFY's answer (R97). -/
def State.verdict (crc : Word) (s : State) : Byte := if Config.hwCrc s.windowBytes = crc then rspCrcOk else rspCrcFail

theorem verdict_respond (r : Byte) (crc : Word) (s : State) : (respond r s).verdict crc = s.verdict crc := by
  rw [State.verdict, windowBytes_respond, State.verdict]

theorem exec_verify (crc : Word) (s : State) : exec (.verify crc) s = .next (respond (s.verdict crc) s) := rfl

/-- Settles O25: the answer leaves the window's bytes as they read, so a second VERIFY answers alike. -/
theorem verifyComparesWindowCrc : Obligations.VerifyComparesWindowCrc := fun s crc => by
  refine ⟨exec_verify crc s, ?_⟩
  calc exec (.verify crc) (respond (s.verdict crc) s)
    _ = .next (respond ((respond (s.verdict crc) s).verdict crc) (respond (s.verdict crc) s)) := exec_verify ..
    _ = .next (linkWrite (s.verdict crc) (respond (s.verdict crc) s)) := by rw [verdict_respond, respond_respond]

theorem dispatch_reset {s : State} (h : s.rx.fCmd = cmdReset) : dispatch s = execReset s := by
  simp [dispatch, h, cmdReset, cmdUnlock, cmdData, cmdVerify]

theorem dispatch_bkswapReset {s : State} (h : s.rx.fCmd = cmdBkswapReset) : dispatch s = execBkswapReset s := by
  simp [dispatch, h, cmdBkswapReset, cmdReset, cmdUnlock, cmdData, cmdVerify]

/-- Settles O26: dispatched, the two commands run their contracts and S_TXWAIT follows. -/
theorem resetCommandsChooseTheAction : Obligations.ResetCommandsChooseTheAction := fun s => by
  refine ⟨⟨rfl, rfl⟩, fun hf hc => ?_, fun hf hc => ?_⟩
  · rw [exec_sDispatch_frame hf, dispatch_reset hc, if_pos (.inl hc)]
    rfl
  · rw [exec_sDispatch_frame hf, dispatch_bkswapReset hc, if_pos (.inr hc)]
    rfl

/-- Settles O27: the contract is the answer INVALID and no other write. -/
theorem unknownCommandAnswersInvalid : Obligations.UnknownCommandAnswersInvalid := fun _ _ => rfl

/-! ## Which bytes a dispatch reads -/

/-- A payload byte the current frame did not store is a draw of the step (R101). -/
theorem payByte_stale {s : State} {i : Nat} (h : min s.rx.fSize.toNat s.cfg.maxPayload ≤ i) :
    s.payByte i = Config.freePayloadByte s.clock i := if_neg (Nat.not_lt.mpr h)

theorem payByte_stored {s : State} {i : Nat} (hb : s.rx.payBuf.length = s.cfg.maxPayload)
    (h : i < min s.rx.fSize.toNat s.cfg.maxPayload) : some (s.payByte i) = s.rx.payBuf[i]? := by
  obtain ⟨hz, hm⟩ := Nat.lt_min.mp h
  have hlen : i < s.rx.payBuf.length := hb ▸ hm
  rw [State.payByte, payloadByte_stored hz hm hlen, List.getElem?_eq_getElem hlen]

theorem flashByte_inFlight {s : State} {a : Nat} (ha : s.cfg.inArray a = true) (hf : s.inFlightAt a = true) :
    s.flashByte a = Config.inFlightByte s.clock a := (if_pos ha).trans (if_pos hf)

theorem flashByte_outside {s : State} {a : Nat} (ha : s.cfg.inArray a = false) :
    s.flashByte a = Config.unmappedByte a := if_neg (Bool.eq_false_iff.mp ha)

/-- Settles O29: the frame's size and the buffer bound what is stored, the array and the operation in flight what is
settled. -/
theorem openBytesAreFree : Obligations.OpenBytesAreFree := fun _ hb =>
  ⟨fun _ => payByte_stale, fun _ => payByte_stored hb, fun _ => flashByte_inFlight,
    fun _ ha hf => (flashByte_settled hf).trans (if_pos ha), fun _ => flashByte_outside⟩

end Sys2Proof.Machine
end

section
/-! SUPPORT. The sequencer of 42_flash_sequencer.md, state by state: what a poll, a dispatch, S_CHECK, the programming states and the
wait for the transmitter answer, which bytes an issued operation leaves as they read, and the family's obligations from these. -/

namespace Sys2Proof.Machine

/-! ## Polling, yielding and dispatching -/

/-- A poll runs the selected receiver operation as an instruction. -/
theorem frPoll_eq_exec (s : State) : frPoll s = exec (decodePoll s.pollWord).instr s := (exec_frOp ..).symm

/-- In states of the receiver's invariant a poll goes on: it selects an operation whose condition holds. -/
theorem frPoll_answers {s : State} (hs : s.FrInv) : ∃ t, frPoll s = .next t := runFr_answers (frEnabled_decodePoll hs.header)

theorem OnlyReceiver.flashByte {s t : State} (h : OnlyReceiver s t) (a : Nat) : t.flashByte a = s.flashByte a :=
  flashByte_congr h.cfg (congrArg _ h.fl) (congrArg _ h.fl) h.clock a

theorem exec_sPoll_of_frPoll {s t : State} (h : frPoll s = .next t) : exec .sPoll s = .next (goto .dispatch t) :=
  congrArg (andThen · (goto .dispatch)) h

/-- While an operation is in flight a programming state is one poll (R106, R115). -/
theorem exec_eq_frPoll_of_busy {i : Instr} {s : State} (hi : i = .sUnlock ∨ i = .sErase ∨ i = .sPage ∨ i = .sFinal)
    (hb : s.fl.inFlight.isSome = true) : exec i s = frPoll s := by
  rcases hi with rfl | rfl | rfl | rfl <;> exact if_pos hb

theorem exec_eq_poll_of_busy {i : Instr} {s : State} (hi : i = .sUnlock ∨ i = .sErase ∨ i = .sPage ∨ i = .sFinal)
    (hb : s.fl.inFlight.isSome = true) : exec i s = exec (decodePoll s.pollWord).instr s :=
  (exec_eq_frPoll_of_busy hi hb).trans (frPoll_eq_exec s)

/-- A yield is a receiver operation, which leaves all but the receiver, the timer's flag and the link. -/
theorem onlyReceiver_of_busy {i : Instr} {s t : State} (hi : i = .sUnlock ∨ i = .sErase ∨ i = .sPage ∨ i = .sFinal)
    (hb : s.fl.inFlight.isSome = true) (h : exec i s = .next t) : OnlyReceiver s t :=
  onlyReceiver_frPoll (exec_eq_frPoll_of_busy hi hb ▸ h)

/-- The dispatch of a latched command is its row's instruction (R92, R108). -/
theorem dispatch_eq_exec_command (s : State) : dispatch s = exec s.command s := by
  simp only [State.command, decodeCmd, apply_ite (exec · s)]
  rfl

theorem exec_sDispatch_noFrame {s : State} (h : s.rx.frameComplete = false) :
    exec .sDispatch s = .next (goto .check s) := if_neg (by simp [h])

/-- Settles O6: S_POLL is the poll, then S_DISPATCH. -/
theorem pollRunsSelectedOperation : Obligations.PollRunsSelectedOperation := fun s _ h =>
  exec_sPoll_of_frPoll ((frPoll_eq_exec s).trans h)

/-- Settles O7: the dispatched contract is the exec of the row that the frame selects. -/
theorem dispatchRunsSelectedContract : Obligations.DispatchRunsSelectedContract := fun s => by
  refine ⟨exec_sDispatch_noFrame, fun hf => ?_⟩
  rw [exec_sDispatch_frame hf, dispatch_eq_exec_command, State.command]
  refine ⟨fun t ht => ?_, fun e he => ?_⟩
  · rw [ht]
    rfl
  · rw [he]
    rfl

/-- Settles O31: a busy programming state is one poll, which is the receiver's alone. -/
theorem busyProgrammingStateYields : Obligations.BusyProgrammingStateYields := fun _ _ hi hb => by
  refine ⟨exec_eq_poll_of_busy hi hb, fun t h => ?_⟩
  have ho := onlyReceiver_of_busy hi hb h
  exact ⟨ho.fps, ho.ses, ho.fl, ho.flashByte⟩

/-- Settles O32: the poll finds an enabled operation; a dispatch is stopped by a pending block alone. -/
theorem pollYieldAndDispatchComplete : Obligations.PollYieldAndDispatchComplete := by
  intro s hs
  obtain ⟨t, ht⟩ := frPoll_answers hs
  refine ⟨?_, fun i hi hb => ⟨t, (exec_eq_frPoll_of_busy hi hb).trans ht⟩, fun hr => ?_⟩
  · refine ⟨_, exec_sPoll_of_frPoll ht, ?_⟩
    rw [goto, (onlyReceiver_frPoll ht).fps]
  · cases hf : s.rx.frameComplete with
    | false => exact ⟨_, exec_sDispatch_noFrame hf⟩
    | true =>
      obtain ⟨u, hu⟩ := dispatch_completes hr
      rw [exec_sDispatch_frame hf, hu]
      exact ⟨_, rfl⟩

/-! ## S_CHECK -/

/-- The state in which the staged block's address and regions are latched and programming begins (R109). -/
def State.started (s : State) : State :=
  { s with
    fps.progAddr := s.ses.stagedAddr
    fps.rgn := BitVec.ofNat 32 ((s.ses.stagedAddr.toNat - s.cfg.flashBase) / s.cfg.regionSize)
    fps.rgnLast := BitVec.ofNat 32 ((s.ses.stagedAddr.toNat + s.cfg.ebSize - 1 - s.cfg.flashBase) / s.cfg.regionSize)
    fps.seqState := .unlock }

theorem exec_sCheck_noBlock {s : State} (h : s.ses.stagedReady = false) : exec .sCheck s = .next (goto .poll s) :=
  if_neg (by simp [h])

/-- The staged block is not wholly in the array. -/
def State.stagedOutside (s : State) : Prop :=
  s.ses.stagedAddr.toNat < s.cfg.flashBase ∨
    s.ses.stagedAddr.toNat + s.cfg.ebSize > s.cfg.flashBase + s.cfg.flashLen

theorem exec_sCheck_outside {s : State} (hr : s.ses.stagedReady = true) (ho : s.stagedOutside) :
    exec .sCheck s = .fault .outsideFlash :=
  (if_pos hr).trans (if_pos ho)

theorem exec_sCheck_overBoot {s : State} (hr : s.ses.stagedReady = true) (ho : ¬s.stagedOutside)
    (hb : s.ses.stagedAddr.toNat < s.cfg.flashBase + s.cfg.bootSize) : exec .sCheck s = .fault .selfOverwrite :=
  (if_pos hr).trans ((if_neg ho).trans (if_pos hb))

theorem exec_sCheck_allowed {s : State} (hr : s.ses.stagedReady = true) (ho : ¬s.stagedOutside)
    (hb : ¬s.ses.stagedAddr.toNat < s.cfg.flashBase + s.cfg.bootSize) : exec .sCheck s = .next s.started :=
  (if_pos hr).trans ((if_neg ho).trans (if_neg hb))

/-- A region index of the array fits its register. -/
theorem region_toNat {c : Config} {x : Nat} (hv : c.valid = true) (hx : x < c.flashBase + c.flashLen) :
    (BitVec.ofNat 32 ((x - c.flashBase) / c.regionSize)).toNat = c.regionOf x := by
  obtain ⟨-, -, -, -, harray⟩ := geometry_of_valid hv
  have hle : (x - c.flashBase) / c.regionSize ≤ x - c.flashBase := Nat.div_le_self ..
  exact Nat.mod_eq_of_lt (by omega)

/-- The latched regions are those of the block's first and last byte. -/
theorem started_regions {s : State} (hv : s.cfg.valid = true) (ho : ¬s.stagedOutside) :
    s.started.fps.rgn.toNat = s.cfg.regionOf s.ses.stagedAddr.toNat ∧
      s.started.fps.rgnLast.toNat = s.cfg.regionOf (s.ses.stagedAddr.toNat + s.cfg.ebSize - 1) := by
  obtain ⟨-, hblock, -⟩ := geometry_of_valid hv
  unfold State.stagedOutside at ho
  exact ⟨region_toNat hv (by omega), region_toNat hv (by omega)⟩

/-- Settles O33: the four cases of R109; an allowed block's region indices fit their registers. -/
theorem checkStartsProgramming : Obligations.CheckStartsProgramming := by
  intro s hv a outside
  refine ⟨exec_sCheck_noBlock, exec_sCheck_outside, exec_sCheck_overBoot, fun hr ho hb => ?_⟩
  obtain ⟨hfirst, hlast⟩ := started_regions hv ho
  exact ⟨_, _, hfirst, hlast, exec_sCheck_allowed hr ho hb⟩

/-- The indices from the region of offset `b` to the region of offset `b + n - 1` are those of the regions that meet the `n` bytes
from `b`. -/
theorem between_regions_iff {b n size r : Nat} (hsize : 1 ≤ size) (hn : 1 ≤ n) :
    (b / size ≤ r ∧ r ≤ (b + n - 1) / size) ↔
      ∃ y, b ≤ y ∧ y < b + n ∧ r * size ≤ y ∧ y < (r + 1) * size := by
  rw [Nat.le_div_iff_mul_le hsize, ← Nat.lt_succ_iff, Nat.div_lt_iff_lt_mul hsize]
  constructor
  · rintro ⟨hfirst, hlast⟩
    have hpos : r * size < (r + 1) * size := Nat.mul_lt_mul_of_pos_right (Nat.lt_succ_self r) hsize
    exact ⟨max b (r * size), le_max_left .., by omega, le_max_right .., max_lt hfirst hpos⟩
  · rintro ⟨y, hlo, hhi, hr, hr'⟩
    exact ⟨hlo.trans_lt hr', by omega⟩

/-- S_CHECK answers with a staged block only where it allows it. -/
theorem started_of_exec_sCheck {s t : State} (hr : s.ses.stagedReady = true) (h : exec .sCheck s = .next t) :
    ¬s.stagedOutside ∧ t = s.started := by
  by_cases ho : s.stagedOutside
  · rw [exec_sCheck_outside hr ho] at h
    cases h
  by_cases hb : s.ses.stagedAddr.toNat < s.cfg.flashBase + s.cfg.bootSize
  · rw [exec_sCheck_overBoot hr ho hb] at h
    cases h
  rw [exec_sCheck_allowed hr ho hb] at h
  cases h
  exact ⟨ho, rfl⟩

/-- Settles O39: the latched indices are quotients by the region size, counted from the array's base. -/
theorem regionsAreThoseMeetingTheBlock : Obligations.RegionsAreThoseMeetingTheBlock := by
  intro s t hv hr h a r
  obtain ⟨ho, rfl⟩ := started_of_exec_sCheck hr h
  obtain ⟨hfirst, hlast⟩ := started_regions hv ho
  obtain ⟨-, hblock, -⟩ := geometry_of_valid hv
  obtain ⟨-, ⟨hsize, -⟩, -⟩ := of_decide_eq_true hv
  obtain ⟨b, hb⟩ : ∃ b, a = s.cfg.flashBase + b := Nat.exists_eq_add_of_le (not_lt.mp (not_or.mp ho).1)
  have hoff : a + s.cfg.ebSize - 1 - s.cfg.flashBase = b + s.cfg.ebSize - 1 := by omega
  rw [hfirst, hlast, Config.regionOf, Config.regionOf, hoff, show a - s.cfg.flashBase = b by omega,
    between_regions_iff hsize hblock]
  constructor
  · rintro ⟨y, hlo, hhi, hy, hy'⟩
    exact ⟨s.cfg.flashBase + y, by omega, by omega, by omega, by omega⟩
  · rintro ⟨x, hlo, hhi, hx, hx'⟩
    exact ⟨x - s.cfg.flashBase, by omega, by omega, by omega, by omega⟩

/-! ## The programming states with no operation in flight -/

section
variable {s : State} (hi : s.fl.inFlight = none)
include hi

theorem not_flBusy : ¬s.flBusy = true := by simp [State.flBusy, hi]

theorem exec_sUnlock_last (hr : s.fps.rgn = s.fps.rgnLast) :
    exec .sUnlock s = .next { s with fl.inFlight := some (.unlock s.fps.rgn), fps.seqState := .erase } :=
  (if_neg (not_flBusy hi)).trans (if_pos hr)

theorem exec_sUnlock_more (hr : s.fps.rgn ≠ s.fps.rgnLast) :
    exec .sUnlock s = .next { s with fl.inFlight := some (.unlock s.fps.rgn), fps.rgn := s.fps.rgn + 1 } :=
  (if_neg (not_flBusy hi)).trans (if_neg hr)

theorem exec_sErase_idle :
    exec .sErase s = .next
      { s with fl.inFlight := some (.erase s.fps.progAddr), fps.pg := 0, fps.seqState := .page } :=
  if_neg (not_flBusy hi)

theorem exec_sPage_last (hp : (s.fps.pg + 1).toNat = s.cfg.pagesPerBlock) :
    exec .sPage s = .next
      { s with
        fl.inFlight := some (.pageWrite s.pageAddr s.pageData)
        fps.pg := s.fps.pg + 1
        fps.seqState := .final } :=
  (if_neg (not_flBusy hi)).trans (if_pos hp)

theorem exec_sPage_more (hp : (s.fps.pg + 1).toNat ≠ s.cfg.pagesPerBlock) :
    exec .sPage s = .next
      { s with fl.inFlight := some (.pageWrite s.pageAddr s.pageData), fps.pg := s.fps.pg + 1 } :=
  (if_neg (not_flBusy hi)).trans (if_neg hp)

theorem exec_sFinal_idle : exec .sFinal s = .next { s with ses.stagedReady := false, fps.seqState := .poll } :=
  if_neg (not_flBusy hi)

end

/-- From an idle controller, the operation goes in flight (20_memory.md R47); the session and the block's address stay. -/
structure Issued (op : FlashOp) (s t : State) : Prop where
  idle : s.fl.inFlight = none
  fl : t.fl = { s.fl with inFlight := some op }
  cfg : t.cfg = s.cfg
  ses : t.ses = s.ses
  progAddr : t.fps.progAddr = s.fps.progAddr

theorem Issued.inFlight {op : FlashOp} {s t : State} (h : Issued op s t) : t.fl.inFlight = some op := by rw [h.fl]

theorem Issued.inFlightAt {op : FlashOp} {s t : State} (h : Issued op s t) (a : Nat) :
    t.inFlightAt a = decide ((op.target s.cfg).1 ≤ a ∧ a < (op.target s.cfg).1 + (op.target s.cfg).2) := by
  rw [inFlightAt_some h.inFlight, h.cfg]

/-- Issuing an operation leaves what the bytes outside its target read as. -/
theorem Issued.flashByte_outside {op : FlashOp} {s t : State} (h : Issued op s t) {a : Nat}
    (ha : ¬((op.target s.cfg).1 ≤ a ∧ a < (op.target s.cfg).1 + (op.target s.cfg).2)) :
    t.flashByte a = s.flashByte a := by
  refine flashByte_congr_settled h.cfg (by rw [h.fl]) (inFlightAt_none h.idle a) ?_
  rw [h.inFlightAt]
  exact decide_eq_false ha

/-- An unlock issued targets no byte (log 7). -/
theorem Issued.flashByte_unlock {r : Word} {s t : State} (h : Issued (.unlock r) s t) (a : Nat) :
    t.flashByte a = s.flashByte a :=
  h.flashByte_outside fun ha => Nat.not_lt_zero a ha.2

theorem issued_sUnlock {s t : State} (hi : s.fl.inFlight = none) (h : exec .sUnlock s = .next t) :
    Issued (.unlock s.fps.rgn) s t := by
  by_cases hr : s.fps.rgn = s.fps.rgnLast
  · cases (exec_sUnlock_last hi hr).symm.trans h
    exact ⟨hi, rfl, rfl, rfl, rfl⟩
  · cases (exec_sUnlock_more hi hr).symm.trans h
    exact ⟨hi, rfl, rfl, rfl, rfl⟩

theorem issued_sErase {s t : State} (hi : s.fl.inFlight = none) (h : exec .sErase s = .next t) :
    Issued (.erase s.fps.progAddr) s t := by
  cases (exec_sErase_idle hi).symm.trans h
  exact ⟨hi, rfl, rfl, rfl, rfl⟩

theorem issued_sPage {s t : State} (hi : s.fl.inFlight = none) (h : exec .sPage s = .next t) :
    Issued (.pageWrite s.pageAddr s.pageData) s t := by
  by_cases hp : (s.fps.pg + 1).toNat = s.cfg.pagesPerBlock
  · cases (exec_sPage_last hi hp).symm.trans h
    exact ⟨hi, rfl, rfl, rfl, rfl⟩
  · cases (exec_sPage_more hi hp).symm.trans h
    exact ⟨hi, rfl, rfl, rfl, rfl⟩

/-- S_UNLOCK changes no byte, busy or idle. -/
theorem flashByte_sUnlock {s t : State} (h : exec .sUnlock s = .next t) (a : Nat) : t.flashByte a = s.flashByte a := by
  cases hi : s.fl.inFlight with
  | some op => exact (onlyReceiver_of_busy (.inl rfl) (by simp [hi]) h).flashByte a
  | none => exact (issued_sUnlock hi h).flashByte_unlock a

/-- Settles O34: the two idle answers, and an unlock that targets no byte. -/
theorem unlockIssuesNextRegion : Obligations.UnlockIssuesNextRegion := fun _ =>
  ⟨exec_eq_poll_of_busy (.inl rfl), fun hi => ⟨exec_sUnlock_last hi, exec_sUnlock_more hi⟩,
    fun _ => flashByte_sUnlock⟩

/-- S_ERASE changes no byte outside the block. -/
theorem flashByte_sErase {s t : State} (h : exec .sErase s = .next t) {a : Nat} (ha : ¬s.inBlock a) :
    t.flashByte a = s.flashByte a := by
  cases hi : s.fl.inFlight with
  | some op => exact (onlyReceiver_of_busy (.inr (.inl rfl)) (by simp [hi]) h).flashByte a
  | none => exact (issued_sErase hi h).flashByte_outside ha

/-- Settles O35: the erase is issued on the block. -/
theorem eraseIssuesTheBlock : Obligations.EraseIssuesTheBlock := fun _ =>
  ⟨exec_eq_poll_of_busy (.inr (.inl rfl)), exec_sErase_idle, fun _ h _ => flashByte_sErase h⟩

theorem length_pageData_le (s : State) : s.pageData.length ≤ s.cfg.pageSize := List.length_take_le ..

/-- S_PAGE changes no byte outside the page. -/
theorem flashByte_sPage {s t : State} (h : exec .sPage s = .next t) {a : Nat}
    (ha : ¬(s.pageAddr.toNat ≤ a ∧ a < s.pageAddr.toNat + s.cfg.pageSize)) : t.flashByte a = s.flashByte a := by
  cases hi : s.fl.inFlight with
  | some op => exact (onlyReceiver_of_busy (.inr (.inr (.inl rfl))) (by simp [hi]) h).flashByte a
  | none =>
    have hlen := length_pageData_le s
    have ha' : ¬(s.pageAddr.toNat ≤ a ∧ a < s.pageAddr.toNat + s.pageData.length) := by omega
    exact (issued_sPage hi h).flashByte_outside ha'

/-- Settles O36: the page's address is the given word, and its index does not wrap. -/
theorem pageWriteIssuesTheNextPage : Obligations.PageWriteIssuesTheNextPage := by
  intro s w hlt hpg hw d
  have hpages : s.cfg.ebSize / s.cfg.pageSize ≤ s.cfg.ebSize := Nat.div_le_self ..
  have hsucc : (s.fps.pg + 1).toNat = s.fps.pg.toNat + 1 := by bv_omega
  obtain rfl : s.pageAddr = w := by rw [State.pageAddr, ← hw, BitVec.ofNat_toNat, BitVec.setWidth_eq]
  refine ⟨exec_eq_poll_of_busy (.inr (.inr (.inl rfl))), fun hi => ⟨fun hp => ?_, fun hp => ?_⟩,
    fun _ h _ => flashByte_sPage h⟩
  · exact exec_sPage_more hi (hsucc ▸ hp.ne)
  · exact exec_sPage_last hi (hsucc ▸ hp)

/-- Settles O37: idle, S_FINAL lets the block go. -/
theorem finalClearsReadiness : Obligations.FinalClearsReadiness := fun _ =>
  ⟨exec_eq_poll_of_busy (.inr (.inr (.inr rfl))), exec_sFinal_idle⟩

/-! ## S_TXWAIT -/

/-- The end of a run leaves the array as it reads, bank swap or not (log 30). -/
theorem flashByte_endRun (k : EndKind) (s : State) (a : Nat) : (endRun k s).flashByte a = s.flashByte a :=
  flashByte_congr rfl rfl rfl rfl a

theorem endRun_link {s : State} (h : s.link.txPend = []) (k : EndKind) :
    (endRun k s).link = { s.link with rxQ := [] } := by
  simp only [endRun, h]

/-- Settles O38: the action chosen is the way the run ends. -/
theorem transmitWaitEndsTheRun : Obligations.TransmitWaitEndsTheRun := by
  refine fun s => ⟨exec_sTxwait_of_pending, fun hp ha => ?_, fun hp ha => ?_⟩
  all_goals
    have hend := exec_sTxwait_of_transmitted hp
    rw [ha] at hend
    exact ⟨_, hend, rfl, rfl, rfl, endRun_link hp _, flashByte_endRun _ s⟩

/-! ## No dispatch during programming -/

/-- A controller's step in a programming state keeps the block and what a dispatch would change (R117). -/
structure NoDispatch (s t : State) : Prop where
  winBegin : t.ses.winBegin = s.ses.winBegin
  winEnd : t.ses.winEnd = s.ses.winEnd
  stagedAddr : t.ses.stagedAddr = s.ses.stagedAddr
  stagedData : t.ses.stagedData = s.ses.stagedData
  progAddr : t.fps.progAddr = s.fps.progAddr
  pendingFrame : s.rx.frameComplete = true → t.rx = s.rx
  stagedReady : s.fps.seqState ≠ .final → t.ses.stagedReady = s.ses.stagedReady
  oneInFlight : s.fl.inFlight.isSome = true → t.fl = s.fl ∧ t.fps = s.fps

theorem ControllerStep.noDispatch {s t : State} (h : ControllerStep s t) (hs : s.FrInv)
    (hq : s.fps.seqState.programming = true) : NoDispatch s t := by
  cases h with
  | busy _ hb _ ht =>
    have ho := onlyReceiver_frPoll ht
    have hrx := fun hf => (frPoll_next ht).rx_of_pending hf (hs.pending hf).1 (hs.pending hf).2
    exact ⟨by rw [ho.ses], by rw [ho.ses], by rw [ho.ses], by rw [ho.ses], by rw [ho.fps], hrx, fun _ => by rw [ho.ses],
      fun _ => ⟨ho.fl, ho.fps⟩⟩
  | unlockLast _ hb | unlockMore _ hb | erase _ hb | pageLast _ hb | pageMore _ hb =>
    exact ⟨rfl, rfl, rfl, rfl, rfl, fun _ => rfl, fun _ => rfl, fun hb' => by simp [hb] at hb'⟩
  | final hs' hb =>
    exact ⟨rfl, rfl, rfl, rfl, rfl, fun _ => rfl, fun hn => absurd hs' hn, fun hb' => by simp [hb] at hb'⟩
  | poll hs' | noFrame hs' | dispatch hs' | noBlock hs' | start hs' | wait hs' | finish hs' =>
    simp [hs', SeqState.programming] at hq

/-- Settles O40: the programming states' steps are yields, issues and S_FINAL, none of them a dispatch. -/
theorem programmingExcludesDispatch : Obligations.ProgrammingExcludesDispatch := by
  intro s t f hm he hs hq h
  obtain ⟨hv, -⟩ := step_next h
  have hmoved := sameMachine_moved s
  rw [step_controller hv hm he] at h
  obtain ⟨hwb, hwe, ha, hd, hp, hrx, hr, hi⟩ :=
    (controller_next h).noDispatch (frInv_of_rx_eq hmoved.rx hs) (hmoved.fps ▸ hq)
  rw [hmoved.ses] at hwb hwe ha hd hr
  rw [hmoved.fps] at hp hr hi
  rw [hmoved.rx] at hrx
  rw [hmoved.fl] at hi
  exact ⟨hwb, hwe, ha, hd, hp, hrx, hr, hi⟩

end Sys2Proof.Machine
end

section
/-! SUPPORT. The progress of programming (42_flash_sequencer.md R118): which bytes a step can change, how each issue and each successful
completion carries the progress on, and the family's obligations from these. -/

namespace Sys2Proof.Machine

/-! ## Which bytes a step can change -/

/-- The byte is out of programming's reach. -/
def State.spares (a : Nat) (s : State) : Prop := s.fps.seqState.programming = true → ¬s.inBlock a

/-- No operation in flight targets a byte outside the block (R58). -/
theorem State.SeqInv.inFlightAt_of_spares {s : State} {a : Nat} (hs : s.SeqInv) (ha : s.spares a) :
    s.inFlightAt a = false := by
  cases hi : s.fl.inFlight with
  | none => exact inFlightAt_none hi a
  | some op =>
    obtain ⟨hq, hop⟩ := hs.inFlight op hi
    rw [inFlightAt_some hi]
    exact decide_eq_false fun h => ha hq (hop a h.1 h.2)

/-- The operation in flight after a move: the one before it, none, or one issued on the block. -/
inductive InFlightOrigin (s t : State) : Prop where
  | kept (h : t.fl.inFlight = s.fl.inFlight)
  | idle (h : t.fl.inFlight = none)
  | issued (op : FlashOp) (hq : s.fps.seqState.programming = true) (hop : s.targetsBlock op)
      (h : t.fl.inFlight = some op)

theorem ControllerStep.inFlightOrigin {s t : State} (h : ControllerStep s t) (hv : s.cfg.valid = true) (hs : s.SeqInv) :
    InFlightOrigin s t := by
  cases h with
  | poll _ u hu => exact .kept (congrArg FlashCtl.inFlight (onlyReceiver_frPoll hu).fl)
  | busy _ _ _ ht => exact .kept (congrArg _ (onlyReceiver_frPoll ht).fl)
  | dispatch _ _ u hu => exact .kept (congrArg FlashCtl.inFlight hu.fl)
  | unlockLast hq | unlockMore hq => exact .issued _ (by rw [hq]; rfl) (targetsBlock_unlock _ s) rfl
  | erase hq => exact .issued _ (by rw [hq]; rfl) (targetsBlock_erase s) rfl
  | pageLast hq | pageMore hq => exact .issued _ (by rw [hq]; rfl) (hs.targetsBlock_page hv hq) rfl
  | noFrame | noBlock | start | final | wait | finish => exact .kept rfl

theorem AgentStep.inFlightOrigin {m : Move} {s t : State} (h : AgentStep s m t) : InFlightOrigin s t := by
  cases h with
  | flashDone => exact .idle rfl
  | controller | hostByte | timerExpire | flashIdle | linkSent | linkIdle | launch | launchDisabled => exact .kept rfl

theorem step_inFlightOrigin {s t : State} (h : step s = .next t) (hs : s.SeqInv) : InFlightOrigin s.moved t := by
  obtain ⟨hv, hstep⟩ := step_next h
  cases hstep with
  | controller _ _ _ _ ht => exact ht.inFlightOrigin ((sameMachine_moved s).cfg ▸ hv) (seqInv_moved hs)
  | runOver => exact .kept rfl
  | agent => exact (agentMove_step s.nextMove s.moved).inFlightOrigin

theorem InFlightOrigin.inFlightAt_of_spares {s t : State} {a : Nat} (h : InFlightOrigin s t) (hc : t.cfg = s.cfg)
    (hs : s.SeqInv) (ha : s.spares a) : t.inFlightAt a = false := by
  cases h with
  | kept h =>
    have hbefore := hs.inFlightAt_of_spares ha
    rwa [State.inFlightAt, h, hc]
  | idle h => exact inFlightAt_none h a
  | issued op hq hop h =>
    rw [inFlightAt_some h, hc]
    exact decide_eq_false fun hin => ha hq (hop a hin.1 hin.2)

/-- An operation applied writes its target's cells only. -/
theorem ArrayOrigin.read_of_spares {s t : State} {a : Nat} (h : ArrayOrigin s t) (hm : s.MemInv) (hs : s.SeqInv)
    (ha : s.spares a) : t.fl.cells.read a = s.fl.cells.read a := by
  cases h with
  | kept hc => rw [hc]
  | launched hc => rw [hc]
  | applied op hi hap =>
    obtain ⟨bs, hlen, hc⟩ := hap.cells
    have hout := of_decide_eq_false ((inFlightAt_some hi a).symm.trans (hs.inFlightAt_of_spares ha))
    rw [hc]
    exact Memory.read_store_outside _ hm.cells (by omega)

theorem spares_moved {s : State} {a : Nat} (h : s.spares a) : s.moved.spares a := by
  have hm := sameMachine_moved s
  unfold State.spares State.inBlock
  rwa [hm.fps, hm.cfg]

/-- A byte out of programming's reach is settled before and after a step, and its cell stays. -/
theorem flashByte_step_of_spares {s t : State} {a : Nat} (h : step s = .next t) (hs : s.SeqInv) (hm : s.MemInv)
    (ha : s.spares a) : t.flashByte a = s.flashByte a := by
  have hsame := sameMachine_moved s
  have hread := (step_arrayOrigin h).read_of_spares (memInv_moved hm) (seqInv_moved hs) (spares_moved ha)
  have hafter := (step_inFlightOrigin h hs).inFlightAt_of_spares (step_cfg_moved h) (seqInv_moved hs) (spares_moved ha)
  rw [hsame.fl] at hread
  exact flashByte_congr_settled ((step_cfg_moved h).trans hsame.cfg) hread (hs.inFlightAt_of_spares ha) hafter

/-- The block being programmed never reaches into the bootloader (R109). -/
theorem State.SeqInv.spares_bootloader {s : State} {a : Nat} (hs : s.SeqInv)
    (ha : a < s.cfg.flashBase + s.cfg.bootSize) : s.spares a := fun hq hin => by
  obtain ⟨-, -, hboot, -⟩ := hs.programming hq
  exact absurd hin.1 (by omega)

/-- Settles O57: such a byte is targeted by no operation, in flight or issued, and the bootloader lies outside the block. -/
theorem onlyTheBlockBeingProgrammedChanges : Obligations.OnlyTheBlockBeingProgrammedChanges := fun _ _ _ hs hm h =>
  ⟨flashByte_step_of_spares h hs hm, fun ha => flashByte_step_of_spares h hs hm (hs.spares_bootloader ha)⟩

/-! ## How progress is shown -/

theorem ne_of_not_programming {q q' : SeqState} (hq : q.programming = false) (hq' : q'.programming = true) : q ≠ q' :=
  fun h => by simp [h, hq'] at hq

/-- Outside the programming states nothing is claimed, and nothing is in flight. -/
theorem progress_of_not_programming {s : State} (hs : s.SeqInv) (hq : s.fps.seqState.programming = false) :
    s.Progress := by
  have hi := hs.inFlight_none hq
  have hunlock := ne_of_not_programming hq (q' := .unlock) rfl
  have herase := ne_of_not_programming hq (q' := .erase) rfl
  have hpage := ne_of_not_programming hq (q' := .page) rfl
  have hfinal := ne_of_not_programming hq (q' := .final) rfl
  constructor <;> simp [hunlock, herase, hpage, hfinal, hi]

/-- The unlocks S_UNLOCK has come to: `rgn` lies between the block's regions, those before it are opened. -/
structure State.Unlocking (s : State) : Prop where
  first : s.cfg.regionOf s.fps.progAddr.toNat ≤ s.fps.rgn.toNat
  notPast : s.fps.rgn.toNat ≤ s.fps.rgnLast.toNat
  last : s.fps.rgnLast.toNat = s.cfg.regionOf (s.fps.progAddr.toNat + s.cfg.ebSize - 1)
  opened : ∀ r, s.cfg.regionOf s.fps.progAddr.toNat ≤ r → r < s.fps.rgn.toNat → s.regionOpened r

theorem State.Progress.unlocks {s : State} (h : s.Progress) (hq : s.fps.seqState = .unlock) : s.Unlocking := by
  obtain ⟨hfirst, hpast, hlast, hopened⟩ := h.unlocking hq
  exact ⟨hfirst, hpast, hlast, hopened⟩

/-- Every region of the block is opened. -/
def State.blockOpened (s : State) : Prop :=
  ∀ i < s.cfg.ebSize, s.regionOpened (s.cfg.regionOf (s.fps.progAddr.toNat + i))

/-- Progress in S_UNLOCK and S_ERASE: nothing but an unlock is in flight. -/
theorem progress_of_unlocks {s : State} (hop : s.fl.inFlight = none ∨ ∃ r, s.fl.inFlight = some (.unlock r))
    (h : (s.fps.seqState = .unlock ∧ s.Unlocking) ∨ (s.fps.seqState = .erase ∧ s.blockOpened)) : s.Progress := by
  have herase : ∀ w, s.fl.inFlight ≠ some (.erase w) := fun w hw => by rcases hop with h | ⟨r, h⟩ <;> simp [h] at hw
  have hwrite : ∀ w d, s.fl.inFlight ≠ some (.pageWrite w d) := fun w d hw => by
    rcases hop with h | ⟨r, h⟩ <;> simp [h] at hw
  rcases h with ⟨hq, hfirst, hpast, hlast, hopened⟩ | ⟨hq, hopened⟩
  · constructor <;> simp [hq, herase, hwrite]
    exact ⟨hfirst, hpast, hlast, hopened⟩
  · constructor <;> simp [hq, herase, hwrite]
    exact hopened

/-- Every region of the block is unlocked. -/
def State.blockUnlocked (s : State) : Prop :=
  ∀ i < s.cfg.ebSize, s.fl.locked.getD (s.cfg.regionOf (s.fps.progAddr.toNat + i)) false = false

/-- The bytes of the pages from `pg` on are freshly erased, or the block's erase is in flight. -/
def State.restErased (s : State) : Prop :=
  ∀ i, s.fps.pg.toNat * s.cfg.pageSize ≤ i → i < s.cfg.ebSize →
    s.fps.progAddr.toNat + i ∈ s.fl.erased ∨ s.fl.inFlight = some (.erase s.fps.progAddr)

/-- The bytes of the pages below `pg` read as staged, but for a page in flight. -/
def State.pagesProgrammed (s : State) : Prop :=
  ∀ i < s.fps.pg.toNat * s.cfg.pageSize, s.inFlightAt (s.fps.progAddr.toNat + i) = false →
    some (s.flashByte (s.fps.progAddr.toNat + i)) = s.ses.stagedData[i]?

/-- The data of page `p` of the staged block (R112). -/
def State.stagedPage (p : Nat) (s : State) : List Byte :=
  (s.ses.stagedData.drop (p * s.cfg.pageSize)).take s.cfg.pageSize

/-- The page write is the last one issued: page `p`, still freshly erased. -/
structure State.LastPage (w : Word) (d : List Byte) (p : Nat) (s : State) : Prop where
  pg : s.fps.pg.toNat = p + 1
  addr : w.toNat = s.fps.progAddr.toNat + p * s.cfg.pageSize
  data : d = s.stagedPage p
  erased : ∀ i < s.cfg.pageSize, w.toNat + i ∈ s.fl.erased

/-- What may be in flight from S_PAGE on. -/
inductive State.PageOp (s : State) : Prop where
  | idle (hi : s.fl.inFlight = none)
  | erase (hi : s.fl.inFlight = some (.erase s.fps.progAddr)) (hq : s.fps.seqState = .page) (hpg : s.fps.pg = 0)
  | write (w : Word) (d : List Byte) (p : Nat) (hi : s.fl.inFlight = some (.pageWrite w d)) (h : s.LastPage w d p)

/-- Progress in S_PAGE and S_FINAL. -/
theorem progress_of_pages {s : State} (hq : s.fps.seqState = .page ∨ s.fps.seqState = .final) (hu : s.blockUnlocked)
    (he : s.fps.seqState = .page → s.restErased) (hp : s.pagesProgrammed) (hop : s.PageOp) : s.Progress where
  unlocking h := by simp [h] at hq
  opened h := by simp [h] at hq
  unlocked _ := hu
  erased := he
  programmed _ := hp
  unlockInFlight w hw := by
    cases hop with
    | idle hi | erase hi | write _ _ _ hi => simp [hi] at hw
  eraseInFlight w hw := by
    cases hop with
    | idle hi | write _ _ _ hi => simp [hi] at hw
    | erase hi hq' hpg =>
      obtain rfl : s.fps.progAddr = w := by simpa [hi] using hw
      exact ⟨hq', hpg, rfl⟩
  writeInFlight w d hw := by
    cases hop with
    | idle hi | erase hi => simp [hi] at hw
    | write w' d' p hi h =>
      obtain ⟨rfl, rfl⟩ : w' = w ∧ d' = d := by simpa [hi] using hw
      exact ⟨hq, p, h.pg, h.addr, h.data, h.erased⟩

theorem State.Progress.lastPage {s : State} {w : Word} {d : List Byte} (h : s.Progress)
    (hi : s.fl.inFlight = some (.pageWrite w d)) :
    (s.fps.seqState = .page ∨ s.fps.seqState = .final) ∧ ∃ p, s.LastPage w d p := by
  obtain ⟨hq, p, hpg, haddr, hdata, herased⟩ := h.writeInFlight w d hi
  exact ⟨hq, p, hpg, haddr, hdata, herased⟩

/-- Progress speaks of the sequencer, the session and the flash controller. -/
theorem progress_congr {s t : State} (hc : t.cfg = s.cfg) (hf : t.fps = s.fps) (hse : t.ses = s.ses) (hfl : t.fl = s.fl)
    (h : s.Progress) : t.Progress := by
  have hat : ∀ a, t.inFlightAt a = s.inFlightAt a := fun a => by rw [State.inFlightAt, hfl, hc]; rfl
  have hbyte : ∀ a, s.inFlightAt a = false → t.flashByte a = s.flashByte a := fun a ha =>
    flashByte_congr_settled hc (by rw [hfl]) ha ((hat a).trans ha)
  obtain ⟨hun, hop, hlock, her, hprog, hu, he, hw⟩ := h
  constructor <;> simp only [State.regionOpened, hc, hf, hse, hfl, hat]
  · exact hun
  · exact hop
  · exact hlock
  · exact her
  · exact fun hq i hlt ha => hbyte _ ha ▸ hprog hq i hlt ha
  · exact hu
  · exact he
  · exact hw

theorem progress_moved {s : State} (h : s.Progress) : s.moved.Progress := by
  have hm := sameMachine_moved s
  exact progress_congr hm.cfg hm.fps hm.ses hm.fl h

/-! ## S_CHECK and the unlocks -/

theorem regionOf_mono (c : Config) {a b : Nat} (h : a ≤ b) : c.regionOf a ≤ c.regionOf b :=
  Nat.div_le_div_right (Nat.sub_le_sub_right h _)

/-- A byte of the block lies in a region from the block's first to its last. -/
theorem regionOf_block {c : Config} {a i : Nat} (hi : i < c.ebSize) :
    c.regionOf a ≤ c.regionOf (a + i) ∧ c.regionOf (a + i) ≤ c.regionOf (a + c.ebSize - 1) :=
  ⟨regionOf_mono c (by omega), regionOf_mono c (by omega)⟩

/-- With nothing in flight, opened is unlocked. -/
theorem State.regionOpened.unlocked {s : State} {r : Nat} (h : s.regionOpened r) (hi : s.fl.inFlight = none) :
    s.fl.locked.getD r false = false := by
  rcases h with h | ⟨w, hw, -⟩
  · exact h
  · simp [hi] at hw

theorem progress_started {s : State} (hv : s.cfg.valid = true) (ho : ¬s.stagedOutside) (hi : s.fl.inFlight = none) :
    s.started.Progress := by
  obtain ⟨hfirst, hlast⟩ := started_regions hv ho
  obtain ⟨-, hblock, -⟩ := geometry_of_valid hv
  refine progress_of_unlocks (.inl hi) (.inl ⟨rfl, hfirst.ge, ?_, hlast, fun r hlo hhi => ?_⟩)
  · rw [hfirst, hlast]
    exact regionOf_mono _ (by omega)
  · rw [hfirst] at hhi
    exact absurd hlo (not_le.mpr hhi)

/-- With its unlock issued, `rgn` is opened too. -/
theorem Issued.regionOpened {s t : State} {r : Nat} (h : Issued (.unlock s.fps.rgn) s t) (hs : s.Unlocking)
    (hlo : s.cfg.regionOf s.fps.progAddr.toNat ≤ r) (hhi : r ≤ s.fps.rgn.toNat) : t.regionOpened r := by
  rcases hhi.lt_or_eq with hlt | rfl
  · have hunlocked := (hs.opened r hlo hlt).unlocked h.idle
    exact .inl (by rw [h.fl]; exact hunlocked)
  · exact .inr ⟨s.fps.rgn, h.inFlight, rfl⟩

theorem progress_unlock_more {s t : State} (h : Issued (.unlock s.fps.rgn) s t) (hs : s.Unlocking)
    (hne : s.fps.rgn ≠ s.fps.rgnLast) (hf : t.fps = { s.fps with rgn := s.fps.rgn + 1 }) (hq : s.fps.seqState = .unlock) :
    t.Progress := by
  have hpast := hs.notPast
  have hsucc : (s.fps.rgn + 1).toNat = s.fps.rgn.toNat + 1 := by bv_omega
  have hlt : s.fps.rgn.toNat < s.fps.rgnLast.toNat := hpast.lt_of_ne fun e => hne (BitVec.eq_of_toNat_eq e)
  refine progress_of_unlocks (.inr ⟨_, h.inFlight⟩) (.inl ⟨by rw [hf]; exact hq, ?_⟩)
  constructor <;> simp only [hf, h.cfg, hsucc]
  · exact Nat.le_succ_of_le hs.first
  · exact hlt
  · exact hs.last
  · exact fun r hlo hhi => h.regionOpened hs hlo (Nat.le_of_lt_succ hhi)

theorem progress_unlock_last {s t : State} (h : Issued (.unlock s.fps.rgn) s t) (hs : s.Unlocking)
    (he : s.fps.rgn = s.fps.rgnLast) (hq : t.fps.seqState = .erase) : t.Progress := by
  refine progress_of_unlocks (.inr ⟨_, h.inFlight⟩) (.inr ⟨hq, fun i hi => ?_⟩)
  rw [h.cfg] at hi
  rw [h.cfg, h.progAddr]
  obtain ⟨hlo, hhi⟩ := regionOf_block (a := s.fps.progAddr.toNat) hi
  exact h.regionOpened hs hlo (by rw [he, hs.last]; exact hhi)

/-! ## The erase and the pages -/

theorem progress_erase_issued {s t : State} (h : Issued (.erase s.fps.progAddr) s t) (hs : s.blockOpened)
    (hpg : t.fps.pg = 0) (hq : t.fps.seqState = .page) : t.Progress := by
  have hin : t.fl.inFlight = some (.erase t.fps.progAddr) := by rw [h.inFlight, h.progAddr]
  refine progress_of_pages (.inl hq) (fun i hi => ?_) (fun _ _ _ _ => .inr hin) (fun i hi => ?_) (.erase hin hq hpg)
  · rw [h.cfg] at hi
    rw [h.cfg, h.progAddr, h.fl]
    exact (hs i hi).unlocked h.idle
  · simp [hpg] at hi

theorem length_stagedPage {s : State} {p : Nat} (hv : s.cfg.valid = true) (hb : s.BufInv)
    (hp : p < s.cfg.pagesPerBlock) : (s.stagedPage p).length = s.cfg.pageSize := by
  have hend := page_end_le_ebSize hv hp
  have hlen := hb.stagedData
  rw [State.stagedPage, List.length_take, List.length_drop]
  omega

theorem getElem?_stagedPage {s : State} {p j : Nat} (hj : j < s.cfg.pageSize) :
    (s.stagedPage p)[j]? = s.ses.stagedData[p * s.cfg.pageSize + j]? := by
  rw [State.stagedPage, List.getElem?_take_of_lt hj, List.getElem?_drop]

/-- Page `pg` issued: it is erased and now in flight, and those below it stay as they read. -/
theorem progress_page_issued {s t : State} (h : Issued (.pageWrite s.pageAddr s.pageData) s t) (hv : s.cfg.valid = true)
    (hs : s.SeqInv) (hb : s.BufInv) (hp : s.Progress) (hq : s.fps.seqState = .page) (hpg : t.fps.pg = s.fps.pg + 1)
    (hq' : t.fps.seqState = .page ∨ t.fps.seqState = .final) : t.Progress := by
  have hlt := hs.page hq
  obtain ⟨-, -, hallowed⟩ := hs.programming (by rw [hq]; rfl)
  have haddr := pageAddr_toNat hv hallowed hlt
  have hlen : s.pageData.length = s.cfg.pageSize := length_stagedPage hv hb hlt
  have hsucc : t.fps.pg.toNat = s.fps.pg.toNat + 1 := by rw [hpg]; exact pg_succ_toNat hv hlt
  have hend := page_end_le_ebSize hv hlt
  have herased : ∀ i, s.fps.pg.toNat * s.cfg.pageSize ≤ i → i < s.cfg.ebSize → s.fps.progAddr.toNat + i ∈ s.fl.erased :=
    fun i hlo hhi => (hp.erased hq i hlo hhi).resolve_right (by simp [h.idle])
  refine progress_of_pages hq' ?_ (fun _ => ?_) ?_ (.write _ _ s.fps.pg.toNat h.inFlight ⟨hsucc, ?_, ?_, ?_⟩)
  · unfold State.blockUnlocked
    rw [h.cfg, h.progAddr, h.fl]
    exact hp.unlocked (.inl hq)
  · unfold State.restErased
    rw [h.cfg, h.progAddr, h.fl, hsucc, Nat.add_one_mul]
    exact fun i hlo hhi => .inl (herased i (by omega) hhi)
  · unfold State.pagesProgrammed
    rw [h.cfg, h.progAddr, h.ses, hsucc, Nat.add_one_mul]
    intro i hi hsettled
    rw [h.inFlightAt] at hsettled
    have hout := of_decide_eq_false hsettled
    rw [h.flashByte_outside hout]
    simp only [FlashOp.target, haddr, hlen] at hout
    exact hp.programmed (.inl hq) i (by omega) (inFlightAt_none h.idle _)
  · rw [h.cfg, h.progAddr, haddr]
  · rw [State.stagedPage, h.cfg, h.ses]
    rfl
  · rw [h.cfg, h.fl, haddr]
    exact fun i hi => by rw [Nat.add_assoc]; exact herased _ (by omega) (by omega)

/-! ## The controller's steps -/

theorem ControllerStep.progress {s t : State} (h : ControllerStep s t) (hv : s.cfg.valid = true) (hs : s.SeqInv)
    (hb : s.BufInv) (hp : s.Progress) : t.Progress := by
  have hs' := h.seqInv hv hs
  cases h with
  | poll | noFrame | noBlock | final | finish => exact progress_of_not_programming hs' rfl
  | dispatch =>
    refine progress_of_not_programming hs' ?_
    rw [goto_fps_seqState]
    split <;> rfl
  | start hq hr hin hout =>
    have ho : ¬s.stagedOutside := fun h => by rcases h with h | h <;> omega
    exact progress_started hv ho (hs.inFlight_none (by rw [hq]; rfl))
  | busy _ _ _ ht =>
    have ho := onlyReceiver_frPoll ht
    exact progress_congr ho.cfg ho.fps ho.ses ho.fl hp
  | unlockLast hq hi hr => exact progress_unlock_last ⟨hi, rfl, rfl, rfl, rfl⟩ (hp.unlocks hq) hr rfl
  | unlockMore hq hi hr => exact progress_unlock_more ⟨hi, rfl, rfl, rfl, rfl⟩ (hp.unlocks hq) hr rfl hq
  | erase hq hi => exact progress_erase_issued ⟨hi, rfl, rfl, rfl, rfl⟩ (hp.opened hq) rfl rfl
  | pageLast hq hi => exact progress_page_issued ⟨hi, rfl, rfl, rfl, rfl⟩ hv hs hb hp hq rfl (.inr rfl)
  | pageMore hq hi => exact progress_page_issued ⟨hi, rfl, rfl, rfl, rfl⟩ hv hs hb hp hq rfl (.inl hq)
  | wait => exact hp

/-! ## Successful completions -/

/-- A region opened by the unlock that completes is unlocked. -/
theorem State.regionOpened.unlock_completes {s : State} {r : Word} {k : Nat} (h : s.regionOpened k)
    (hi : s.fl.inFlight = some (.unlock r)) : (s.fl.locked.set r.toNat false).getD k false = false := by
  rcases h with h | ⟨w, hw, rfl⟩
  · exact getD_set_false (fun _ => rfl) h
  · obtain rfl : r = w := by simpa [hi] using hw
    exact getD_set_self fun _ => rfl

theorem progress_unlock_completes {s : State} {r : Word} {n c : Nat} (hi : s.fl.inFlight = some (.unlock r))
    (hp : s.Progress) : (s.completed n (applyUnlock c true r s.fl)).Progress := by
  refine progress_of_unlocks (.inl rfl) ?_
  rcases hp.unlockInFlight r hi with hq | hq
  · obtain ⟨hfirst, hpast, hlast, hopened⟩ := hp.unlocks hq
    exact .inl ⟨hq, hfirst, hpast, hlast, fun k hlo hhi => .inl ((hopened k hlo hhi).unlock_completes hi)⟩
  · exact .inr ⟨hq, fun i hlt => .inl ((hp.opened hq i hlt).unlock_completes hi)⟩

theorem progress_erase_completes {s : State} {w : Word} {n c : Nat} (hi : s.fl.inFlight = some (.erase w))
    (hp : s.Progress) : (s.completed n (applyErase s.cfg c true w s.fl)).Progress := by
  obtain ⟨hq, hpg, rfl⟩ := hp.eraseInFlight w hi
  have hu := hp.unlocked (.inl hq)
  rw [applyErase_success (targetLocked_eq_false_iff.mpr hu)]
  refine progress_of_pages (.inl hq) hu (fun _ i _ hlt => .inl (mem_insertRange.mpr (.inl ?_))) (fun i hlt => ?_) (.idle rfl)
  · constructor
    · exact Nat.le_add_right ..
    · exact Nat.add_lt_add_left hlt _
  · rw [State.completed, State_begin_fps, hpg] at hlt
    simp at hlt

/-- In S_PAGE and S_FINAL the page index is at most the page count (R122). -/
theorem State.SeqInv.pg_le {s : State} (hs : s.SeqInv) (hq : s.fps.seqState = .page ∨ s.fps.seqState = .final) :
    s.fps.pg.toNat ≤ s.cfg.pagesPerBlock :=
  hq.elim (fun h => (hs.page h).le) fun h => (hs.final h).le

theorem inArray_of_blockAllowed {s : State} {i : Nat} (hb : s.blockAllowed) (hi : i < s.cfg.ebSize) :
    s.cfg.inArray (s.fps.progAddr.toNat + i) = true := by
  obtain ⟨hboot, hend⟩ := hb
  exact decide_eq_true ⟨by omega, by omega⟩

/-- The flash controller after the page's data is written (20_memory.md R50). -/
def State.pageWritten (w : Word) (d : List Byte) (s : State) : FlashCtl :=
  { s.fl with
    cells := s.fl.cells.store s.cfg w.toNat d
    erased := removeRange s.fl.erased w.toNat d.length }

section
variable {s : State} {w : Word} {d : List Byte} {p : Nat}

theorem State.LastPage.lt_pagesPerBlock (h : s.LastPage w d p) (hs : s.SeqInv)
    (hq : s.fps.seqState = .page ∨ s.fps.seqState = .final) : p < s.cfg.pagesPerBlock := by
  have hle := hs.pg_le hq
  rw [h.pg] at hle
  exact hle

theorem State.LastPage.length (h : s.LastPage w d p) (hv : s.cfg.valid = true) (hb : s.BufInv)
    (hp : p < s.cfg.pagesPerBlock) : d.length = s.cfg.pageSize := by
  rw [h.data]
  exact length_stagedPage hv hb hp

/-- The last page is unlocked and freshly erased, so a successful completion writes its data. -/
theorem State.LastPage.step_completes (h : s.LastPage w d p) {n : Nat} (hv : s.cfg.valid = true)
    (hn : s.nextMove = .flashDone true n) (hi : s.fl.inFlight = some (.pageWrite w d)) (hp : p < s.cfg.pagesPerBlock)
    (hlen : d.length = s.cfg.pageSize) (hu : s.blockUnlocked) : step s = .next (s.completed n (s.pageWritten w d)) := by
  have hend := page_end_le_ebSize hv hp
  have hunlocked : targetLocked s.cfg s.fl.locked w.toNat d.length = false := by
    rw [targetLocked_eq_false_iff, hlen, h.addr]
    exact fun i hi => by rw [Nat.add_assoc]; exact hu _ (by omega)
  have hmarked : containsRange s.fl.erased w.toNat d.length = true := by
    rw [containsRange_iff, hlen]
    exact h.erased
  rw [step_pageWrite_completes hv hn hi, applyPageWrite_success hunlocked hmarked]
  rfl

/-- The pages after the last one written keep their marks. -/
theorem State.LastPage.restErased_completed (h : s.LastPage w d p) (n : Nat)
    (hi : s.fl.inFlight = some (.pageWrite w d)) (hlen : d.length = s.cfg.pageSize) (he : s.restErased) :
    (s.completed n (s.pageWritten w d)).restErased := by
  intro i hlo hhi
  have hbefore := (he i hlo hhi).resolve_right (by simp [hi])
  change s.fps.pg.toNat * s.cfg.pageSize ≤ i at hlo
  rw [h.pg, Nat.add_one_mul] at hlo
  refine .inl (mem_removeRange.mpr ⟨hbefore, fun hin => ?_⟩)
  have hin' : s.fps.progAddr.toNat + i < w.toNat + d.length := hin.2
  rw [h.addr, hlen] at hin'
  omega

/-- The pages below the last one stay as they read, and it takes its data. -/
theorem State.LastPage.pagesProgrammed_completed (h : s.LastPage w d p) {n : Nat} (hv : s.cfg.valid = true)
    (hs : s.Inv) (hi : s.fl.inFlight = some (.pageWrite w d)) (hn : s.nextMove = .flashDone true n)
    (hp : p < s.cfg.pagesPerBlock) (hlen : d.length = s.cfg.pageSize) (hallowed : s.blockAllowed)
    (hprog : s.pagesProgrammed) (ht : step s = .next (s.completed n (s.pageWritten w d))) :
    (s.completed n (s.pageWritten w d)).pagesProgrammed := by
  intro i hlt _
  have haddr := h.addr
  have hend := page_end_le_ebSize hv hp
  change i < s.fps.pg.toNat * s.cfg.pageSize at hlt
  change some ((s.completed n (s.pageWritten w d)).flashByte (s.fps.progAddr.toNat + i)) = s.ses.stagedData[i]?
  by_cases hbelow : i < p * s.cfg.pageSize
  · have hout : ¬(w.toNat ≤ s.fps.progAddr.toNat + i ∧ s.fps.progAddr.toNat + i < w.toNat + d.length) := by omega
    rw [flashByte_step_flashDone_outside hv hs.mem hn hi ht hout]
    exact hprog i hlt (by rw [inFlightAt_some hi]; exact decide_eq_false hout)
  · rw [h.pg, Nat.add_one_mul] at hlt
    obtain ⟨j, rfl⟩ := Nat.exists_eq_add_of_le (not_lt.mp hbelow)
    have hj : j < d.length := by omega
    have hbyte : w.toNat + j = s.fps.progAddr.toNat + (p * s.cfg.pageSize + j) := by omega
    have hin : s.cfg.inArray (w.toNat + j) = true := hbyte ▸ inArray_of_blockAllowed hallowed (by omega)
    rw [← hbyte, flashByte_completed_inside hs.mem rfl hj hin, ← List.getElem?_eq_getElem hj, h.data,
      getElem?_stagedPage (hlen ▸ hj)]

end

/-- A page written: the block stays unlocked, the pages after it erased, those up to it programmed. -/
theorem progress_pageWrite_completes {s t : State} {w : Word} {d : List Byte} {n : Nat} (hv : s.cfg.valid = true)
    (hn : s.nextMove = .flashDone true n) (hi : s.fl.inFlight = some (.pageWrite w d)) (ht : step s = .next t)
    (hs : s.Inv) (hp : s.Progress) : t.Progress := by
  obtain ⟨hq, p, hlast⟩ := hp.lastPage hi
  have hlt := hlast.lt_pagesPerBlock hs.seq hq
  have hlen := hlast.length hv hs.buf hlt
  have hu : s.blockUnlocked := hp.unlocked hq
  obtain ⟨-, -, hallowed⟩ := hs.seq.programming (by rcases hq with hq | hq <;> rw [hq] <;> rfl)
  have hstep := hlast.step_completes hv hn hi hlt hlen hu
  cases hstep.symm.trans ht
  exact progress_of_pages hq hu (fun hq' => hlast.restErased_completed n hi hlen (hp.erased hq'))
    (hlast.pagesProgrammed_completed hv hs hi hn hlt hlen hallowed (hp.programmed hq) hstep) (.idle rfl)

/-- With nothing in flight a completion leaves the state as the step began it (log 3). -/
theorem step_flashDone_idle {s : State} {ok : Bool} {n : Nat} (hv : s.cfg.valid = true)
    (hn : s.nextMove = .flashDone ok n) (hi : s.fl.inFlight = none) : step s = .next s.begin := by
  rw [step_flashDone hv hn]
  simp only [flashComplete, State_begin_fl, hi]

theorem progress_completion {s t : State} {n : Nat} (hn : s.nextMove = .flashDone true n) (h : step s = .next t)
    (hs : s.Inv) (hp : s.Progress) : t.Progress := by
  obtain ⟨hv, -⟩ := step_next h
  cases hi : s.fl.inFlight with
  | none =>
    cases (step_flashDone_idle hv hn hi).symm.trans h
    exact progress_congr (s := s) rfl rfl rfl rfl hp
  | some op =>
    cases op with
    | unlock r =>
      cases (step_unlock_completes hv hn hi).symm.trans h
      exact progress_unlock_completes hi hp
    | erase w =>
      cases (step_erase_completes hv hn hi).symm.trans h
      exact progress_erase_completes hi hp
    | pageWrite w d => exact progress_pageWrite_completes hv hn hi h hs hp

/-! ## Every step but a failed completion -/

theorem AgentStep.progress {m : Move} {s t : State} (h : AgentStep s m t) (hm : ∀ ok n, m ≠ .flashDone ok n)
    (hs : s.SeqInv) (hp : s.Progress) : t.Progress := by
  have hs' := h.seqInv hs
  cases h with
  | flashDone ok n | flashIdle ok n => exact absurd rfl (hm ok n)
  | launch => exact progress_of_not_programming hs' rfl
  | hostByte | timerExpire | linkSent => exact progress_congr (s := s) rfl rfl rfl rfl hp
  | controller | linkIdle | launchDisabled => exact hp

theorem progress_step {s t : State} (h : step s = .next t) (hok : ∀ n, s.nextMove ≠ .flashDone false n) (hs : s.Inv)
    (hp : s.Progress) : t.Progress := by
  by_cases hdone : ∃ ok n, s.nextMove = .flashDone ok n
  · obtain ⟨ok, n, hn⟩ := hdone
    cases ok with
    | false => exact absurd hn (hok n)
    | true => exact progress_completion hn h hs hp
  · obtain ⟨hv, hstep⟩ := step_next h
    cases hstep with
    | controller _ _ _ _ ht =>
      exact ht.progress ((sameMachine_moved s).cfg ▸ hv) (seqInv_moved hs.seq) (bufInv_moved hs.buf) (progress_moved hp)
    | runOver => exact progress_moved hp
    | agent =>
      exact (agentMove_step s.nextMove s.moved).progress (fun ok n hn => hdone ⟨ok, n, hn⟩) (seqInv_moved hs.seq)
        (progress_moved hp)

/-- In S_FINAL with nothing in flight, all pages are programmed. -/
theorem State.Progress.block_programmed {s : State} {i : Nat} (hp : s.Progress) (hv : s.cfg.valid = true) (hs : s.SeqInv)
    (hq : s.fps.seqState = .final) (hi : s.fl.inFlight = none) (hlt : i < s.cfg.ebSize) :
    some (s.flashByte (s.ses.stagedAddr.toNat + i)) = s.ses.stagedData[i]? := by
  obtain ⟨-, haddr, -⟩ := hs.programming (by rw [hq]; rfl)
  rw [← haddr]
  refine hp.programmed (.inr hq) i ?_ (inFlightAt_none hi _)
  rw [hs.final hq, pagesPerBlock_mul_pageSize hv]
  exact hlt

/-- Settles O60: progress starts empty outside programming, each issue and each successful completion carries it on, and at the
page count it covers the block. -/
theorem stepKeepsProgress : Obligations.StepKeepsProgress :=
  ⟨fun _ _ hs hp hok h => progress_step h hok hs hp, fun _ => progress_of_not_programming,
    fun _ hv hs hp hq hi _ => hp.block_programmed hv hs hq hi⟩

end Sys2Proof.Machine
end

section
/-! SUPPORT. The run of 95_test_vectors.md S7: on the schedule in which each operation succeeds before the controller's next step, each
pair of steps brings programming one operation further, until the staged block is in flash. -/

namespace Sys2Proof.Machine

/-! ## Rounds: a controller's step and a completion -/

theorem stepRun_succ_of_step {s t : State} (h : step s = .next t) (n : Nat) : stepRun (n + 1) s = stepRun n t := by
  simp only [stepRun, h]

theorem stepRun_add {m : Nat} {s t : State} (h : stepRun m s = .next t) (n : Nat) : stepRun (m + n) s = stepRun n t := by
  induction m generalizing s with
  | zero =>
    cases h
    rw [Nat.zero_add]
  | succ m ih =>
    cases hs : step s with
    | next u =>
      rw [stepRun_succ_of_step hs] at h
      rw [Nat.succ_add, stepRun_succ_of_step hs, ih h]
    | fault e => simp [stepRun, hs] at h
    | refused e => simp [stepRun, hs] at h

theorem inv_step {s t : State} (h : step s = .next t) (hs : s.Inv) : t.Inv :=
  ⟨frInv_step h hs.fr, winInv_step h hs.win, bufInv_step h hs.buf, memInv_step h hs.mem, seqInv_step h hs.seq⟩

/-- A run goes on under the schedule of S7 with `n` operations to come; nothing is in flight and the controller is to move. -/
structure State.Prompt (n : Nat) (s : State) : Prop where
  valid : s.cfg.valid = true
  inv : s.Inv
  progress : s.Progress
  running : s.ended = none
  idle : s.fl.inFlight = none
  sched : s.sched = promptSchedule n

/-- All but the flash controller and the model's own fields are as they were. -/
structure OnlyFlash (s t : State) : Prop where
  cfg : t.cfg = s.cfg
  rx : t.rx = s.rx
  fps : t.fps = s.fps
  ses : t.ses = s.ses
  link : t.link = s.link

theorem moved_sched (s : State) : s.moved.sched = s.sched.tail := by
  unfold State.moved
  split <;> rfl

theorem State.Prompt.nextMove {s : State} {n : Nat} (h : s.Prompt (n + 1)) : s.nextMove = .controller false := by
  simp only [State.nextMove, h.sched, promptSchedule]

theorem State.Prompt.step_eq {s : State} {n : Nat} (h : s.Prompt (n + 1)) : step s = exec s.moved.seqInstr s.moved :=
  step_controller h.valid h.nextMove h.running

/-- The flash controller's move of a round: it completes what the controller issued, or does nothing. -/
theorem flashComplete_onlyFlash (ok : Bool) (n : Nat) (s : State) :
    OnlyFlash s (flashComplete ok n s) ∧ (flashComplete ok n s).fl.inFlight = none ∧
      (flashComplete ok n s).ended = s.ended ∧ (flashComplete ok n s).sched = s.sched := by
  rcases flashComplete_cases ok n s with ⟨hi, e⟩ | ⟨op, fl', -, -, e⟩ <;> rw [e]
  · exact ⟨⟨rfl, rfl, rfl, rfl, rfl⟩, hi, rfl, rfl⟩
  · exact ⟨⟨rfl, rfl, rfl, rfl, rfl⟩, rfl, rfl, rfl⟩

/-- A round: after the controller's step to `u`, the completion. -/
theorem State.Prompt.round {s u : State} {n : Nat} (h : s.Prompt (n + 1)) (hu : step s = .next u)
    (hrunning : u.ended = none) (hsched : u.sched = s.sched.tail) :
    ∃ t, stepRun 2 s = .next t ∧ t.Prompt n ∧ OnlyFlash u t ∧ ∀ a, u.spares a → t.flashByte a = u.flashByte a := by
  rw [h.sched] at hsched
  have hmove : u.nextMove = .flashDone true 0 := by
    rw [State.nextMove, hsched]
    rfl
  have hinv := inv_step hu h.inv
  have hprogress := progress_step hu (fun m => by simp [h.nextMove]) h.inv h.progress
  have hv : u.cfg.valid = true := by
    rw [step_cfg_moved hu, (sameMachine_moved s).cfg]
    exact h.valid
  have ht := step_flashDone hv hmove
  obtain ⟨honly, hidle, hended, hsched'⟩ := flashComplete_onlyFlash true 0 u.begin
  refine ⟨_, (stepRun_succ_of_step hu 1).trans (stepRun_succ_of_step ht 0), ?_,
    ⟨honly.cfg, honly.rx, honly.fps, honly.ses, honly.link⟩, fun a => flashByte_step_of_spares ht hinv.seq hinv.mem⟩
  refine ⟨honly.cfg ▸ hv, inv_step ht hinv, progress_completion hmove ht hinv hprogress, hended.trans hrunning, hidle, ?_⟩
  rw [hsched', State_begin_sched, hsched]
  rfl

/-! ## How many rounds are left -/

/-- The controller's steps to come, S_FINAL's the last, in a programming state. -/
def State.roundsLeft (s : State) : Nat :=
  match s.fps.seqState with
  | .poll | .dispatch | .check | .txwait => 0
  | .unlock => s.fps.rgnLast.toNat - s.fps.rgn.toNat + s.cfg.pagesPerBlock + 3
  | .erase => s.cfg.pagesPerBlock + 2
  | .page => s.cfg.pagesPerBlock - s.fps.pg.toNat + 1
  | .final => 1

theorem roundsLeft_congr {s t : State} (hc : t.cfg = s.cfg) (hf : t.fps = s.fps) : t.roundsLeft = s.roundsLeft := by
  rw [State.roundsLeft, hc, hf]
  rfl

theorem roundsLeft_pos {s : State} (hq : s.fps.seqState.programming = true) : 0 < s.roundsLeft := by
  unfold State.roundsLeft
  cases h : s.fps.seqState with
  | poll | dispatch | check | txwait => simp [h, SeqState.programming] at hq
  | unlock | erase | page | final => simp

theorem roundsLeft_final {s : State} (hq : s.fps.seqState = .final) : s.roundsLeft = 1 := by
  simp [State.roundsLeft, hq]

/-- A programming step that goes on: one round fewer is left, the block, the session, the receiver and the link stay. -/
structure GoesOn (s u : State) : Prop where
  programming : u.fps.seqState.programming = true
  rounds : s.roundsLeft = u.roundsLeft + 1
  cfg : u.cfg = s.cfg
  rx : u.rx = s.rx
  progAddr : u.fps.progAddr = s.fps.progAddr
  ses : u.ses = s.ses
  link : u.link = s.link
  ended : u.ended = s.ended
  sched : u.sched = s.sched

/-- With nothing in flight the controller issues the next operation, until S_FINAL. -/
theorem exec_goesOn {s : State} (hv : s.cfg.valid = true) (hs : s.SeqInv) (hp : s.Progress)
    (hq : s.fps.seqState.programming = true) (hf : s.fps.seqState ≠ .final) (hi : s.fl.inFlight = none) :
    ∃ u, exec s.seqInstr s = .next u ∧ GoesOn s u := by
  cases hst : s.fps.seqState with
  | poll | dispatch | check | txwait => simp [hst, SeqState.programming] at hq
  | final => exact absurd hst hf
  | unlock =>
    rw [seqInstr_unlock hst]
    by_cases hr : s.fps.rgn = s.fps.rgnLast
    · refine ⟨_, exec_sUnlock_last hi hr, rfl, ?_, rfl, rfl, rfl, rfl, rfl, rfl, rfl⟩
      simp only [State.roundsLeft, hst, hr]
      omega
    · have hpast := (hp.unlocks hst).notPast
      have hlt : s.fps.rgn.toNat < s.fps.rgnLast.toNat := hpast.lt_of_ne fun e => hr (BitVec.eq_of_toNat_eq e)
      have hsucc : (s.fps.rgn + 1).toNat = s.fps.rgn.toNat + 1 := by bv_omega
      refine ⟨_, exec_sUnlock_more hi hr, by simp [hst, SeqState.programming], ?_, rfl, rfl, rfl, rfl, rfl, rfl, rfl⟩
      simp only [State.roundsLeft, hst, hsucc]
      omega
  | erase =>
    rw [seqInstr_erase hst]
    refine ⟨_, exec_sErase_idle hi, rfl, ?_, rfl, rfl, rfl, rfl, rfl, rfl, rfl⟩
    simp [State.roundsLeft, hst]
  | page =>
    have hlt := hs.page hst
    have hsucc := pg_succ_toNat hv hlt
    rw [seqInstr_page hst]
    by_cases hend : (s.fps.pg + 1).toNat = s.cfg.pagesPerBlock
    · refine ⟨_, exec_sPage_last hi hend, rfl, ?_, rfl, rfl, rfl, rfl, rfl, rfl, rfl⟩
      simp only [State.roundsLeft, hst]
      omega
    · refine ⟨_, exec_sPage_more hi hend, by simp [hst, SeqState.programming], ?_, rfl, rfl, rfl, rfl, rfl, rfl, rfl⟩
      simp only [State.roundsLeft, hst, hsucc]
      omega

/-! ## The run -/

/-- From `s`, programming the staged block is done in `t`: it is in flash, every other byte as it was. -/
structure BlockDone (s t : State) : Prop where
  poll : t.fps.seqState = .poll
  unstaged : t.ses.stagedReady = false
  idle : t.fl.inFlight = none
  block : ∀ i < s.cfg.ebSize, some (t.flashByte (s.ses.stagedAddr.toNat + i)) = s.ses.stagedData[i]?
  others : ∀ a, ¬(s.ses.stagedAddr.toNat ≤ a ∧ a < s.ses.stagedAddr.toNat + s.cfg.ebSize) →
    t.flashByte a = s.flashByte a
  rx : t.rx = s.rx
  link : t.link = s.link

/-- The round of S_FINAL. -/
theorem State.Prompt.final_round {s : State} {n : Nat} (h : s.Prompt (n + 1)) (hq : s.fps.seqState = .final) :
    ∃ t, stepRun 2 s = .next t ∧ BlockDone s t := by
  have hm := sameMachine_moved s
  have hu : step s = .next { s.moved with ses.stagedReady := false, fps.seqState := .poll } := by
    rw [h.step_eq, seqInstr_final (by rw [hm.fps, hq]), exec_sFinal_idle (by rw [hm.fl, h.idle])]
  obtain ⟨t, ht, hprompt, honly, hbytes⟩ := h.round hu (hm.ended.trans h.running) (moved_sched s)
  have hread : ∀ a, t.flashByte a = s.flashByte a := fun a => by
    refine (hbytes a nofun).trans (flashByte_congr_settled (s := s) hm.cfg ?_ (inFlightAt_none h.idle a) ?_)
    · simp only [hm.fl]
    · exact inFlightAt_none (by simp only [hm.fl, h.idle]) a
  refine ⟨t, ht, ?_, ?_, hprompt.idle, fun i hi => ?_, fun a _ => hread a, honly.rx.trans hm.rx, honly.link.trans hm.link⟩
  · rw [honly.fps]
  · rw [honly.ses]
  · rw [hread]
    exact h.progress.block_programmed h.valid h.inv.seq hq h.idle hi

/-- What a round before S_FINAL's leaves for the rounds that follow. -/
structure RoundOn (s t : State) : Prop where
  programming : t.fps.seqState.programming = true
  cfg : t.cfg = s.cfg
  ses : t.ses = s.ses
  others : ∀ a, ¬(s.ses.stagedAddr.toNat ≤ a ∧ a < s.ses.stagedAddr.toNat + s.cfg.ebSize) →
    t.flashByte a = s.flashByte a
  rx : t.rx = s.rx
  link : t.link = s.link

theorem RoundOn.blockDone {s t t' : State} (h : RoundOn s t) (ht : BlockDone t t') : BlockDone s t' := by
  obtain ⟨hpoll, hun, hidle, hblock, hothers, hrx, hlink⟩ := ht
  rw [h.ses, h.cfg] at hblock hothers
  exact ⟨hpoll, hun, hidle, hblock, fun a ha => (hothers a ha).trans (h.others a ha), hrx.trans h.rx, hlink.trans h.link⟩

/-- In a programming state the bytes outside the staged block are out of reach. -/
theorem State.SeqInv.spares_of_outside_staged {s : State} {a : Nat} (hs : s.SeqInv)
    (ha : ¬(s.ses.stagedAddr.toNat ≤ a ∧ a < s.ses.stagedAddr.toNat + s.cfg.ebSize)) : s.spares a := fun hq => by
  obtain ⟨-, haddr, -⟩ := hs.programming hq
  rwa [State.inBlock, haddr]

/-- A round whose controller step enters a programming state, or stays in one. -/
theorem State.Prompt.round_on {s u : State} {n : Nat} (h : s.Prompt (n + 1)) (hu : step s = .next u)
    (hon : RoundOn s u) (hrunning : u.ended = none) (hsched : u.sched = s.sched.tail) :
    ∃ t, stepRun 2 s = .next t ∧ t.Prompt n ∧ RoundOn s t ∧ t.roundsLeft = u.roundsLeft := by
  obtain ⟨t, ht, hprompt, honly, hbytes⟩ := h.round hu hrunning hsched
  refine ⟨t, ht, hprompt, ?_, roundsLeft_congr honly.cfg honly.fps⟩
  refine ⟨honly.fps ▸ hon.programming, honly.cfg.trans hon.cfg, honly.ses.trans hon.ses, fun a ha => ?_,
    honly.rx.trans hon.rx, honly.link.trans hon.link⟩
  have hspares : u.spares a := (inv_step hu h.inv).seq.spares_of_outside_staged (by rwa [hon.ses, hon.cfg])
  exact (hbytes a hspares).trans (hon.others a ha)

/-- The controller's step changes no byte outside the staged block. -/
theorem State.Prompt.flashByte_step {s u : State} {n a : Nat} (h : s.Prompt n) (hu : step s = .next u)
    (ha : ¬(s.ses.stagedAddr.toNat ≤ a ∧ a < s.ses.stagedAddr.toNat + s.cfg.ebSize)) : u.flashByte a = s.flashByte a :=
  flashByte_step_of_spares hu h.inv.seq h.inv.mem (h.inv.seq.spares_of_outside_staged ha)

/-- A round before S_FINAL's. -/
theorem State.Prompt.programming_round {s : State} {n : Nat} (h : s.Prompt (n + 1))
    (hq : s.fps.seqState.programming = true) (hf : s.fps.seqState ≠ .final) :
    ∃ t, stepRun 2 s = .next t ∧ t.Prompt n ∧ RoundOn s t ∧ s.roundsLeft = t.roundsLeft + 1 := by
  have hm := sameMachine_moved s
  obtain ⟨u, hexec, hgoes⟩ := exec_goesOn (hm.cfg ▸ h.valid) (seqInv_moved h.inv.seq) (progress_moved h.progress)
    (hm.fps ▸ hq) (hm.fps ▸ hf) (hm.fl ▸ h.idle)
  have hu : step s = .next u := h.step_eq.trans hexec
  have hon : RoundOn s u := ⟨hgoes.programming, hgoes.cfg.trans hm.cfg, hgoes.ses.trans hm.ses,
    fun _ => h.flashByte_step hu, hgoes.rx.trans hm.rx, hgoes.link.trans hm.link⟩
  obtain ⟨t, ht, hprompt, hon', hrounds⟩ :=
    h.round_on hu hon (hgoes.ended.trans (hm.ended.trans h.running)) (hgoes.sched.trans (moved_sched s))
  refine ⟨t, ht, hprompt, hon', ?_⟩
  rw [hrounds, ← hgoes.rounds, roundsLeft_congr hm.cfg hm.fps]

/-- Round by round, the run of a programming state ends with the block in flash. -/
theorem State.Prompt.run {n : Nat} {s : State} (h : s.Prompt (n + 1)) (hq : s.fps.seqState.programming = true)
    (hn : s.roundsLeft = n + 1) : ∃ t, stepRun (2 * (n + 1)) s = .next t ∧ BlockDone s t := by
  induction n generalizing s with
  | zero =>
    by_cases hf : s.fps.seqState = .final
    · exact h.final_round hf
    · obtain ⟨t, -, -, hon, hrounds⟩ := h.programming_round hq hf
      have hpos := roundsLeft_pos hon.programming
      omega
  | succ n ih =>
    have hf : s.fps.seqState ≠ .final := fun hf => by
      rw [roundsLeft_final hf] at hn
      omega
    obtain ⟨t, ht, hprompt, hon, hrounds⟩ := h.programming_round hq hf
    obtain ⟨t', ht', hdone⟩ := ih hprompt hon.programming (by omega)
    refine ⟨t', ?_, hon.blockDone hdone⟩
    rw [show 2 * (n + 1 + 1) = 2 + 2 * (n + 1) by omega, stepRun_add ht, ht']

/-- The round of S_CHECK: programming starts. -/
theorem State.Prompt.check_round {s : State} {n : Nat} (h : s.Prompt (n + 1)) (hq : s.fps.seqState = .check)
    (hr : s.ses.stagedReady = true) (ho : ¬s.stagedOutside)
    (hb : ¬s.ses.stagedAddr.toNat < s.cfg.flashBase + s.cfg.bootSize) :
    ∃ t, stepRun 2 s = .next t ∧ t.Prompt n ∧ RoundOn s t ∧ t.roundsLeft = s.started.roundsLeft := by
  have hm := sameMachine_moved s
  have hu : step s = .next s.moved.started := by
    rw [h.step_eq, seqInstr_check (by rw [hm.fps, hq])]
    refine exec_sCheck_allowed (by rwa [hm.ses]) ?_ (by rwa [hm.ses, hm.cfg])
    rwa [State.stagedOutside, hm.ses, hm.cfg]
  have hon : RoundOn s s.moved.started := ⟨rfl, hm.cfg, hm.ses, fun _ => h.flashByte_step hu, hm.rx, hm.link⟩
  obtain ⟨t, ht, hprompt, hon', hrounds⟩ := h.round_on hu hon (hm.ended.trans h.running) (moved_sched s)
  refine ⟨t, ht, hprompt, hon', hrounds.trans (roundsLeft_congr hm.cfg ?_)⟩
  simp only [State.started, hm.ses, hm.cfg, hm.fps]

/-- A round for each region of the block, the erase, each page and S_FINAL. -/
theorem roundsLeft_started {s : State} (hv : s.cfg.valid = true) (ho : ¬s.stagedOutside) :
    s.started.roundsLeft =
      s.cfg.regionOf (s.ses.stagedAddr.toNat + s.cfg.ebSize - 1) - s.cfg.regionOf s.ses.stagedAddr.toNat +
        s.cfg.pagesPerBlock + 3 := by
  obtain ⟨hfirst, hlast⟩ := started_regions hv ho
  rw [← hfirst, ← hlast]
  rfl

/-- Settles O58: S_CHECK's round, then a round for each operation and S_FINAL's, each kept by the invariants and the progress of
programming. -/
theorem stagedBlockIsProgrammed : Obligations.StagedBlockIsProgrammed := by
  intro s hv hs he hi hq hr a hboot hend regions n hsched
  have ho : ¬s.stagedOutside := fun h => by rcases h with h | h <;> omega
  have hprompt : s.Prompt n :=
    ⟨hv, hs, progress_of_not_programming hs.seq (by rw [hq]; rfl), he, hi, hsched⟩
  obtain ⟨k, hk⟩ : ∃ k, s.started.roundsLeft = k + 1 := Nat.exists_eq_succ_of_ne_zero (roundsLeft_pos rfl).ne'
  have hn : n = k + 1 + 1 := by
    rw [← hk, roundsLeft_started hv ho]
    change 1 + (s.cfg.regionOf (s.ses.stagedAddr.toNat + s.cfg.ebSize - 1) - s.cfg.regionOf s.ses.stagedAddr.toNat + 1) +
      1 + s.cfg.pagesPerBlock + 1 = _
    omega
  rw [hn] at hprompt
  obtain ⟨t, ht, hprompt', hon, hrounds⟩ := hprompt.check_round hq hr ho (not_lt.mpr hboot)
  obtain ⟨t', ht', hdone⟩ := hprompt'.run hon.programming (hrounds.trans hk)
  obtain ⟨hpoll, hun, hidle, hblock, hothers, hrx, hlink⟩ := hon.blockDone hdone
  refine ⟨t', ?_, hpoll, hun, hidle, hblock, hothers, hrx, hlink⟩
  rw [hn, show 2 * (k + 1 + 1) = 2 + 2 * (k + 1) by omega, stepRun_add ht, ht']

end Sys2Proof.Machine
end

section
/-! SUPPORT. Stops and waits (60_exceptions.md): what a move of each agent answers, where S_CHECK alone can stop a step, which wait
ends in a fair run and which runs wait forever, and the family's obligations from these. -/

namespace Sys2Proof.Machine

/-! ## Steps of the agents -/

/-- An agent's move is always answered, enabled or not. -/
theorem step_agent {s : State} (hv : s.cfg.valid = true) (hm : ∀ f, s.nextMove ≠ .controller f) :
    step s = .next (agentMove s.nextMove s.begin) := by
  simp only [step, hv, if_true]
  cases hn : s.nextMove with
  | controller f => exact absurd hn (hm f)
  | hostByte | timerExpire | flashDone | linkSent | launch => rfl

/-- Settles O8: the three moves are steps of agents outside the controller. -/
theorem agentMovesTakeEffect : Obligations.AgentMovesTakeEffect := by
  refine fun s hv => ⟨fun b hm => ?_, fun hm => ?_, fun b q hm hp => ?_⟩
  all_goals rw [step_agent hv (by simp [hm]), hm]
  · rfl
  · rfl
  · simp only [agentMove, transmit, State_begin_link, hp]
    rfl

/-! ## The configuration -/

theorem step_cfg {s t : State} (h : step s = .next t) : t.cfg = s.cfg :=
  (step_cfg_moved h).trans (sameMachine_moved s).cfg

theorem step_refused_of_invalid {s : State} (h : ¬s.cfg.valid = true) : step s = .refused .badConfiguration := if_neg h

/-- Settles O9: `valid` decides the four constraints, and no move writes the configuration. -/
theorem invalidConfigurationRefused : Obligations.InvalidConfigurationRefused :=
  ⟨fun _ h => step_refused_of_invalid fun hv => h (of_decide_eq_true hv), fun _ _ => step_cfg⟩

/-! ## Where a step can stop -/

theorem seqInstr_of_programming {s : State} (h : s.fps.seqState.programming = true) :
    s.seqInstr = .sUnlock ∨ s.seqInstr = .sErase ∨ s.seqInstr = .sPage ∨ s.seqInstr = .sFinal := by
  cases hq : s.fps.seqState with
  | unlock => exact .inl (seqInstr_unlock hq)
  | erase => exact .inr (.inl (seqInstr_erase hq))
  | page => exact .inr (.inr (.inl (seqInstr_page hq)))
  | final => exact .inr (.inr (.inr (seqInstr_final hq)))
  | poll | dispatch | check | txwait => simp [hq, SeqState.programming] at h

/-- With nothing in flight a programming state issues its operation, or lets the block go. -/
theorem exec_programming_idle_answers {s : State} (hq : s.fps.seqState.programming = true) (hi : s.fl.inFlight = none) :
    ∃ t, exec s.seqInstr s = .next t := by
  rcases seqInstr_of_programming hq with h | h | h | h <;> rw [h]
  · by_cases hr : s.fps.rgn = s.fps.rgnLast
    · exact ⟨_, exec_sUnlock_last hi hr⟩
    · exact ⟨_, exec_sUnlock_more hi hr⟩
  · exact ⟨_, exec_sErase_idle hi⟩
  · by_cases hp : (s.fps.pg + 1).toNat = s.cfg.pagesPerBlock
    · exact ⟨_, exec_sPage_last hi hp⟩
    · exact ⟨_, exec_sPage_more hi hp⟩
  · exact ⟨_, exec_sFinal_idle hi⟩

theorem exec_programming_answers {s : State} (hs : s.FrInv) (hq : s.fps.seqState.programming = true) :
    ∃ t, exec s.seqInstr s = .next t := by
  cases hi : s.fl.inFlight with
  | none => exact exec_programming_idle_answers hq hi
  | some op =>
    rw [exec_eq_frPoll_of_busy (seqInstr_of_programming hq) (by rw [hi]; rfl)]
    exact frPoll_answers hs

theorem exec_sTxwait_answers (s : State) : ∃ t, exec .sTxwait s = .next t := by
  by_cases hp : s.link.txPend = []
  · exact ⟨_, exec_sTxwait_of_transmitted hp⟩
  · exact ⟨_, exec_sTxwait_of_pending hp⟩

/-- The answer is a fault of S_CHECK (R109). -/
def CheckFault (r : Result) : Prop := r = .fault .outsideFlash ∨ r = .fault .selfOverwrite

theorem exec_sCheck_answers_or_faults (s : State) :
    (∃ t, exec .sCheck s = .next t) ∨ (s.ses.stagedReady = true ∧ CheckFault (exec .sCheck s)) := by
  cases hr : s.ses.stagedReady with
  | false => exact .inl ⟨_, exec_sCheck_noBlock hr⟩
  | true =>
    by_cases ho : s.stagedOutside
    · exact .inr ⟨rfl, .inl (exec_sCheck_outside hr ho)⟩
    by_cases hb : s.ses.stagedAddr.toNat < s.cfg.flashBase + s.cfg.bootSize
    · exact .inr ⟨rfl, .inr (exec_sCheck_overBoot hr ho hb)⟩
    · exact .inl ⟨_, exec_sCheck_allowed hr ho hb⟩

/-- No block is staged outside S_CHECK and the programming states, so that a dispatch meets none (R102). -/
theorem State.SeqInv.notStaged {s : State} (hs : s.SeqInv) (hc : s.fps.seqState ≠ .check)
    (hq : s.fps.seqState.programming = false) : s.ses.stagedReady = false := by
  by_contra hr
  rcases hs.staged (by simpa using hr) with h | h
  · exact hc h
  · simp [hq] at h

theorem exec_seqInstr_answers_or_checkFault {s : State} (hs : s.FrInv) (hseq : s.SeqInv) :
    (∃ t, exec s.seqInstr s = .next t) ∨
      (s.fps.seqState = .check ∧ s.ses.stagedReady = true ∧ CheckFault (exec s.seqInstr s)) := by
  obtain ⟨⟨t, ht, -⟩, -, hdispatch⟩ := pollYieldAndDispatchComplete s hs
  cases hq : s.fps.seqState with
  | poll => exact .inl ⟨_, seqInstr_poll hq ▸ ht⟩
  | dispatch =>
    rw [seqInstr_dispatch hq]
    exact .inl (hdispatch (hseq.notStaged (by simp [hq]) (by rw [hq]; rfl)))
  | check =>
    rw [seqInstr_check hq]
    exact (exec_sCheck_answers_or_faults s).imp_right fun h => ⟨rfl, h⟩
  | unlock | erase | page | final => exact .inl (exec_programming_answers hs (by rw [hq]; rfl))
  | txwait =>
    rw [seqInstr_txwait hq]
    exact .inl (exec_sTxwait_answers s)

/-- After the end of a run the controller's move changes nothing (log 15). -/
theorem step_controller_runOver {s : State} {f : Bool} {k : EndKind} (hv : s.cfg.valid = true)
    (hm : s.nextMove = .controller f) (he : s.ended = some k) : step s = .next s.moved := by
  simp only [step, hv, if_true, hm, controllerMove, State_begin_ended, he, State.moved]

/-- Settles O56: agents are always answered, and of the sequencer's states S_CHECK alone can stop. -/
theorem onlyCheckCanStop : Obligations.OnlyCheckCanStop := by
  intro s hv hs hseq
  have hm := sameMachine_moved s
  by_cases hn : ∃ f, s.nextMove = .controller f
  · obtain ⟨f, hn⟩ := hn
    cases he : s.ended with
    | some k => exact .inl ⟨_, step_controller_runOver hv hn he⟩
    | none =>
      rw [step_controller hv hn he, ← hm.fps, ← hm.ses]
      exact exec_seqInstr_answers_or_checkFault (frInv_of_rx_eq hm.rx hs) (seqInv_moved hseq)
  · exact .inl ⟨_, step_agent hv fun f h => hn ⟨f, h⟩⟩

/-! ## Waits: conditions that the controller keeps and one kind of agent's move ends -/

theorem sameMachine_withMove_moved (m : Move) (s : State) : SameMachine s (s.withMove m).moved := by
  have h := sameMachine_moved (s.withMove m)
  exact ⟨h.cfg, h.rx, h.fps, h.ses, h.link, h.tmoFlag, h.fl, h.ended⟩

theorem step_controller_of_running {s : State} {f : Bool} (hv : s.cfg.valid = true) (he : s.ended = none) :
    step (s.withMove (.controller f)) =
      exec (s.withMove (.controller f)).moved.seqInstr (s.withMove (.controller f)).moved :=
  step_controller (s := s.withMove (.controller f)) hv rfl he

/-- The controller keeps the condition `W`, and an agent's move keeps it or ends it with `Exit`, which no
move of the controller does. -/
structure IsWait (W : State → Prop) (Exit : Move → State → Prop) : Prop where
  same : ∀ {s t : State}, SameMachine s t → W s → W t
  controller : ∀ {s t : State}, ControllerStep s t → W s → W t
  agent : ∀ {m : Move} {s t : State}, AgentStep s m t → W s → W t ∨ Exit m t
  notExit : ∀ (f : Bool) (t : State), ¬Exit (.controller f) t

section
variable {W : State → Prop} {Exit : Move → State → Prop} (hw : IsWait W Exit)
include hw

theorem IsWait.step {m : Move} {s t : State} (h : step (s.withMove m) = .next t) (hs : W s) : W t ∨ Exit m t := by
  have hmoved : W (s.withMove m).moved := hw.same (sameMachine_withMove_moved m s) hs
  cases (step_next h).2 with
  | controller _ _ _ _ ht => exact .inl (hw.controller ht hmoved)
  | runOver => exact .inl hmoved
  | agent => exact hw.agent (agentMove_step m _) hmoved

theorem IsWait.step_controller {f : Bool} {s t : State} (h : Machine.step (s.withMove (.controller f)) = .next t)
    (hs : W s) : W t := (hw.step h hs).resolve_right (hw.notExit f t)

/-- A wait that does not last forever lasts until a move that ends it. -/
theorem IsWait.ends {moves : Nat → Move} {run : Nat → State} {n : Nat} (hrun : IsRun moves run) (hn : W (run n))
    (hends : ∃ m, n ≤ m ∧ ¬W (run m)) :
    ∃ m, n ≤ m ∧ Exit (moves m) (run (m + 1)) ∧ ∀ k, n ≤ k → k ≤ m → W (run k) := by
  obtain ⟨m, hnm, hm⟩ := hends
  obtain ⟨d, rfl⟩ := Nat.exists_eq_add_of_le hnm
  clear hnm
  induction d generalizing n with
  | zero => exact absurd hn hm
  | succ d ih =>
    rcases hw.step (hrun n) hn with hwait | hexit
    · obtain ⟨m, hle, hexit, hwaits⟩ := ih hwait (by rwa [Nat.add_right_comm])
      refine ⟨m, by omega, hexit, fun k hk hkm => ?_⟩
      obtain rfl | hlt := hk.eq_or_lt
      · exact hn
      · exact hwaits k hlt hkm
    · refine ⟨n, le_rfl, hexit, fun k hk hkn => ?_⟩
      obtain rfl := le_antisymm hk hkn
      exact hn

end

/-! ## Runs of one move -/

/-- The state after a move, where its step goes on. -/
def State.after (m : Move) (s : State) : State :=
  match step (s.withMove m) with
  | .next t => t
  | .fault _ => s
  | .refused _ => s

theorem State.after_of_step {m : Move} {s t : State} (h : step (s.withMove m) = .next t) : s.after m = t := by
  simp only [State.after, h]

/-- The run in which only the controller moves. -/
def controllerRun (s : State) (k : Nat) : State := (State.after (.controller false))^[k] s

theorem controllerRun_succ (s : State) (k : Nat) :
    controllerRun s (k + 1) = (controllerRun s k).after (.controller false) := Function.iterate_succ_apply' ..

/-- A condition from which the controller's step goes on and keeps it holds forever if only the controller moves. -/
theorem exists_controller_run {P : State → Prop}
    (hstep : ∀ s, P s → ∃ t, step (s.withMove (.controller false)) = .next t ∧ P t) {s : State} (hs : P s) :
    ∃ moves run, run 0 = s ∧ IsRun moves run ∧ ControllerRecurs moves ∧ ∀ k, P (run k) := by
  have hP : ∀ k, P (controllerRun s k) := fun k => by
    induction k with
    | zero => exact hs
    | succ k ih =>
      obtain ⟨t, ht, hPt⟩ := hstep _ ih
      rwa [controllerRun_succ, State.after_of_step ht]
  refine ⟨fun _ => .controller false, controllerRun s, rfl, fun k => ?_, fun n => ⟨n, le_rfl, false, rfl⟩, hP⟩
  obtain ⟨t, ht, -⟩ := hstep _ (hP k)
  rw [controllerRun_succ, State.after_of_step ht, ht]

/-! ## The wait for the flash controller -/

/-- In a run, the sequencer is in the programming state `q` with an operation in flight. -/
structure State.Yielding (q : SeqState) (s : State) : Prop where
  running : s.ended = none
  programming : q.programming = true
  seqState : s.fps.seqState = q
  busy : s.flBusy = true

theorem yielding_congr {q : SeqState} {s t : State} (he : t.ended = s.ended) (hf : t.fps = s.fps) (hfl : t.fl = s.fl)
    (hs : s.Yielding q) : t.Yielding q := by
  obtain ⟨hr, hp, hq, hb⟩ := hs
  exact ⟨by rw [he, hr], hp, by rw [hf, hq], by rw [State.flBusy, hfl]; exact hb⟩

theorem ControllerStep.yielding {q : SeqState} {s t : State} (h : ControllerStep s t) (hs : s.Yielding q) :
    t.Yielding q := by
  cases h with
  | busy _ _ _ ht =>
    have ho := onlyReceiver_frPoll ht
    exact yielding_congr ho.ended ho.fps ho.fl hs
  | unlockLast _ hb | unlockMore _ hb | erase _ hb | pageLast _ hb | pageMore _ hb | final _ hb =>
    exact absurd hs.busy (not_flBusy hb)
  | poll hq | noFrame hq | dispatch hq | noBlock hq | start hq | wait hq | finish hq =>
    have hp := hs.programming
    simp [← hs.seqState, hq, SeqState.programming] at hp

/-- The flash controller is idle after its completion. -/
def FlashExit (m : Move) (t : State) : Prop := (∃ ok n, m = .flashDone ok n) ∧ t.flBusy = false

theorem AgentStep.yielding {q : SeqState} {m : Move} {s t : State} (h : AgentStep s m t) (hs : s.Yielding q) :
    t.Yielding q ∨ FlashExit m t := by
  cases h with
  | flashDone ok n => exact .inr ⟨⟨ok, n, rfl⟩, rfl⟩
  | flashIdle _ _ hi => exact absurd hs.busy (not_flBusy hi)
  | launch _ _ he => simp [hs.running] at he
  | hostByte | timerExpire | linkSent => exact .inl (yielding_congr (s := s) rfl rfl rfl hs)
  | controller | linkIdle | launchDisabled => exact .inl hs

theorem isWait_yielding (q : SeqState) : IsWait (State.Yielding q) FlashExit where
  same h := yielding_congr h.ended h.fps h.fl
  controller := ControllerStep.yielding
  agent := AgentStep.yielding
  notExit := by simp [FlashExit]

theorem yielding_ends {moves : Nat → Move} {run : Nat → State} {n : Nat} {q : SeqState} (hrun : IsRun moves run)
    (hfair : FlashFair run) (hn : (run n).Yielding q) :
    ∃ m, n ≤ m ∧ FlashExit (moves m) (run (m + 1)) ∧ ∀ k, n ≤ k → k ≤ m → (run k).Yielding q := by
  obtain ⟨m, hm, hidle⟩ := hfair n hn.busy
  exact (isWait_yielding q).ends hrun hn ⟨m, hm, fun h => by simpa [hidle] using h.busy⟩

/-- The controller polls forever in a state in which it goes on. -/
theorem yielding_step {q : SeqState} {s : State} (hv : s.cfg.valid = true) (hs : s.FrInv) (hy : s.Yielding q) :
    ∃ t, step (s.withMove (.controller false)) = .next t ∧ t.cfg.valid = true ∧ t.FrInv ∧ t.Yielding q := by
  have hm := sameMachine_withMove_moved (.controller false) s
  have hq : (s.withMove (.controller false)).moved.fps.seqState.programming = true := by
    rw [hm.fps, hy.seqState, hy.programming]
  obtain ⟨t, ht⟩ := exec_programming_answers (frInv_of_rx_eq hm.rx hs) hq
  rw [← step_controller_of_running hv hy.running] at ht
  exact ⟨t, ht, by rwa [step_cfg ht], frInv_step ht (frInv_of_rx_eq (withMove_rx ..) hs), (isWait_yielding q).step_controller ht hy⟩

theorem yielding_forever {q : SeqState} {s : State} (hv : s.cfg.valid = true) (hs : s.FrInv) (hy : s.Yielding q) :
    ∃ moves run, run 0 = s ∧ IsRun moves run ∧ ControllerRecurs moves ∧ ∀ k, (run k).Yielding q := by
  obtain ⟨moves, run, h0, hrun, hc, hP⟩ :=
    exists_controller_run (P := fun t => t.cfg.valid = true ∧ t.FrInv ∧ t.Yielding q)
      (fun _ ⟨hv, hs, hy⟩ => yielding_step hv hs hy) ⟨hv, hs, hy⟩
  exact ⟨moves, run, h0, hrun, hc, fun k => (hP k).2.2⟩

/-! ## The wait for the transmitter -/

/-- In a run, S_TXWAIT has bytes to be sent. -/
structure State.Transmitting (s : State) : Prop where
  running : s.ended = none
  waiting : s.txWaiting = true

theorem transmitting_congr {s t : State} (he : t.ended = s.ended) (hf : t.fps = s.fps) (hl : t.link.txPend = s.link.txPend)
    (hs : s.Transmitting) : t.Transmitting := by
  obtain ⟨hr, hwait⟩ := hs
  rw [txWaiting_iff] at hwait
  exact ⟨by rw [he, hr], by rwa [txWaiting_iff, hf, hl]⟩

theorem ControllerStep.eq_of_transmitting {s t : State} (h : ControllerStep s t) (hs : s.Transmitting) : t = s := by
  obtain ⟨hq, hp⟩ := (txWaiting_iff s).mp hs.waiting
  cases h with
  | wait => rfl
  | finish _ hp' => exact absurd hp' hp
  | busy hq' => simp [hq, SeqState.programming] at hq'
  | poll hq' | noFrame hq' | dispatch hq' | noBlock hq' | start hq' | unlockLast hq' | unlockMore hq' | erase hq'
  | pageLast hq' | pageMore hq' | final hq' => simp [hq] at hq'

/-- The transmitter has sent the last byte, and the controller is still in S_TXWAIT. -/
def LinkExit (m : Move) (t : State) : Prop := m = .linkSent ∧ t.fps.seqState = .txwait ∧ t.txComplete = true

theorem AgentStep.transmitting {m : Move} {s t : State} (h : AgentStep s m t) (hs : s.Transmitting) :
    t.Transmitting ∨ LinkExit m t := by
  obtain ⟨hq, hp⟩ := (txWaiting_iff s).mp hs.waiting
  cases h with
  | @linkSent b q =>
    cases q with
    | nil => exact .inr ⟨rfl, hq, rfl⟩
    | cons b' q => exact .inl ⟨hs.running, (txWaiting_iff _).mpr ⟨hq, nofun⟩⟩
  | linkIdle hp' => exact absurd hp' hp
  | launch _ _ he => simp [hs.running] at he
  | hostByte | timerExpire | flashDone => exact .inl (transmitting_congr (s := s) rfl rfl rfl hs)
  | controller | flashIdle | launchDisabled => exact .inl hs

theorem isWait_transmitting : IsWait State.Transmitting LinkExit where
  same h := transmitting_congr h.ended h.fps (by rw [h.link])
  controller h hs := h.eq_of_transmitting hs ▸ hs
  agent := AgentStep.transmitting
  notExit := by simp [LinkExit]

theorem transmitting_ends {moves : Nat → Move} {run : Nat → State} {n : Nat} (hrun : IsRun moves run)
    (hfair : LinkFair run) (hn : (run n).Transmitting) :
    ∃ m, n ≤ m ∧ LinkExit (moves m) (run (m + 1)) ∧ ∀ k, n ≤ k → k ≤ m → (run k).Transmitting := by
  obtain ⟨m, hm, hsent⟩ := hfair n hn.waiting
  exact isWait_transmitting.ends hrun hn ⟨m, hm, fun h => by simpa [hsent] using h.waiting⟩

theorem transmitting_step {s : State} (hv : s.cfg.valid = true) (hs : s.Transmitting) :
    ∃ t, step (s.withMove (.controller false)) = .next t ∧ t.cfg.valid = true ∧ t.Transmitting := by
  have hm := sameMachine_withMove_moved (.controller false) s
  have hq : (s.withMove (.controller false)).moved.fps.seqState = .txwait := by
    rw [hm.fps, ((txWaiting_iff s).mp hs.waiting).1]
  obtain ⟨t, ht⟩ := exec_sTxwait_answers (s.withMove (.controller false)).moved
  rw [← seqInstr_txwait hq, ← step_controller_of_running hv hs.running] at ht
  exact ⟨t, ht, by rwa [step_cfg ht], isWait_transmitting.step_controller ht hs⟩

theorem transmitting_forever {s : State} (hv : s.cfg.valid = true) (hs : s.Transmitting) :
    ∃ moves run, run 0 = s ∧ IsRun moves run ∧ ControllerRecurs moves ∧ ∀ k, (run k).Transmitting := by
  obtain ⟨moves, run, h0, hrun, hc, hP⟩ :=
    exists_controller_run (P := fun t => t.cfg.valid = true ∧ t.Transmitting)
      (fun _ ⟨hv, hs⟩ => transmitting_step hv hs) ⟨hv, hs⟩
  exact ⟨moves, run, h0, hrun, hc, fun k => (hP k).2⟩

/-! ## Fairness ends both waits, and nothing else does -/

/-- Settles O59: each wait is kept by every move but the one that ends it, and the controller alone waits forever. -/
theorem fairRunLeavesEveryWait : Obligations.FairRunLeavesEveryWait := by
  refine ⟨fun moves run n hrun hfair he hq hb => ?_, fun moves run n hrun hfair he hwait => ?_,
    fun s hv he => ⟨fun hs hq hb => ?_, fun hwait => ?_⟩⟩
  · obtain ⟨m, hm, ⟨hmove, hidle⟩, hwaits⟩ := yielding_ends hrun hfair ⟨he, hq, rfl, hb⟩
    exact ⟨m, hm, hmove, hidle, fun k hk hkm => ⟨(hwaits k hk hkm).busy, (hwaits k hk hkm).seqState⟩⟩
  · obtain ⟨m, hm, ⟨hmove, hq, hsent⟩, hwaits⟩ := transmitting_ends hrun hfair ⟨he, hwait⟩
    exact ⟨m, hm, hmove, hq, hsent, fun k hk hkm => (hwaits k hk hkm).waiting⟩
  · obtain ⟨moves, run, h0, hrun, hc, hy⟩ := yielding_forever hv hs ⟨he, hq, rfl, hb⟩
    exact ⟨moves, run, h0, hrun, hc, fun k => ⟨(hy k).busy, (hy k).seqState⟩⟩
  · obtain ⟨moves, run, h0, hrun, hc, ht⟩ := transmitting_forever hv ⟨he, hwait⟩
    exact ⟨moves, run, h0, hrun, hc, fun k => (ht k).waiting⟩

end Sys2Proof.Machine
end

section
/-! SUPPORT. Reset and launch (70_reset_and_hazards.md): the values a run starts with, what a launch move finds and keeps, and the
family's obligations from these. -/

namespace Sys2Proof.Machine

/-! ## The values a run starts with -/

/-- The values R145 gives at launch, with no end mark. The flash controller is apart: a launch finds it as it is. -/
structure State.AtLaunch (s : State) : Prop where
  rxState : s.rx.rxState = .awaitingHeader
  cursor : s.rx.cursor = 0
  frameComplete : s.rx.frameComplete = false
  seqState : s.fps.seqState = .poll
  winBegin : s.ses.winBegin = 0
  winEnd : s.ses.winEnd = 0
  stagedReady : s.ses.stagedReady = false
  txQ : s.txQ = []
  txComplete : s.txComplete = true
  ended : s.ended = none

theorem atLaunch_launchOf (cfg : Config) : (State.launchOf cfg).AtLaunch := by constructor <;> rfl

theorem atLaunch_launch (l : List Bool) (tmo : Bool) (s : State) : (launch l tmo s).AtLaunch := by constructor <;> rfl

/-- Settles O46: reset is the launch state of its configuration, and S_POLL the operation its `seq_state` selects. -/
theorem resetIsTheLaunchState : Obligations.ResetIsTheLaunchState :=
  have h := atLaunch_launchOf Config.test
  ⟨h.rxState, h.cursor, h.frameComplete, h.seqState, h.winBegin, h.winEnd, h.stagedReady, h.txQ, h.txComplete, rfl,
    h.ended, seqInstr_poll h.seqState⟩

/-! ## What a launch finds and keeps -/

theorem agentMove_launch_enabled {s : State} (he : s.ended.isSome = true) (hi : s.fl.inFlight = none) (l : List Bool)
    (tmo : Bool) : agentMove (.launch l tmo) s = launch l tmo s := by
  simp [agentMove, State.flBusy, he, hi]

theorem flashByte_launch (l : List Bool) (tmo : Bool) (s : State) (a : Nat) :
    (launch l tmo s).flashByte a = s.flashByte a := flashByte_congr rfl rfl rfl rfl a

/-- A region's lock bit is the one the launch gives it. -/
theorem launch_locked_of_given {l : List Bool} {s : State} {r : Nat} {v : Bool} (hr : r < s.cfg.regionCount)
    (hv : l[r]? = some v) (tmo : Bool) : (launch l tmo s).fl.locked[r]? = some v := by
  simp [launch, hr, hv]

theorem step_launch {s : State} {l : List Bool} {tmo : Bool} (hv : s.cfg.valid = true)
    (hm : s.nextMove = .launch l tmo) (he : s.ended.isSome = true) (hi : s.fl.inFlight = none) :
    step s = .next (launch l tmo s.begin) := by
  rw [step_agent hv (by simp [hm]), hm, agentMove_launch_enabled (s := s.begin) he hi]

/-- Settles O47: the controller has no move after the run, and a launch finds the flash and the host's bytes as they are. With
nothing in flight, the step count does not show in what the array reads as. -/
theorem launchAfterResetKeepsFlash : Obligations.LaunchAfterResetKeepsFlash := by
  refine fun s k hv he => ⟨fun f hm => ?_, fun l tmo hm hi => ?_⟩
  · rw [step_controller_runOver hv hm he, State.moved, hm]
    rfl
  · have h := atLaunch_launch l tmo s.begin
    have hbytes (a : Nat) : (launch l tmo s.begin).flashByte a = s.flashByte a :=
      (flashByte_launch l tmo s.begin a).trans (flashByte_begin (inFlightAt_none hi a))
    exact ⟨_, step_launch hv hm (by rw [he]; rfl) hi, h.ended, h.rxState, h.cursor, h.frameComplete, h.seqState,
      h.winBegin, h.winEnd, h.stagedReady, rfl, h.txQ, h.txComplete, (flBusy_false_iff _).mpr hi, rfl, rfl, hbytes,
      fun _ hr _ hl => launch_locked_of_given (s := s.begin) hr hl tmo⟩

end Sys2Proof.Machine
end
